-- ==== Sys2Proof/Word.lean ====
section
/-! DEFINITION. The word types of the engine: 64-bit registers and command words, slot numbers. -/

namespace Sys2Proof

/-- A register, a command word, or the data of one bus access (10_state.md R41, 30_encoding.md R120). -/
abbrev Word := BitVec 64

/-- A slot number 0 to 15 naming m0 to m15: every 4-bit value names a slot (10_state.md R30,
30_encoding.md R122). -/
abbrev SlotId := Fin 16

/-- `zext_64` of a number: RES, ERRINFO and the read windows are 64 bits, zero-extended
(10_state.md R51, 60_exceptions.md R327). -/
abbrev zext64 (n : Nat) : Word := BitVec.ofNat 64 n

end Sys2Proof
end

