-- ==== Sys2Proof/Config.lean ====
section
/-! DEFINITION. What one implementation fixes (00_scope.md R7) and the free values: the parameters as
plain data, and the OPEN generator, base address and undriven bus data as opaque constants with no body. -/

namespace Sys2Proof

/-- The legal widths of one packed word, `WORD_BITS` (00_scope.md R7). -/
inductive WordBits where
  | w8
  | w16
  | w32
  | w64
deriving DecidableEq, Repr

/-- `WORD_BITS` as a number of bits. -/
def WordBits.bits : WordBits → Nat
  | .w8 => 8
  | .w16 => 16
  | .w32 => 32
  | .w64 => 64

/-- The state type S of the generator parameter `prng` (10_state.md R37). A natural number codes the
state of any generator with finitely or countably many states. DESIGN CHOICE, safe (log 4). -/
abbrev GenState := Nat

/-- `seed_fn` of the OPEN parameter `prng` (00_scope.md R17, R18): a free value (log 4). -/
opaque Config.seedFn : Word → GenState

/-- What one draw below `m` reads from a generator state, before it is brought into range: a free value
(log 4). The model reduces it modulo `m`, which loses no generator, since a value below `m` is its own
residue (00_scope.md R20). -/
opaque Config.drawRaw : GenState → Nat → Nat

/-- The generator state after one draw below `m`: a free value (00_scope.md R17, R20; log 4). -/
opaque Config.drawNext : GenState → Nat → GenState

/-- The number of the 256-byte block the platform puts the register space in: OPEN, a free value
(00_scope.md R7, 20_memory.md R80; log 7). -/
opaque Config.engineBlock : Nat

/-- `bus_rdata` of an access for which the spec states no read data (an accepted write, an unanswered
access), as a function of a fresh counter: a free value (20_memory.md R81; log 8). -/
opaque Config.freeRdata : Nat → Word

/-- `NSLOTS`, fixed by the 4-bit slot fields (00_scope.md R7). -/
def Config.nslots : Nat := 16

/-- `CNT_BITS`, the width of one count-buffer entry (00_scope.md R7). -/
def Config.cntBits : Nat := 32

/-- The implementation parameters of 00_scope.md R7. Each is a field of State that no step changes, so
that a statement about every state holds for every parameter value (log 6). -/
structure Params where
  /-- `WORD_BITS` -/
  wordBits : WordBits
  /-- `MAX_DIM`: 1 to 2^20 − 1 -/
  maxDim : BitVec 20
  /-- `SLOT_WORDS`: 1 to 2^32 − 1 -/
  slotWords : BitVec 32
  /-- `COUNT_CAP`: 1 to 2^32 − 1 -/
  countCap : BitVec 32
  /-- `SEED_RESET`: any 64-bit value -/
  seedReset : Word
  /-- `ENGINE_BASE` divided by 256, since the base is aligned to 256 bytes -/
  engineBlock : Nat
deriving DecidableEq, Repr

/-- W, the width of one packed word. -/
def Params.W (p : Params) : Nat := p.wordBits.bits

/-- `XIDX_CAP` equals `MAX_DIM` (00_scope.md R7). -/
def Params.xidxCap (p : Params) : Nat := p.maxDim.toNat

/-- `ENGINE_BASE` (20_memory.md R80). -/
def Params.engineBase (p : Params) : Nat := 256 * p.engineBlock

/-- The legal parameter values of 00_scope.md R7 that the types do not already force. -/
def Params.legal (p : Params) : Bool :=
  p.maxDim != 0 && p.slotWords != 0 && p.countCap != 0

/-- The default values of 00_scope.md R7; `ENGINE_BASE` has none and stays free. -/
def Params.default : Params :=
  { wordBits := .w64
    maxDim := 8191
    slotWords := 1048576
    countCap := 16384
    seedReset := 0
    engineBlock := Config.engineBlock }

end Sys2Proof
end

