-- ==== Sys2Proof/Syntax.lean ====
section
/-! DEFINITION. The commands of the engine: one constructor per row of opcode_table.json, with the
operands in the assembler's order (30_encoding.md R126, R131), and the pseudo-instructions of R132. -/

namespace Sys2Proof

/-- A command (30_encoding.md R126). Immediates are unsigned numbers, as the assembler takes them; the
widths of their fields are checked in WellFormed. A slot number and SETBIT's value bit fit their fields
by type. -/
inductive Instr where
  /-- 0x00: no operation (40_matrix_basic.md R151) -/
  | nop
  /-- 0x01: allocate an all-zero matrix (40_matrix_basic.md R152) -/
  | init (md : SlotId) (rows cols : Nat)
  /-- 0x02: identity matrix (40_matrix_basic.md R153) -/
  | ident (md : SlotId) (n : Nat)
  /-- 0x03: deep copy (40_matrix_basic.md R154) -/
  | copy (md ms1 : SlotId)
  /-- 0x04: randomize in place (40_matrix_basic.md R155) -/
  | rand (md : SlotId)
  /-- 0x05: set to an exact target weight (40_matrix_basic.md R156) -/
  | tgtwt (md : SlotId) (weight : Nat)
  /-- 0x06: direct cell write (40_matrix_basic.md R157) -/
  | setbit (md : SlotId) (row col : Nat) (v : Bool)
  /-- 0x07: direct cell read (40_matrix_basic.md R158) -/
  | getbit (ms1 : SlotId) (row col : Nat)
  /-- 0x08: line addition in place (40_matrix_basic.md R159) -/
  | rowxor (md : SlotId) (srcRow dstRow : Nat)
  /-- 0x09: row swap in place (40_matrix_basic.md R160) -/
  | rowswap (md : SlotId) (rowA rowB : Nat)
  /-- 0x10: random column subset without replacement (41_matrix_algebra.md R200) -/
  | sample (md ms1 : SlotId) (count : Nat)
  /-- 0x11: transpose (41_matrix_algebra.md R205) -/
  | trans (md ms1 : SlotId)
  /-- 0x12: concatenate (41_matrix_algebra.md R207) -/
  | concat (md ms1 ms2 : SlotId)
  /-- 0x13: add (41_matrix_algebra.md R210) -/
  | add (md ms1 ms2 : SlotId)
  /-- 0x14: multiply over GF(2) (41_matrix_algebra.md R212) -/
  | mul (md ms1 ms2 : SlotId)
  /-- 0x15: integer-count product (41_matrix_algebra.md R214) -/
  | mulcnt (ms1 ms2 : SlotId)
  /-- 0x16: cyclic column rotation (41_matrix_algebra.md R216) -/
  | rot (md ms1 : SlotId) (shift : Nat)
  /-- 0x17: Gauss–Jordan inversion (41_matrix_algebra.md R220) -/
  | inv (md ms1 : SlotId)
  /-- 0x20: Hamming weight (41_matrix_algebra.md R240) -/
  | hwt (ms1 : SlotId)
  /-- 0x21: zero test (41_matrix_algebra.md R242) -/
  | iszero (ms1 : SlotId)
  /-- 0x22: upper-triangular test (41_matrix_algebra.md R244) -/
  | isut (ms1 : SlotId)
  /-- 0x30: Prange search (42_prange_isd.md R260) -/
  | isd (md ms1 ms2 : SlotId) (t : Nat)
  /-- 0x31: bit-flipping decoder, threshold T and per-half weight t (43_bitflip.md R290) -/
  | bitflip (md ms1 ms2 ms3 : SlotId) (threshold t : Nat)
deriving DecidableEq, Repr

/-- The pseudo-instructions of 30_encoding.md R132 (ISSQ is "not provided"). -/
inductive Pseudo where
  | clrbit (md : SlotId) (row col : Nat)
  | vec (md : SlotId) (n : Nat)
  | zero (md : SlotId) (rows cols : Nat)
  | mov (md ms1 : SlotId)
deriving DecidableEq, Repr

end Sys2Proof
end

