-- ==== Sys2Proof/WellFormed.lean ====
section
/-! DEFINITION. Which commands have an encoding: every immediate fits its field (30_encoding.md R123,
R131: "An immediate too large for its field ... is an assembly error, never truncated"). Slot numbers
and SETBIT's v fit by type. -/

namespace Sys2Proof

/-- A 20-bit immediate, immA or immB (30_encoding.md R123). -/
def fitsImm20 (n : Nat) : Bool := decide (n < 2 ^ 20)

/-- The 40-bit immediate of TGTWT (30_encoding.md R123). -/
def fitsImm40 (n : Nat) : Bool := decide (n < 2 ^ 40)

/-- Every immediate of the command fits its field. -/
def Instr.wellFormed : Instr → Bool
  | .nop => true
  | .init _ rows cols => fitsImm20 rows && fitsImm20 cols
  | .ident _ n => fitsImm20 n
  | .copy _ _ => true
  | .rand _ => true
  | .tgtwt _ weight => fitsImm40 weight
  | .setbit _ row col _ => fitsImm20 row && fitsImm20 col
  | .getbit _ row col => fitsImm20 row && fitsImm20 col
  | .rowxor _ srcRow dstRow => fitsImm20 srcRow && fitsImm20 dstRow
  | .rowswap _ rowA rowB => fitsImm20 rowA && fitsImm20 rowB
  | .sample _ _ count => fitsImm20 count
  | .trans _ _ => true
  | .concat _ _ _ => true
  | .add _ _ _ => true
  | .mul _ _ _ => true
  | .mulcnt _ _ => true
  | .rot _ _ shift => fitsImm20 shift
  | .inv _ _ => true
  | .hwt _ => true
  | .iszero _ => true
  | .isut _ => true
  | .isd _ _ _ t => fitsImm20 t
  | .bitflip _ _ _ _ threshold t => fitsImm20 threshold && fitsImm20 t

end Sys2Proof
end

