-- ==== Sys2Proof/Decode.lean ====
section
/-! DEFINITION. The command word: its fields (30_encoding.md R121), the opcode table with its masks
(R125, R126), the total decoder (R127), and after it the encoder, written from the same table. -/

namespace Sys2Proof

/-- The field layout of the command word (30_encoding.md R121). SETBIT's value v is bit 0 of ms3. -/
structure Fields where
  /-- bits 7:0 -/
  op : BitVec 8
  /-- bits 11:8 -/
  md : BitVec 4
  /-- bits 15:12 -/
  ms1 : BitVec 4
  /-- bits 19:16 -/
  ms2 : BitVec 4
  /-- bits 23:20 -/
  ms3 : BitVec 4
  /-- bits 43:24 -/
  immA : BitVec 20
  /-- bits 63:44 -/
  immB : BitVec 20
deriving DecidableEq, Repr

/-- The fields of a command word (30_encoding.md R121). -/
def Fields.ofWord (w : Word) : Fields :=
  { op := w.extractLsb' 0 8
    md := w.extractLsb' 8 4
    ms1 := w.extractLsb' 12 4
    ms2 := w.extractLsb' 16 4
    ms3 := w.extractLsb' 20 4
    immA := w.extractLsb' 24 20
    immB := w.extractLsb' 44 20 }

/-- The command word with the given fields, the most significant field first (30_encoding.md R121). -/
def Fields.toWord (f : Fields) : Word :=
  f.immB ++ f.immA ++ f.ms3 ++ f.ms2 ++ f.ms1 ++ f.md ++ f.op

/-- The slot a 4-bit field names: every value names one (30_encoding.md R122). -/
def slotOf (x : BitVec 4) : SlotId := ⟨x.toNat, x.isLt⟩

/-- The 4-bit field that names a slot (30_encoding.md R122). -/
def slotBits (d : SlotId) : BitVec 4 := BitVec.ofNat 4 d.val

/-- A 20-bit immediate, zero-extended (30_encoding.md R123). -/
def immOf (x : BitVec 20) : Nat := x.toNat

/-- The field of a 20-bit immediate; only called on values that fit (R131). -/
def immBits (n : Nat) : BitVec 20 := BitVec.ofNat 20 n

/-- `imm40 = {immB, immA}` (30_encoding.md R121, R123). -/
def imm40Of (f : Fields) : Nat := (f.immB ++ f.immA).toNat

/-- SETBIT's value: bit 20 of the command word (30_encoding.md R124). -/
def valueOf (f : Fields) : Bool := f.ms3.getLsbD 0

/-- A row of the opcode map: opcode, mask of the bits that are fixed, and the command its fields spell
(30_encoding.md R125, R126). -/
structure OpRow where
  op : BitVec 8
  mask : Word
  build : Fields → Instr

/-- The slot and row commands, 0x00 to 0x09 (30_encoding.md R126, R129). -/
def basicRows : List OpRow :=
  [ ⟨0x00, 0xFFFFFFFFFFFFFFFF, fun _ => .nop⟩,
    ⟨0x01, 0x0000000000FFF0FF, fun f => .init (slotOf f.md) (immOf f.immA) (immOf f.immB)⟩,
    ⟨0x02, 0xFFFFF00000FFF0FF, fun f => .ident (slotOf f.md) (immOf f.immA)⟩,
    ⟨0x03, 0xFFFFFFFFFFFF00FF, fun f => .copy (slotOf f.md) (slotOf f.ms1)⟩,
    ⟨0x04, 0xFFFFFFFFFFFFF0FF, fun f => .rand (slotOf f.md)⟩,
    ⟨0x05, 0x0000000000FFF0FF, fun f => .tgtwt (slotOf f.md) (imm40Of f)⟩,
    ⟨0x06, 0x0000000000EFF0FF,
      fun f => .setbit (slotOf f.md) (immOf f.immA) (immOf f.immB) (valueOf f)⟩,
    ⟨0x07, 0x0000000000FF0FFF, fun f => .getbit (slotOf f.ms1) (immOf f.immA) (immOf f.immB)⟩,
    ⟨0x08, 0x0000000000FFF0FF, fun f => .rowxor (slotOf f.md) (immOf f.immA) (immOf f.immB)⟩,
    ⟨0x09, 0x0000000000FFF0FF, fun f => .rowswap (slotOf f.md) (immOf f.immA) (immOf f.immB)⟩ ]

/-- The matrix operations, 0x10 to 0x17 (30_encoding.md R126, R129). -/
def algebraRows : List OpRow :=
  [ ⟨0x10, 0xFFFFF00000FF00FF, fun f => .sample (slotOf f.md) (slotOf f.ms1) (immOf f.immA)⟩,
    ⟨0x11, 0xFFFFFFFFFFFF00FF, fun f => .trans (slotOf f.md) (slotOf f.ms1)⟩,
    ⟨0x12, 0xFFFFFFFFFFF000FF, fun f => .concat (slotOf f.md) (slotOf f.ms1) (slotOf f.ms2)⟩,
    ⟨0x13, 0xFFFFFFFFFFF000FF, fun f => .add (slotOf f.md) (slotOf f.ms1) (slotOf f.ms2)⟩,
    ⟨0x14, 0xFFFFFFFFFFF000FF, fun f => .mul (slotOf f.md) (slotOf f.ms1) (slotOf f.ms2)⟩,
    ⟨0x15, 0xFFFFFFFFFFF00FFF, fun f => .mulcnt (slotOf f.ms1) (slotOf f.ms2)⟩,
    ⟨0x16, 0xFFFFF00000FF00FF, fun f => .rot (slotOf f.md) (slotOf f.ms1) (immOf f.immA)⟩,
    ⟨0x17, 0xFFFFFFFFFFFF00FF, fun f => .inv (slotOf f.md) (slotOf f.ms1)⟩ ]

/-- The queries, 0x20 to 0x22 (30_encoding.md R126, R129). -/
def queryRows : List OpRow :=
  [ ⟨0x20, 0xFFFFFFFFFFFF0FFF, fun f => .hwt (slotOf f.ms1)⟩,
    ⟨0x21, 0xFFFFFFFFFFFF0FFF, fun f => .iszero (slotOf f.ms1)⟩,
    ⟨0x22, 0xFFFFFFFFFFFF0FFF, fun f => .isut (slotOf f.ms1)⟩ ]

/-- The Prange controller 0x30 and the bit-flip decoder 0x31 (30_encoding.md R126, R129). -/
def decoderRows : List OpRow :=
  [ ⟨0x30, 0xFFFFF00000F000FF,
      fun f => .isd (slotOf f.md) (slotOf f.ms1) (slotOf f.ms2) (immOf f.immA)⟩,
    ⟨0x31, 0x00000000000000FF,
      fun f => .bitflip (slotOf f.md) (slotOf f.ms1) (slotOf f.ms2) (slotOf f.ms3)
        (immOf f.immA) (immOf f.immB)⟩ ]

/-- The opcode map (30_encoding.md R126). Every other opcode is reserved (R128). -/
def opcodeTable : List OpRow := basicRows ++ algebraRows ++ queryRows ++ decoderRows

/-- The row of an assigned opcode, none for a reserved one (30_encoding.md R128). -/
def rowOf (op : BitVec 8) : Option OpRow := opcodeTable.find? (fun r => r.op == op)

/-- Why a command word is illegal (30_encoding.md R127). -/
inductive DecodeError where
  /-- the opcode is not assigned: ILLEGAL_CMD with ERRINFO 0 -/
  | unassignedOpcode
  /-- a must-be-zero field is not zero: ILLEGAL_CMD with ERRINFO 1 -/
  | nonzeroUnused
deriving DecidableEq, Repr

/-- The ERRINFO of an illegal command word (30_encoding.md R127, 60_exceptions.md R327). -/
def DecodeError.errinfo : DecodeError → Nat
  | .unassignedOpcode => 0
  | .nonzeroUnused => 1

/-- What the decoder reads from a command word (30_encoding.md R127). -/
inductive Decoded where
  /-- the word spells this command -/
  | command (i : Instr)
  /-- the word is illegal -/
  | illegal (e : DecodeError)
deriving DecidableEq, Repr

/-- The decoder of 30_encoding.md R127: total, every word spells one command or is illegal. -/
def decode (w : Word) : Decoded :=
  match rowOf (Fields.ofWord w).op with
  | none => .illegal .unassignedOpcode
  | some row =>
    if w &&& row.mask = row.op.setWidth 64 then .command (row.build (Fields.ofWord w))
    else .illegal .nonzeroUnused

/-- The opcode of a command (30_encoding.md R126). -/
def Instr.opcode : Instr → BitVec 8
  | .nop => 0x00
  | .init _ _ _ => 0x01
  | .ident _ _ => 0x02
  | .copy _ _ => 0x03
  | .rand _ => 0x04
  | .tgtwt _ _ => 0x05
  | .setbit _ _ _ _ => 0x06
  | .getbit _ _ _ => 0x07
  | .rowxor _ _ _ => 0x08
  | .rowswap _ _ _ => 0x09
  | .sample _ _ _ => 0x10
  | .trans _ _ => 0x11
  | .concat _ _ _ => 0x12
  | .add _ _ _ => 0x13
  | .mul _ _ _ => 0x14
  | .mulcnt _ _ => 0x15
  | .rot _ _ _ => 0x16
  | .inv _ _ => 0x17
  | .hwt _ => 0x20
  | .iszero _ => 0x21
  | .isut _ => 0x22
  | .isd _ _ _ _ => 0x30
  | .bitflip _ _ _ _ _ _ => 0x31

/-- A word's fields with only the opcode set; every field a command does not use is 0
(30_encoding.md R125). -/
def Fields.opOnly (op : BitVec 8) : Fields :=
  { op := op, md := 0, ms1 := 0, ms2 := 0, ms3 := 0, immA := 0, immB := 0 }

/-- The fields that spell a command (30_encoding.md R121, R126). -/
def Instr.fields (i : Instr) : Fields :=
  let f := Fields.opOnly i.opcode
  match i with
  | .nop => f
  | .init md rows cols => { f with md := slotBits md, immA := immBits rows, immB := immBits cols }
  | .ident md n => { f with md := slotBits md, immA := immBits n }
  | .copy md ms1 => { f with md := slotBits md, ms1 := slotBits ms1 }
  | .rand md => { f with md := slotBits md }
  | .tgtwt md weight =>
    { f with md := slotBits md, immA := immBits weight, immB := immBits (weight / 2 ^ 20) }
  | .setbit md row col v =>
    { f with md := slotBits md, ms3 := (BitVec.ofBool v).setWidth 4
             immA := immBits row, immB := immBits col }
  | .getbit ms1 row col => { f with ms1 := slotBits ms1, immA := immBits row, immB := immBits col }
  | .rowxor md srcRow dstRow =>
    { f with md := slotBits md, immA := immBits srcRow, immB := immBits dstRow }
  | .rowswap md rowA rowB =>
    { f with md := slotBits md, immA := immBits rowA, immB := immBits rowB }
  | .sample md ms1 count => { f with md := slotBits md, ms1 := slotBits ms1, immA := immBits count }
  | .trans md ms1 => { f with md := slotBits md, ms1 := slotBits ms1 }
  | .concat md ms1 ms2 => { f with md := slotBits md, ms1 := slotBits ms1, ms2 := slotBits ms2 }
  | .add md ms1 ms2 => { f with md := slotBits md, ms1 := slotBits ms1, ms2 := slotBits ms2 }
  | .mul md ms1 ms2 => { f with md := slotBits md, ms1 := slotBits ms1, ms2 := slotBits ms2 }
  | .mulcnt ms1 ms2 => { f with ms1 := slotBits ms1, ms2 := slotBits ms2 }
  | .rot md ms1 shift => { f with md := slotBits md, ms1 := slotBits ms1, immA := immBits shift }
  | .inv md ms1 => { f with md := slotBits md, ms1 := slotBits ms1 }
  | .hwt ms1 => { f with ms1 := slotBits ms1 }
  | .iszero ms1 => { f with ms1 := slotBits ms1 }
  | .isut ms1 => { f with ms1 := slotBits ms1 }
  | .isd md ms1 ms2 t =>
    { f with md := slotBits md, ms1 := slotBits ms1, ms2 := slotBits ms2, immA := immBits t }
  | .bitflip md ms1 ms2 ms3 threshold t =>
    { f with md := slotBits md, ms1 := slotBits ms1, ms2 := slotBits ms2, ms3 := slotBits ms3
             immA := immBits threshold, immB := immBits t }

/-- The command word of a well-formed command (30_encoding.md R121, R126). -/
def encode (i : Instr) : Word := i.fields.toWord

/-- The assembler's word for a command: none where an immediate is too large for its field, which is
"an assembly error, never truncated" (30_encoding.md R131). -/
def assemble (i : Instr) : Option Word := if i.wellFormed then some (encode i) else none

/-- What the decoder reads from a command of `nbits` bits with the value `w`, bits numbered as
opcode_table.json numbers them: one 64-bit word (30_encoding.md R120), the bits above `nbits` zero. -/
def decodeTableWord (nbits w : Nat) : Option Instr :=
  match decode (BitVec.ofNat 64 (w % 2 ^ nbits)) with
  | .command i => some i
  | .illegal _ => none

end Sys2Proof
end

