-- ==== Sys2Proof/Machine/Matrix.lean ====
section
/-! DEFINITION. Matrices over GF(2) (00_scope.md R11, R12, R14) and every operation on them that a command
uses, each written on the abstract bits as its rule gives it (20_memory.md R93). -/

namespace Sys2Proof.Machine

/-- A matrix value (00_scope.md R14): `data` lists the rows from the top, each a bit vector of length
`cols` (00_scope.md R11) whose most significant bit is column 0. Every value of the type is a matrix, and
two values are equal exactly when rows, columns and bits agree (log 14). -/
structure BitMatrix where
  cols : Nat
  data : List (BitVec cols)
deriving DecidableEq, Repr

/-- `M.rows` (00_scope.md R11). -/
def BitMatrix.rows (M : BitMatrix) : Nat := M.data.length

/-- `M[i]`, row i as a bit vector; zero outside the matrix. -/
def BitMatrix.row (M : BitMatrix) (i : Nat) : BitVec M.cols := M.data.getD i 0

/-- `M[i][j]` (00_scope.md R11); false outside the matrix. -/
def BitMatrix.get (M : BitMatrix) (i j : Nat) : Bool := (M.row i).getMsbD j

/-- The row of `c` columns whose column j holds `g j`. -/
def bitRow : (c : Nat) → (Nat → Bool) → BitVec c
  | 0, _ => 0
  | c + 1, g => (bitRow c g).concat (g c)

/-- The `r × c` matrix with bit `f i j` in row i, column j. -/
def BitMatrix.ofFn (r c : Nat) (f : Nat → Nat → Bool) : BitMatrix :=
  ⟨c, (List.range r).map fun i => bitRow c (f i)⟩

/-- `⊕_{k<n} f k`, 0 over an empty range (00_scope.md R12). -/
def xorSum : Nat → (Nat → Bool) → Bool
  | 0, _ => false
  | n + 1, f => Bool.xor (xorSum n f) (f n)

/-- `Σ_{k<n} f k`, an ordinary sum that never wraps (00_scope.md R12). -/
def natSum : Nat → (Nat → Nat) → Nat
  | 0, _ => 0
  | n + 1, f => natSum n f + f n

/-- `hw(M)`, the number of 1 bits (41_matrix_algebra.md R240). -/
def BitMatrix.hw (M : BitMatrix) : Nat :=
  natSum M.rows fun i => natSum M.cols fun j => (M.get i j).toNat

/-- `zero(r, c)` (00_scope.md R13). -/
def BitMatrix.zero (r c : Nat) : BitMatrix := ⟨c, List.replicate r 0⟩

/-- `identity(n)` (00_scope.md R13, 40_matrix_basic.md R153). -/
def BitMatrix.identity (n : Nat) : BitMatrix := BitMatrix.ofFn n n fun i j => decide (i = j)

/-- `M[i][j] <- b` (40_matrix_basic.md R157). -/
def BitMatrix.setBit (M : BitMatrix) (i j : Nat) (b : Bool) : BitMatrix :=
  ⟨M.cols, M.data.set i (bitRow M.cols fun k => if k = j then b else M.get i k)⟩

/-- `M[b] <- M[b] ⊕ M[a]` (40_matrix_basic.md R159). -/
def BitMatrix.rowXor (M : BitMatrix) (a b : Nat) : BitMatrix :=
  ⟨M.cols, M.data.set b (M.row b ^^^ M.row a)⟩

/-- `(M[a], M[b]) <- (M[b], M[a])` (40_matrix_basic.md R160). -/
def BitMatrix.rowSwap (M : BitMatrix) (a b : Nat) : BitMatrix :=
  ⟨M.cols, (M.data.set a (M.row b)).set b (M.row a)⟩

/-- The columns of M listed by `idx`, in that order: `R[i][a] = M[i][idx[a]]` (41_matrix_algebra.md R200). -/
def BitMatrix.selectCols (M : BitMatrix) (idx : List Nat) : BitMatrix :=
  BitMatrix.ofFn M.rows idx.length fun i a => M.get i (idx.getD a 0)

/-- `R[i][j] = M[j][i]` (41_matrix_algebra.md R205). -/
def BitMatrix.transpose (M : BitMatrix) : BitMatrix :=
  BitMatrix.ofFn M.cols M.rows fun i j => M.get j i

/-- `A ‖ B`, columns of A first (41_matrix_algebra.md R207). -/
def BitMatrix.concat (A B : BitMatrix) : BitMatrix :=
  BitMatrix.ofFn A.rows (A.cols + B.cols) fun i j =>
    if j < A.cols then A.get i j else B.get i (j - A.cols)

/-- Element-wise XOR (41_matrix_algebra.md R210). -/
def BitMatrix.add (A B : BitMatrix) : BitMatrix :=
  BitMatrix.ofFn A.rows A.cols fun i j => Bool.xor (A.get i j) (B.get i j)

/-- The GF(2) product, XOR of ANDs (41_matrix_algebra.md R212). -/
def BitMatrix.mul (A B : BitMatrix) : BitMatrix :=
  BitMatrix.ofFn A.rows B.cols fun i j => xorSum A.cols fun k => A.get i k && B.get k j

/-- One entry of the integer-count product, a plain sum (41_matrix_algebra.md R214). -/
def BitMatrix.countAt (A B : BitMatrix) (i j : Nat) : Nat :=
  natSum A.cols fun k => (A.get i k).toNat * (B.get k j).toNat

/-- All entries of the integer-count product, row-major (41_matrix_algebra.md R214, 10_state.md R35). -/
def BitMatrix.counts (A B : BitMatrix) : List Nat :=
  (List.range (A.rows * B.cols)).map fun e => A.countAt B (e / B.cols) (e % B.cols)

/-- Rotation of every row toward higher column indices by s: `R[i][j] = M[i][(j − s) mod cols]`, and M
itself when it has no columns (41_matrix_algebra.md R216). `j + (cols − s mod cols)` is `j − s` up to a
multiple of cols. -/
def BitMatrix.rot (M : BitMatrix) (s : Nat) : BitMatrix :=
  if M.cols = 0 then M
  else BitMatrix.ofFn M.rows M.cols fun i j => M.get i ((j + (M.cols - s % M.cols)) % M.cols)

/-- Every bit with column below row is 0 (41_matrix_algebra.md R244). -/
def BitMatrix.upperTriangular (M : BitMatrix) : Bool :=
  (List.range M.rows).all fun i => (List.range M.cols).all fun j => !(decide (j < i) && M.get i j)

/-- The 2n×1 vector with u above v, `u‖v` of 43_bitflip.md R290. -/
def BitMatrix.stack (u v : BitMatrix) : BitMatrix :=
  BitMatrix.ofFn (u.rows + v.rows) 1 fun i _ => if i < u.rows then u.get i 0 else v.get (i - u.rows) 0

/-- The n×1 vector holding `e'[a]` at row `idx[a]` and 0 at every other row (42_prange_isd.md R269). -/
def BitMatrix.scatter (n : Nat) (idx : List Nat) (e : BitMatrix) : BitMatrix :=
  BitMatrix.ofFn n 1 fun i _ => (List.range idx.length).any fun a => decide (idx.getD a 0 = i) && e.get a 0

/-- The working copy X and the carried matrix I of INV, row beside row (41_matrix_algebra.md R220). -/
abbrev Aug (m n : Nat) := List (BitVec m × BitVec n)

/-- Row r of the pair (X, I). -/
def augRow {m n : Nat} (R : Aug m n) (r : Nat) : BitVec m × BitVec n := R.getD r (0, 0)

/-- The pivot of column i, `max { r | i ≤ r < n and X[r][i] = 1 }`: the last row seen with a 1
(41_matrix_algebra.md R220). -/
def lastPivot {m n : Nat} (R : Aug m n) (i : Nat) : Option Nat :=
  ((List.range R.length).filter fun r => decide (i ≤ r) && (augRow R r).1.getMsbD i).getLast?

/-- Swap rows i and p of X and of I (41_matrix_algebra.md R220). -/
def swapRows {m n : Nat} (R : Aug m n) (i p : Nat) : Aug m n :=
  (R.set i (augRow R p)).set p (augRow R i)

/-- Add row i of X and of I into every row that `into` selects and that has a 1 in column i
(41_matrix_algebra.md R220). Row i itself is never selected, so the order of the rows does not matter. -/
def addRowInto {m n : Nat} (into : Nat → Bool) (i : Nat) (R : Aug m n) : Aug m n :=
  R.mapIdx fun r x =>
    if into r && x.1.getMsbD i then (x.1 ^^^ (augRow R i).1, x.2 ^^^ (augRow R i).2) else x

/-- Forward elimination over the listed columns, left to right; the error is the first column with no
pivot (41_matrix_algebra.md R220). -/
def eliminate {m n : Nat} : List Nat → Aug m n → Except Nat (Aug m n)
  | [], R => .ok R
  | i :: is, R =>
    match lastPivot R i with
    | none => .error i
    | some p => eliminate is (addRowInto (fun r => decide (i < r)) i (swapRows R i p))

/-- Back substitution over the listed columns, last column first (41_matrix_algebra.md R220). -/
def backSubstitute {m n : Nat} : List Nat → Aug m n → Aug m n
  | [], R => R
  | i :: is, R => backSubstitute is (addRowInto (fun r => decide (r < i)) i R)

/-- The rows of identity(n). -/
def identityRows (n : Nat) : List (BitVec n) := (List.range n).map fun i => bitRow n fun j => decide (i = j)

/-- X = M beside I = identity(n), where INV starts (41_matrix_algebra.md R220). -/
def BitMatrix.augmented (M : BitMatrix) : Aug M.cols M.rows := List.zip M.data (identityRows M.rows)

/-- The inverse of a square matrix, or the ERRINFO of NOT_INVERTIBLE (41_matrix_algebra.md R220). -/
def BitMatrix.invert (M : BitMatrix) : Except Nat BitMatrix :=
  match eliminate (List.range M.rows) M.augmented with
  | .error i => .error i
  | .ok R =>
    if BitMatrix.upperTriangular ⟨M.cols, R.map Prod.fst⟩ then
      .ok ⟨M.rows, (backSubstitute (List.range M.rows).reverse R).map Prod.snd⟩
    else .error M.rows

end Sys2Proof.Machine
end

