-- ==== Sys2Proof/Machine/Packed.lean ====
section
/-! DEFINITION. The packed layout of a row (20_memory.md R84, R86) and slot capacity (10_state.md R32). -/

namespace Sys2Proof.Machine

/-- `nwords(c) = ceil(c / W)` (20_memory.md R84). -/
def nwords (p : Params) (c : Nat) : Nat := (c + p.W - 1) / p.W

/-- The effective width of word q of a row of c columns (20_memory.md R84). -/
def ew (p : Params) (c q : Nat) : Nat :=
  if q < nwords p c - 1 ∨ c % p.W = 0 then p.W else c % p.W

/-- The bit position of column j in its word `j div W` (20_memory.md R84, 40_matrix_basic.md R161). -/
def bitPos (p : Params) (c j : Nat) : Nat := ew p c (j / p.W) - 1 - j % p.W

/-- `word(M, i, q)`, zero-extended to 64 bits: its padding is 0 (20_memory.md R84, R86, R87). -/
def packedWord (p : Params) (M : BitMatrix) (i q : Nat) : Word :=
  zext64 (natSum (ew p M.cols q) fun k =>
    (M.get i (q * p.W + k)).toNat * 2 ^ (ew p M.cols q - 1 - k))

/-- M after word q of row i is overwritten with v: bits of v above the effective width are ignored and
nothing outside that word's columns changes (20_memory.md R88). -/
def storeWord (p : Params) (M : BitMatrix) (i q : Nat) (v : Word) : BitMatrix :=
  ⟨M.cols, M.data.set i (bitRow M.cols fun j =>
    if j / p.W = q then v.getLsbD (bitPos p M.cols j) else M.get i j)⟩

/-- Word q of row i exists in M (20_memory.md R89). -/
def wordInRange (p : Params) (M : BitMatrix) (i q : Nat) : Bool :=
  decide (i < M.rows) && decide (q < nwords p M.cols)

/-- `r × nwords(c) ≤ SLOT_WORDS`, the word count of 10_state.md R32. -/
def fitsWords (p : Params) (r c : Nat) : Bool := decide (r * nwords p c ≤ p.slotWords.toNat)

/-- An r×c matrix fits a slot (10_state.md R32). -/
def fitsSlot (p : Params) (r c : Nat) : Bool :=
  decide (r ≤ p.maxDim.toNat) && decide (c ≤ p.maxDim.toNat) && fitsWords p r c

end Sys2Proof.Machine
end

