-- ==== Sys2Proof/Machine/State.lean ====
section
/-! DEFINITION. The state of the engine, every piece 10_state.md names, and the state after reset
(10_state.md R72, 70_reset_and_hazards.md R363). Nothing in State has a function type. -/

namespace Sys2Proof.Machine

/-- STATUS.ERR (60_exceptions.md R326). Codes 11 to 15 are never raised, so they have no constructor. -/
inductive ErrCode where
  /-- 0: no error -/
  | none
  /-- 1: unassigned opcode, or a must-be-zero field not zero -/
  | illegalCmd
  /-- 2: a slot read as an operand is EMPTY -/
  | emptyOperand
  /-- 3: operand dimensions incompatible -/
  | shapeMismatch
  /-- 4: a row or column index not below the dimension -/
  | outOfRange
  /-- 5: requested target weight exceeds capacity, or is below the weight already there -/
  | invalidWeight
  /-- 6: the result does not fit a slot or the count buffer -/
  | alloc
  /-- 7: the square operand is singular -/
  | notInvertible
  /-- 8: the trial budget ran out -/
  | notFound
  /-- 9: residual non-zero at the stop, or the iteration budget ran out -/
  | decodeFailure
  /-- 10: the host requested an abort -/
  | aborted
deriving DecidableEq, Repr

/-- engine.state (10_state.md R39). -/
inductive EngineState where
  | idle
  | busy
deriving DecidableEq, Repr

/-- A valid count buffer: CNT.rows, CNT.cols and the entries of 32 bits, row-major (10_state.md R35). -/
structure CountBuffer where
  rows : Nat
  cols : Nat
  entries : List (BitVec 32)
deriving DecidableEq, Repr

/-- The loop state of a running ISD (42_prange_isd.md R260, R264): its operands and latched registers
as they were at acceptance, the counters, and `drawn`: none between trials, else the indices the current
trial has accepted so far. -/
structure IsdScratch where
  H : BitMatrix
  syn : BitMatrix
  t : Nat
  budget : Word
  dthr : Word
  trials : Word
  sing : Word
  dcnt : Word
  drawn : Option (List Nat)
deriving DecidableEq, Repr

/-- The loop state of a running BITFLIP (43_bitflip.md R290, R293): thresholds and budget as latched,
the parity matrix H and s0, built once, and u, v, syn and the iteration count. -/
structure BitflipScratch where
  threshold : Nat
  t : Nat
  budget : Word
  H : BitMatrix
  s0 : BitMatrix
  syn : BitMatrix
  u : BitMatrix
  v : BitMatrix
  it : Word
deriving DecidableEq, Repr

/-- Internal scratch (10_state.md R38): what a command with a loop carries from one pass to the next.
The host cannot see it. -/
inductive Scratch where
  /-- no loop has started -/
  | none
  /-- TGTWT: the matrix so far and the target weight (40_matrix_basic.md R156) -/
  | tgtwt (M : BitMatrix) (w : Nat)
  /-- SAMPLE: the source, the count, and the indices accepted so far (41_matrix_algebra.md R200) -/
  | sample (M : BitMatrix) (k : Nat) (idx : List Nat)
  /-- ISD (42_prange_isd.md R260) -/
  | isd (sc : IsdScratch)
  /-- BITFLIP (43_bitflip.md R290) -/
  | bitflip (sc : BitflipScratch)
deriving DecidableEq, Repr

/-- MADDR: slot, word index within the row, row index (10_state.md R61). -/
structure MAddr where
  slot : BitVec 4
  word : BitVec 20
  row : BitVec 20
deriving DecidableEq, Repr

/-- One host access presented on the bus: bus_we, bus_addr, bus_size, bus_wdata (20_memory.md R81). -/
structure HostAccess where
  we : Bool
  addr : BitVec 8
  size : BitVec 4
  wdata : Word
deriving DecidableEq, Repr

/-- The bus outputs of one access: bus_ack, bus_err, bus_rdata (20_memory.md R81). -/
structure BusResponse where
  ack : Bool
  err : Bool
  rdata : Word
deriving DecidableEq, Repr

/-- What meets at one rising edge of clk (20_memory.md R81, 60_exceptions.md R335): the level of rst_n,
the host access presented if any, and whether the engine takes a step (log 2, log 3). -/
structure Edge where
  rstN : Bool
  access : Option HostAccess
  engine : Bool
deriving DecidableEq, Repr

/-- The state of the machine. -/
structure State where
  /-- the implementation parameters (00_scope.md R7); no step changes them -/
  params : Params
  /-- matrix slots m0 to m15, none for EMPTY (10_state.md R30) -/
  slots : Vector (Option BitMatrix) 16
  /-- the count buffer CNT, none for CNT.valid = 0 (10_state.md R35) -/
  cnt : Option CountBuffer
  /-- the column-index buffer XIDX, none for XIDX.valid = 0 (10_state.md R36) -/
  xidx : Option (List (BitVec 20))
  /-- engine.state, which is also STATUS.BUSY (10_state.md R39, R49) -/
  engine : EngineState
  /-- engine.cmd, which is also the register CMD (10_state.md R39, R50; log 13) -/
  cmd : Word
  /-- engine.abort_req (10_state.md R39) -/
  abortReq : Bool
  /-- internal scratch (10_state.md R38) -/
  scratch : Scratch
  /-- prng_state (10_state.md R37) -/
  prng : GenState
  /-- CTRL.IE (10_state.md R48) -/
  ie : Bool
  /-- STATUS.DONE (10_state.md R49) -/
  done : Bool
  /-- STATUS.FLAG (10_state.md R49, R51) -/
  flag : Bool
  /-- STATUS.CMDOVR (10_state.md R49) -/
  cmdovr : Bool
  /-- STATUS.HAZ (10_state.md R49) -/
  haz : Bool
  /-- STATUS.WINERR (10_state.md R49) -/
  winerr : Bool
  /-- STATUS.ERR (10_state.md R49) -/
  err : ErrCode
  /-- STATUS.LASTOP (10_state.md R49) -/
  lastop : BitVec 8
  /-- RES (10_state.md R51) -/
  res : Word
  /-- ERRINFO (10_state.md R52) -/
  errinfo : Word
  /-- SEED (10_state.md R60) -/
  seed : Word
  /-- ISD_MAX (10_state.md R53) -/
  isdMax : Word
  /-- ISD_TRIALS (10_state.md R54) -/
  isdTrials : Word
  /-- ISD_SING (10_state.md R55) -/
  isdSing : Word
  /-- ISD_DTHR (10_state.md R56) -/
  isdDthr : Word
  /-- ISD_DCNT (10_state.md R57) -/
  isdDcnt : Word
  /-- BF_MAX (10_state.md R58) -/
  bfMax : Word
  /-- BF_ITERS (10_state.md R59) -/
  bfIters : Word
  /-- MADDR (10_state.md R61) -/
  maddr : MAddr
  /-- CADDR.INDEX (10_state.md R65) -/
  caddr : BitVec 32
  /-- XADDR.INDEX (10_state.md R68) -/
  xaddr : BitVec 20
  /-- the model's own: the clock edges the environment will present, the next first; when the list is
  empty the environment is quiet (log 2) -/
  inputs : List Edge
  /-- the model's own: the free inputs of 00_scope.md R16 for the coming draws (log 5) -/
  drawInputs : List Nat
  /-- the model's own: the bus outputs of the last access presented, none before the first (log 9) -/
  lastResponse : Option BusResponse
  /-- the model's own: the counter behind the free values of bus_rdata (log 8) -/
  freeCount : Nat
deriving DecidableEq, Repr

/-- Reasons the machine stops with a fault. There is none: the engine has no trap, every command
completes with a status (60_exceptions.md R320), and a refused bus access is a bus response
(20_memory.md R82). DEDUCED, safe (log 26). -/
inductive Fault where
deriving DecidableEq, Repr

/-- Reasons the machine gives no meaning. -/
inductive Refusal where
  /-- An instruction with no meaning yet, by its mnemonic. No arm of exec raises it: every command of the
  opcode table has its meaning. Safe. -/
  | notModelled (mnemonic : String)
deriving DecidableEq, Repr

/-- The reset state of an engine with the given parameters (10_state.md R72, 70_reset_and_hazards.md
R363). The last four fields are the model's own (log 2, 5, 8, 9). -/
def State.afterReset (p : Params) : State :=
  { params := p
    slots := Vector.replicate 16 none
    cnt := none
    xidx := none
    engine := .idle
    cmd := 0
    abortReq := false
    scratch := .none
    prng := Config.seedFn p.seedReset
    ie := false
    done := false
    flag := false
    cmdovr := false
    haz := false
    winerr := false
    err := .none
    lastop := 0
    res := 0
    errinfo := 0
    seed := p.seedReset
    isdMax := 0
    isdTrials := 0
    isdSing := 0
    isdDthr := 0
    isdDcnt := 0
    bfMax := 0
    bfIters := 0
    maddr := { slot := 0, word := 0, row := 0 }
    caddr := 0
    xaddr := 0
    inputs := []
    drawInputs := []
    lastResponse := none
    freeCount := 0 }

/-- The machine right after reset, with the default parameters of 00_scope.md R7. -/
def State.reset : State := State.afterReset Params.default

end Sys2Proof.Machine
end

