-- ==== Sys2Proof/Machine/Ops.lean ====
section
/-! DEFINITION. The named operations over the state: slots and buffers, draws, the life of a command from
acceptance to completion, raising an error (the one shared operation in the place of an exception), and
reset. -/

namespace Sys2Proof.Machine

/-- What an instruction, and a step, answers. -/
abbrev Result := Host.Outcome State Fault Refusal

/-- `slot[d]`, none when EMPTY (10_state.md R31). -/
def State.slot (s : State) (d : SlotId) : Option BitMatrix := s.slots[d.val]

/-- `slot[d] <- M`: replaces the whole content (10_state.md R31). -/
def State.setSlot (d : SlotId) (M : BitMatrix) (s : State) : State :=
  { s with slots := s.slots.set d.val (some M) }

/-- Write the count buffer, which makes it valid (10_state.md R35). -/
def State.setCnt (c : CountBuffer) (s : State) : State := { s with cnt := some c }

/-- Write the column-index buffer with the accepted indices in order, which makes it valid
(10_state.md R36). -/
def State.setXidx (idx : List Nat) (s : State) : State :=
  { s with xidx := some (idx.map (BitVec.ofNat 20)) }

/-- Keep a loop's state for its next pass (10_state.md R38). -/
def State.setScratch (sc : Scratch) (s : State) : State := { s with scratch := sc }

/-- `reg.RES <- r`, zero-extended to 64 bits (10_state.md R51). -/
def State.setRes (r : Nat) (s : State) : State := { s with res := zext64 r }

/-- `reg.RES <- r; STATUS.FLAG <- b` (10_state.md R51). -/
def State.setResFlag (r : Nat) (b : Bool) (s : State) : State := { s with res := zext64 r, flag := b }

/-- `write_counters()` of ISD (42_prange_isd.md R260, R272). -/
def State.setIsdCounters (sc : IsdScratch) (s : State) : State :=
  { s with isdTrials := sc.trials, isdSing := sc.sing, isdDcnt := sc.dcnt }

/-- `reg.BF_ITERS <- it` (43_bitflip.md R305). -/
def State.setBfIters (it : Word) (s : State) : State := { s with bfIters := it }

/-- STATUS.ERR as a number (60_exceptions.md R326). -/
def ErrCode.code : ErrCode → BitVec 4
  | .none => 0
  | .illegalCmd => 1
  | .emptyOperand => 2
  | .shapeMismatch => 3
  | .outOfRange => 4
  | .invalidWeight => 5
  | .alloc => 6
  | .notInvertible => 7
  | .notFound => 8
  | .decodeFailure => 9
  | .aborted => 10

/-- `draw_below(m)` (00_scope.md R16, R17, R20): the environment's next free input where it supplies one,
else the OPEN generator's value, in both cases brought below m; the input is used up, or the generator
advances (log 4, log 5). -/
def draw (m : Nat) (s : State) : Nat × State :=
  match s.drawInputs with
  | x :: xs => (x % m, { s with drawInputs := xs })
  | [] => (Config.drawRaw s.prng m % m, { s with prng := Config.drawNext s.prng m })

/-- n draws below 2, in order, as bits (40_matrix_basic.md R155). -/
def drawBits : Nat → State → List Bool × State
  | 0, s => ([], s)
  | n + 1, s =>
    let d := draw 2 s
    let rest := drawBits n d.2
    (decide (d.1 = 1) :: rest.1, rest.2)

/-- `prng_state <- seed_fn(v)` (00_scope.md R18, 10_state.md R60). -/
def State.reseed (v : Word) (s : State) : State := { s with seed := v, prng := Config.seedFn v }

/-- Acceptance of the command word x, as one step (60_exceptions.md R322). The snapshot the rule names is
the state itself: nothing a command reads changes before it completes (log 10). -/
def State.accept (x : Word) (s : State) : State :=
  { s with
    cmd := x
    engine := .busy
    done := false
    err := .none
    lastop := x.extractLsb' 0 8
    abortReq := false
    scratch := .none }

/-- The completion of a command with an error code and its ERRINFO, as one step: STATUS.ERR, ERRINFO,
BUSY and DONE (60_exceptions.md R324, R325). The scratch leaves no trace (10_state.md R38). -/
def State.finish (code : ErrCode) (info : Nat) (s : State) : State :=
  { s with err := code, errinfo := zext64 info, engine := .idle, done := true, scratch := .none }

/-- `complete` (00_scope.md R13, 60_exceptions.md R324): s holds every result the rule writes. -/
def complete (s : State) : Result := .next (s.finish .none 0)

/-- `raise CODE(info)` (00_scope.md R13, 60_exceptions.md R325): s holds the registers the rule assigns
before the raise and no written slot or buffer. It is the engine's one way of taking an error; there is
no trap to return from (R320, R334). -/
def raise (code : ErrCode) (info : Nat) (s : State) : Result := .next (s.finish code info)

/-- A loop pass ends and the command goes on (10_state.md R38, R39). -/
def goOn (sc : Scratch) (s : State) : Result := .next (s.setScratch sc)

/-- Every piece of the engine's state in its reset state (70_reset_and_hazards.md R360). The parameters
and the environment's side of the model stay. -/
def State.resetEngine (s : State) : State :=
  { State.afterReset s.params with
    inputs := s.inputs
    drawInputs := s.drawInputs
    lastResponse := s.lastResponse
    freeCount := s.freeCount }

/-- Present the outputs of a bus access whose read data the spec states (20_memory.md R81). -/
def State.respond (err : Bool) (rdata : Word) (s : State) : State :=
  { s with lastResponse := some { ack := true, err := err, rdata := rdata } }

/-- Present the outputs of a bus access whose read data the spec does not state: a fresh free value
(log 8). An answered access is an accepted write (20_memory.md R81); one made while rst_n = 0 is not
answered, `bus_ack` and `bus_err` stay 0 (70_reset_and_hazards.md R362). -/
def State.respondFree (ack : Bool) (s : State) : State :=
  { s with
    lastResponse := some { ack := ack, err := false, rdata := Config.freeRdata s.freeCount }
    freeCount := s.freeCount + 1 }

end Sys2Proof.Machine
end

