-- ==== Sys2Proof/Machine/Flags.lean ====
section
/-! DEFINITION. The flags: STATUS as the host reads and clears it, CTRL, the interrupt output, and the
words of the other registers with fields (10_state.md R45 to R49, R61 to R70, R73). -/

namespace Sys2Proof.Machine

/-- STATUS.BUSY, the view of engine.state (10_state.md R39, R49). -/
def State.busy (s : State) : Bool := decide (s.engine = .busy)

/-- `irq = CTRL.IE ∧ STATUS.DONE` (60_exceptions.md R331). -/
def State.irq (s : State) : Bool := s.ie && s.done

/-- STATUS as read (10_state.md R49): `[63:24]` 0, LASTOP, `[15:12]` 0, ERR, `[7:6]` 0, WINERR, HAZ,
CMDOVR, FLAG, DONE, BUSY. -/
def State.statusWord (s : State) : Word :=
  (0 : BitVec 40) ++ s.lastop ++ (0 : BitVec 4) ++ s.err.code ++ (0 : BitVec 2)
    ++ BitVec.ofBool s.winerr ++ BitVec.ofBool s.haz ++ BitVec.ofBool s.cmdovr
    ++ BitVec.ofBool s.flag ++ BitVec.ofBool s.done ++ BitVec.ofBool s.busy

/-- A STATUS write clears exactly the W1C bits DONE, CMDOVR, HAZ, WINERR written as 1 (10_state.md R40,
R49). -/
def State.clearStatus (v : Word) (s : State) : State :=
  { s with
    done := s.done && !v.getLsbD 1
    cmdovr := s.cmdovr && !v.getLsbD 3
    haz := s.haz && !v.getLsbD 4
    winerr := s.winerr && !v.getLsbD 5 }

/-- STATUS.HAZ <- 1. -/
def State.setHaz (s : State) : State := { s with haz := true }

/-- STATUS.WINERR <- 1. -/
def State.setWinerr (s : State) : State := { s with winerr := true }

/-- STATUS.CMDOVR <- 1. -/
def State.setCmdovr (s : State) : State := { s with cmdovr := true }

/-- CTRL as read: IE; ABORT and SRST read 0 (10_state.md R48). -/
def State.ctrlWord (s : State) : Word := (BitVec.ofBool s.ie).setWidth 64

/-- A CTRL write (10_state.md R48): SRST resets and nothing else happens; otherwise IE takes bit 0, and
ABORT while BUSY records an abort request (60_exceptions.md R333). -/
def State.writeCtrl (v : Word) (s : State) : State :=
  if v.getLsbD 2 then s.resetEngine
  else { s with ie := v.getLsbD 0, abortReq := s.abortReq || (v.getLsbD 1 && s.busy) }

/-- ID (10_state.md R45). -/
def idWord (p : Params) : Word :=
  (0 : BitVec 8) ++ BitVec.ofNat 8 Config.nslots ++ BitVec.ofNat 8 p.W ++ (0x01 : BitVec 8)
    ++ (0x4D324647 : BitVec 32)

/-- CAP0 (10_state.md R46). -/
def cap0Word (p : Params) : Word := (0 : BitVec 12) ++ p.maxDim ++ p.slotWords

/-- CAP1 (10_state.md R47). -/
def cap1Word (p : Params) : Word :=
  (0 : BitVec 24) ++ BitVec.ofNat 8 Config.cntBits ++ p.countCap

/-- MADDR as read; the reserved bits read 0 (10_state.md R61). -/
def MAddr.toWord (a : MAddr) : Word :=
  (0 : BitVec 12) ++ a.row ++ (0 : BitVec 4) ++ a.word ++ (0 : BitVec 4) ++ a.slot

/-- MADDR as written; the reserved bits are ignored (10_state.md R61). -/
def MAddr.ofWord (v : Word) : MAddr :=
  { slot := v.extractLsb' 0 4, word := v.extractLsb' 8 20, row := v.extractLsb' 32 20 }

/-- VALID, COLS and ROWS as MDIM and CDIM show them (10_state.md R63, R67). -/
def dimWord (rows cols : Nat) : Word :=
  BitVec.ofBool true ++ (0 : BitVec 23) ++ BitVec.ofNat 20 cols ++ BitVec.ofNat 20 rows

/-- The slot MADDR names. -/
def State.windowSlot (s : State) : Option BitMatrix := s.slot (slotOf s.maddr.slot)

/-- MDIM (10_state.md R63). -/
def State.mdimWord (s : State) : Word :=
  match s.windowSlot with
  | none => 0
  | some M => dimWord M.rows M.cols

/-- CDIM (10_state.md R67). -/
def State.cdimWord (s : State) : Word :=
  match s.cnt with
  | none => 0
  | some c => dimWord c.rows c.cols

/-- XLEN (10_state.md R70). -/
def State.xlenWord (s : State) : Word :=
  match s.xidx with
  | none => 0
  | some l => BitVec.ofBool true ++ (0 : BitVec 43) ++ BitVec.ofNat 20 l.length

end Sys2Proof.Machine
end

