-- ==== Sys2Proof/Machine/Bus.lean ====
section
/-! DEFINITION. The host's side: the register map (10_state.md R41), reads and writes of every register,
the three data windows (20_memory.md R87 to R92), and one bus access (20_memory.md R82, R85). -/

namespace Sys2Proof.Machine

/-- The registers of the engine (10_state.md R41). -/
inductive Reg where
  | id
  | cap0
  | cap1
  | ctrl
  | status
  | cmd
  | res
  | errinfo
  | seed
  | isdMax
  | isdTrials
  | isdSing
  | isdDthr
  | isdDcnt
  | bfMax
  | bfIters
  | maddr
  | mdata
  | mdim
  | caddr
  | cdata
  | cdim
  | xaddr
  | xdata
  | xlen
deriving DecidableEq, Repr

/-- The registers in the order of their offsets, 8 bytes each (10_state.md R41). -/
def regOrder : List Reg :=
  [.id, .cap0, .cap1, .ctrl, .status, .cmd, .res, .errinfo] ++
  [.seed, .isdMax, .isdTrials, .isdSing, .isdDthr, .isdDcnt, .bfMax, .bfIters] ++
  [.maddr, .mdata, .mdim, .caddr, .cdata, .cdim, .xaddr, .xdata, .xlen]

/-- The register at a byte offset that is a multiple of 8; none at the reserved offsets 0xC8 to 0xF8
(10_state.md R41, R71). -/
def regAt (offset : BitVec 8) : Option Reg := regOrder[offset.toNat / 8]?

/-- MDATA read (20_memory.md R87). -/
def readMdata (s : State) : Word × State :=
  match s.engine with
  | .busy => (0, s.setHaz)
  | .idle =>
    match s.windowSlot with
    | none => (0, s.setWinerr)
    | some M =>
      if wordInRange s.params M s.maddr.row.toNat s.maddr.word.toNat then
        (packedWord s.params M s.maddr.row.toNat s.maddr.word.toNat, s)
      else (0, s.setWinerr)

/-- MDATA write (20_memory.md R88). -/
def writeMdata (v : Word) (s : State) : State :=
  match s.engine with
  | .busy => s.setHaz
  | .idle =>
    match s.windowSlot with
    | none => s.setWinerr
    | some M =>
      if wordInRange s.params M s.maddr.row.toNat s.maddr.word.toNat then
        s.setSlot (slotOf s.maddr.slot)
          (storeWord s.params M s.maddr.row.toNat s.maddr.word.toNat v)
      else s.setWinerr

/-- CDATA read (20_memory.md R89, R91). -/
def readCdata (s : State) : Word × State :=
  match s.engine with
  | .busy => (0, s.setHaz)
  | .idle =>
    match s.cnt with
    | none => (0, s.setWinerr)
    | some c =>
      if s.caddr.toNat < c.rows * c.cols then ((c.entries.getD s.caddr.toNat 0).setWidth 64, s)
      else (0, s.setWinerr)

/-- XDATA read (20_memory.md R89, R92). -/
def readXdata (s : State) : Word × State :=
  match s.engine with
  | .busy => (0, s.setHaz)
  | .idle =>
    match s.xidx with
    | none => (0, s.setWinerr)
    | some l =>
      if s.xaddr.toNat < l.length then ((l.getD s.xaddr.toNat 0).setWidth 64, s)
      else (0, s.setWinerr)

/-- A read of a register: its value, and the state after it, which differs at most in the sticky bits
HAZ and WINERR (20_memory.md R85). -/
def readReg (r : Reg) (s : State) : Word × State :=
  match r with
  | .id => (idWord s.params, s)
  | .cap0 => (cap0Word s.params, s)
  | .cap1 => (cap1Word s.params, s)
  | .ctrl => (s.ctrlWord, s)
  | .status => (s.statusWord, s)
  | .cmd => (s.cmd, s)
  | .res => (s.res, s)
  | .errinfo => (s.errinfo, s)
  | .seed => (s.seed, s)
  | .isdMax => (s.isdMax, s)
  | .isdTrials => (s.isdTrials, s)
  | .isdSing => (s.isdSing, s)
  | .isdDthr => (s.isdDthr, s)
  | .isdDcnt => (s.isdDcnt, s)
  | .bfMax => (s.bfMax, s)
  | .bfIters => (s.bfIters, s)
  | .maddr => (s.maddr.toWord, s)
  | .mdata => readMdata s
  | .mdim => (s.mdimWord, s)
  | .caddr => (s.caddr.setWidth 64, s)
  | .cdata => readCdata s
  | .cdim => (s.cdimWord, s)
  | .xaddr => (s.xaddr.setWidth 64, s)
  | .xdata => readXdata s
  | .xlen => (s.xlenWord, s)

/-- CMD write: accepted while IDLE (60_exceptions.md R322), dropped with CMDOVR while BUSY (R323). -/
def writeCmd (v : Word) (s : State) : State :=
  match s.engine with
  | .idle => s.accept v
  | .busy => s.setCmdovr

/-- A write of SEED, ISD_MAX, ISD_DTHR or BF_MAX: dropped with HAZ while BUSY (70_reset_and_hazards.md
R372). -/
def writeConfig (put : State → State) (s : State) : State :=
  match s.engine with
  | .idle => put s
  | .busy => s.setHaz

/-- A write of a register; read-only registers ignore it (10_state.md R40, R41). -/
def writeReg (r : Reg) (v : Word) (s : State) : State :=
  match r with
  | .ctrl => s.writeCtrl v
  | .status => s.clearStatus v
  | .cmd => writeCmd v s
  | .seed => writeConfig (fun s => s.reseed v) s
  | .isdMax => writeConfig (fun s => { s with isdMax := v }) s
  | .isdDthr => writeConfig (fun s => { s with isdDthr := v }) s
  | .bfMax => writeConfig (fun s => { s with bfMax := v }) s
  | .maddr => { s with maddr := MAddr.ofWord v }
  | .mdata => writeMdata v s
  | .caddr => { s with caddr := v.setWidth 32 }
  | .xaddr => { s with xaddr := v.setWidth 20 }
  | .id => s
  | .cap0 => s
  | .cap1 => s
  | .res => s
  | .errinfo => s
  | .isdTrials => s
  | .isdSing => s
  | .isdDcnt => s
  | .bfIters => s
  | .mdim => s
  | .cdata => s
  | .cdim => s
  | .xdata => s
  | .xlen => s

/-- The engine accepts an access: 8 bytes at an offset that is a multiple of 8 (20_memory.md R82). -/
def HostAccess.accepted (a : HostAccess) : Bool := a.size == 8 && a.addr.toNat % 8 == 0

/-- One bus access while rst_n = 1, as one atomic transaction (20_memory.md R81, R82, R85). A reserved
offset reads 0 and ignores writes (10_state.md R71). -/
def busAccess (a : HostAccess) (s : State) : State :=
  if a.accepted then
    match a.we, regAt a.addr with
    | false, some r =>
      let d := readReg r s
      d.2.respond false d.1
    | false, none => s.respond false 0
    | true, some r => (writeReg r a.wdata s).respondFree true
    | true, none => s.respondFree true
  else s.respond true 0

/-- The bus access the platform presents for a host memory access at a full address: its offset within
the 256-byte register space at ENGINE_BASE, none for an address outside it (20_memory.md R80). -/
def accessAt (p : Params) (we : Bool) (addr : Nat) (size : BitVec 4) (wdata : Word) : Option HostAccess :=
  if p.engineBase ≤ addr ∧ addr < p.engineBase + 256 then
    some { we := we, addr := BitVec.ofNat 8 (addr - p.engineBase), size := size, wdata := wdata }
  else none

/-- `MemRead(ENGINE_BASE + offset, 8)` (00_scope.md R13). -/
def memRead (p : Params) (offset : Nat) : Option HostAccess :=
  accessAt p false (p.engineBase + offset) 8 0

/-- `MemWrite(ENGINE_BASE + offset, 8, v)` (00_scope.md R13). -/
def memWrite (p : Params) (offset : Nat) (v : Word) : Option HostAccess :=
  accessAt p true (p.engineBase + offset) 8 v

/-- Byte lane k of an 8-byte access carries register bits `[8k+7 : 8k]` (20_memory.md R83). -/
def byteLane (v : Word) (k : Nat) : BitVec 8 := v.extractLsb' (8 * k) 8

end Sys2Proof.Machine
end

