-- ==== Sys2Proof/Machine/Operands.lean ====
section
/-! DEFINITION. Operand forms: reading a slot operand, and the `check` lines of the command rules
(10_state.md R31, 40_matrix_basic.md R150). Immediates are in the command itself (30_encoding.md R123). -/

namespace Sys2Proof.Machine

/-- The command field that names a slot operand. -/
inductive OperandField where
  | md
  | ms1
  | ms2
  | ms3
deriving DecidableEq, Repr

/-- The ERRINFO of EMPTY_OPERAND: the field that named the EMPTY slot (60_exceptions.md R327). -/
def OperandField.errinfo : OperandField → Nat
  | .md => 0
  | .ms1 => 1
  | .ms2 => 2
  | .ms3 => 3

/-- Read the slot operand d: raises EMPTY_OPERAND naming the field when the slot is EMPTY
(10_state.md R31, 60_exceptions.md R327). -/
@[inline] def withSlot (f : OperandField) (d : SlotId) (s : State) (k : BitMatrix → Result) : Result :=
  match s.slot d with
  | none => raise .emptyOperand f.errinfo s
  | some M => k M

/-- `check p else raise CODE(info)`, then go on with k (40_matrix_basic.md R150). -/
@[inline] def check (p : Prop) [Decidable p] (code : ErrCode) (info : Nat) (s : State) (k : Result) : Result :=
  if p then k else raise code info s

/-- `slot[md] <- M; complete`: how every command that yields one matrix ends (60_exceptions.md R324). -/
def completeWith (md : SlotId) (M : BitMatrix) (s : State) : Result := complete (s.setSlot md M)

end Sys2Proof.Machine
end

