-- ==== Sys2Proof/Machine/Basic.lean ====
section
/-! DEFINITION. The slot and row commands, opcodes 0x00 to 0x09 (40_matrix_basic.md). -/

namespace Sys2Proof.Machine

/-- NOP (40_matrix_basic.md R151). -/
def execNop (s : State) : Result := complete s

/-- INIT (40_matrix_basic.md R152). -/
def execInit (md : SlotId) (rows cols : Nat) (s : State) : Result :=
  check (fitsSlot s.params rows cols) .alloc 0 s <|
  completeWith md (BitMatrix.zero rows cols) s

/-- IDENT (40_matrix_basic.md R153). -/
def execIdent (md : SlotId) (n : Nat) (s : State) : Result :=
  check (fitsSlot s.params n n) .alloc 0 s <|
  completeWith md (BitMatrix.identity n) s

/-- COPY (40_matrix_basic.md R154). -/
def execCopy (md ms1 : SlotId) (s : State) : Result :=
  withSlot .ms1 ms1 s fun A =>
  completeWith md A s

/-- RAND (40_matrix_basic.md R155): one draw below 2 per bit, row-major. -/
def execRand (md : SlotId) (s : State) : Result :=
  withSlot .md md s fun M =>
  let d := drawBits (M.rows * M.cols) s
  completeWith md (BitMatrix.ofFn M.rows M.cols fun i j => d.1.getD (i * M.cols + j) false) d.2

/-- One pass of TGTWT's loop (40_matrix_basic.md R156): end when the weight is reached, else draw one cell
and set it, or reject the draw when the cell already holds a 1. -/
def tgtwtPass (md : SlotId) (M : BitMatrix) (w : Nat) (s : State) : Result :=
  if M.hw < w then
    let d := draw (M.rows * M.cols) s
    let i := d.1 / M.cols
    let j := d.1 % M.cols
    goOn (.tgtwt (if M.get i j then M else M.setBit i j true) w) d.2
  else completeWith md M s

/-- TGTWT (40_matrix_basic.md R156): the checks, then one pass of the loop per engine step (log 3). -/
def execTgtwt (md : SlotId) (weight : Nat) (s : State) : Result :=
  match s.scratch with
  | .tgtwt M w => tgtwtPass md M w s
  | _ =>
    withSlot .md md s fun M =>
    check (weight < M.rows * M.cols) .invalidWeight 0 s <|
    check (M.hw ≤ weight) .invalidWeight 1 s <|
    goOn (.tgtwt M weight) s

/-- SETBIT (40_matrix_basic.md R157). -/
def execSetbit (md : SlotId) (row col : Nat) (v : Bool) (s : State) : Result :=
  withSlot .md md s fun M =>
  check (row < M.rows) .outOfRange 1 s <|
  check (col < M.cols) .outOfRange 2 s <|
  completeWith md (M.setBit row col v) s

/-- GETBIT (40_matrix_basic.md R158). -/
def execGetbit (ms1 : SlotId) (row col : Nat) (s : State) : Result :=
  withSlot .ms1 ms1 s fun M =>
  check (row < M.rows) .outOfRange 1 s <|
  check (col < M.cols) .outOfRange 2 s <|
  complete (s.setResFlag (M.get row col).toNat (M.get row col))

/-- ROWXOR (40_matrix_basic.md R159). -/
def execRowxor (md : SlotId) (srcRow dstRow : Nat) (s : State) : Result :=
  withSlot .md md s fun M =>
  check (srcRow < M.rows) .outOfRange 1 s <|
  check (dstRow < M.rows) .outOfRange 2 s <|
  completeWith md (M.rowXor srcRow dstRow) s

/-- ROWSWAP (40_matrix_basic.md R160). -/
def execRowswap (md : SlotId) (rowA rowB : Nat) (s : State) : Result :=
  withSlot .md md s fun M =>
  check (rowA < M.rows) .outOfRange 1 s <|
  check (rowB < M.rows) .outOfRange 2 s <|
  completeWith md (M.rowSwap rowA rowB) s

end Sys2Proof.Machine
end

