-- ==== Sys2Proof/Machine/Bitflip.lean ====
section
/-! DEFINITION. The bit-flipping syndrome decoder, opcode 0x31 (43_bitflip.md). One engine step does one
pass of the while loop (log 3). -/

namespace Sys2Proof.Machine

/-- `H = [rot(h0ᵗ, 1) | rot(h1ᵗ, 1)]` (43_bitflip.md R293). -/
def parityOf (h0 h1 : BitMatrix) : BitMatrix := (h0.transpose.rot 1).concat (h1.transpose.rot 1)

/-- Setup, before the first iteration (43_bitflip.md R293). -/
def bitflipSetup (h0 h1 c : BitMatrix) (threshold t : Nat) (budget : Word) : BitflipScratch :=
  { threshold := threshold
    t := t
    budget := budget
    H := parityOf h0 h1
    s0 := h0.mul c
    syn := h0.mul c
    u := BitMatrix.zero h0.rows 1
    v := BitMatrix.zero h0.rows 1
    it := 0 }

/-- The vote: `counts = synᵗ · H` as integers, one per column of H (43_bitflip.md R295). -/
def vote (syn H : BitMatrix) : List Nat := syn.transpose.counts H

/-- `flip[j] = 1` iff `counts[j] ≥ T`, as a 2n×1 vector (43_bitflip.md R296). -/
def flipVector (threshold : Nat) (counts : List Nat) : BitMatrix :=
  BitMatrix.ofFn counts.length 1 fun j _ => decide (threshold ≤ counts.getD j 0)

/-- The rows `lo .. lo + n − 1` of a column vector (43_bitflip.md R297). -/
def rowsFrom (lo n : Nat) (x : BitMatrix) : BitMatrix := BitMatrix.ofFn n 1 fun i _ => x.get (lo + i) 0

/-- One iteration: vote, threshold, update of u and v, syndrome update with the same flip
(43_bitflip.md R294 to R298). -/
def bitflipIterate (sc : BitflipScratch) : BitflipScratch :=
  let flip := flipVector sc.threshold (vote sc.syn sc.H)
  { sc with
    u := sc.u.add (rowsFrom 0 sc.u.rows flip)
    v := sc.v.add (rowsFrom sc.u.rows sc.v.rows flip)
    syn := sc.syn.add (sc.H.mul flip)
    it := sc.it + 1 }

/-- The stop condition (43_bitflip.md R299). -/
def bitflipStops (sc : BitflipScratch) : Bool :=
  (decide (sc.u.hw = sc.t) && decide (sc.v.hw = sc.t)) || decide (sc.syn.hw = 0)

/-- The residual `H · (u‖v) ⊕ s0` (43_bitflip.md R302). -/
def residual (sc : BitflipScratch) : BitMatrix := (sc.H.mul (sc.u.stack sc.v)).add sc.s0

/-- BITFLIP ends without a result: BF_ITERS, RES = 0 and FLAG = 0 are written, slot md is not
(43_bitflip.md R300, R301, R303). -/
def bitflipFail (code : ErrCode) (info : Nat) (sc : BitflipScratch) (s : State) : Result :=
  raise code info ((s.setBfIters sc.it).setResFlag 0 false)

/-- One pass of the loop of 43_bitflip.md R290: the exit with its residual check, else the budget, else
the abort request, else one iteration. -/
def bitflipPass (md : SlotId) (sc : BitflipScratch) (s : State) : Result :=
  if bitflipStops sc then
    if (residual sc).hw = 0 then
      completeWith md (sc.u.stack sc.v) ((s.setBfIters sc.it).setResFlag 1 true)
    else bitflipFail .decodeFailure 0 sc s
  else if sc.budget ≠ 0 ∧ sc.it = sc.budget then bitflipFail .decodeFailure 1 sc s
  else if s.abortReq then bitflipFail .aborted 0 sc s
  else goOn (.bitflip (bitflipIterate sc)) s

/-- BITFLIP (43_bitflip.md R290): the checks of R291, by which the 2n×1 result must fit a slot (10_state.md
R32), the latch of R292 and the setup of R293, then the loop. -/
def execBitflip (md ms1 ms2 ms3 : SlotId) (threshold t : Nat) (s : State) : Result :=
  match s.scratch with
  | .bitflip sc => bitflipPass md sc s
  | _ =>
    withSlot .ms1 ms1 s fun h0 =>
    withSlot .ms2 ms2 s fun h1 =>
    withSlot .ms3 ms3 s fun c =>
    check (h0.cols = h0.rows ∧ h1.rows = h0.rows ∧ h1.cols = h0.rows ∧ c.rows = h0.rows ∧ c.cols = 1)
      .shapeMismatch 0 s <|
    check (fitsSlot s.params (2 * h0.rows) 1) .alloc 0 s <|
    goOn (.bitflip (bitflipSetup h0 h1 c threshold t s.bfMax)) s

end Sys2Proof.Machine
end

