-- ==== Sys2Proof/Machine/Algebra.lean ====
section
/-! DEFINITION. The matrix operations, opcodes 0x10 to 0x17 (41_matrix_algebra.md). -/

namespace Sys2Proof.Machine

/-- One rejection draw of a column subset (41_matrix_algebra.md R200): a column not yet taken is
accepted, a taken one is rejected. SAMPLE and each trial of ISD draw so (42_prange_isd.md R265). -/
def drawColumn (cols : Nat) (idx : List Nat) (s : State) : List Nat × State :=
  let d := draw cols s
  (if idx.contains d.1 then idx else idx ++ [d.1], d.2)

/-- One pass of SAMPLE's loop (41_matrix_algebra.md R200). -/
def samplePass (md : SlotId) (M : BitMatrix) (k : Nat) (idx : List Nat) (s : State) : Result :=
  if idx.length < k then
    let d := drawColumn M.cols idx s
    goOn (.sample M k d.1) d.2
  else completeWith md (M.selectCols idx) (s.setXidx idx)

/-- SAMPLE (41_matrix_algebra.md R200): the checks, then one pass of the loop per engine step (log 3). -/
def execSample (md ms1 : SlotId) (count : Nat) (s : State) : Result :=
  match s.scratch with
  | .sample M k idx => samplePass md M k idx s
  | _ =>
    withSlot .ms1 ms1 s fun M =>
    check (count ≤ M.cols) .shapeMismatch 0 s <|
    goOn (.sample M count []) s

/-- TRANS (41_matrix_algebra.md R205): only the word count can fail. -/
def execTrans (md ms1 : SlotId) (s : State) : Result :=
  withSlot .ms1 ms1 s fun M =>
  check (fitsWords s.params M.cols M.rows) .alloc 0 s <|
  completeWith md M.transpose s

/-- CONCAT (41_matrix_algebra.md R207). -/
def execConcat (md ms1 ms2 : SlotId) (s : State) : Result :=
  withSlot .ms1 ms1 s fun A =>
  withSlot .ms2 ms2 s fun B =>
  check (A.rows = B.rows) .shapeMismatch 0 s <|
  check (A.cols + B.cols ≤ s.params.maxDim.toNat ∧ fitsWords s.params A.rows (A.cols + B.cols)) .alloc 0 s <|
  completeWith md (A.concat B) s

/-- ADD (41_matrix_algebra.md R210). -/
def execAdd (md ms1 ms2 : SlotId) (s : State) : Result :=
  withSlot .ms1 ms1 s fun A =>
  withSlot .ms2 ms2 s fun B =>
  check (A.rows = B.rows ∧ A.cols = B.cols) .shapeMismatch 0 s <|
  completeWith md (A.add B) s

/-- MUL (41_matrix_algebra.md R212). -/
def execMul (md ms1 ms2 : SlotId) (s : State) : Result :=
  withSlot .ms1 ms1 s fun A =>
  withSlot .ms2 ms2 s fun B =>
  check (A.cols = B.rows) .shapeMismatch 0 s <|
  check (fitsWords s.params A.rows B.cols) .alloc 0 s <|
  completeWith md (A.mul B) s

/-- MULCNT (41_matrix_algebra.md R214). -/
def execMulcnt (ms1 ms2 : SlotId) (s : State) : Result :=
  withSlot .ms1 ms1 s fun A =>
  withSlot .ms2 ms2 s fun B =>
  check (A.cols = B.rows) .shapeMismatch 0 s <|
  check (A.rows * B.cols ≤ s.params.countCap.toNat) .alloc 1 s <|
  complete (s.setCnt
    { rows := A.rows, cols := B.cols, entries := (A.counts B).map (BitVec.ofNat 32) })

/-- ROT (41_matrix_algebra.md R216). -/
def execRot (md ms1 : SlotId) (shift : Nat) (s : State) : Result :=
  withSlot .ms1 ms1 s fun M =>
  completeWith md (M.rot shift) s

/-- INV (41_matrix_algebra.md R220): RES and FLAG are written also when NOT_INVERTIBLE is raised. -/
def execInv (md ms1 : SlotId) (s : State) : Result :=
  withSlot .ms1 ms1 s fun M =>
  check (M.rows = M.cols) .shapeMismatch 0 s <|
  match M.invert with
  | .error i => raise .notInvertible i (s.setResFlag 0 false)
  | .ok I => completeWith md I (s.setResFlag 1 true)

end Sys2Proof.Machine
end

