-- ==== Sys2Proof/Machine/Isd.lean ====
section
/-! DEFINITION. The Prange ISD search controller, opcode 0x30 (42_prange_isd.md). One engine step does
one of: start a trial (or end the search at its budget or an abort), draw one column, or try the columns
of a full draw (log 3). -/

namespace Sys2Proof.Machine

/-- ISD ends without success: the counters, RES = 0 and FLAG = 0 are written, slot md and XIDX are not
(42_prange_isd.md R270, R271). -/
def isdFail (code : ErrCode) (sc : IsdScratch) (s : State) : Result :=
  raise code 0 ((s.setIsdCounters sc).setResFlag 0 false)

/-- ISD succeeds with the candidate e' at the columns idx (42_prange_isd.md R269). -/
def isdSucceed (md : SlotId) (sc : IsdScratch) (idx : List Nat) (e : BitMatrix) (s : State) : Result :=
  completeWith md (BitMatrix.scatter sc.H.cols idx e)
    (((s.setXidx idx).setIsdCounters sc).setResFlag e.hw true)

/-- The top of the loop (42_prange_isd.md R260): the budget, then the abort request, then a new trial. -/
def isdTop (sc : IsdScratch) (s : State) : Result :=
  if sc.budget ≠ 0 ∧ sc.trials = sc.budget then isdFail .notFound sc s
  else if s.abortReq then isdFail .aborted sc s
  else goOn (.isd { sc with drawn := some [] }) s

/-- A trial whose columns are all drawn (42_prange_isd.md R264 to R269): count it, invert H', form
e' = X · s, count it in dcnt when its weight is below the latched threshold, and stop when its weight
is t. -/
def isdTry (md : SlotId) (sc : IsdScratch) (idx : List Nat) (s : State) : Result :=
  let counted := { sc with trials := sc.trials + 1, drawn := none }
  match (sc.H.selectCols idx).invert with
  | .error _ => goOn (.isd { counted with sing := sc.sing + 1 }) s
  | .ok X =>
    let e := X.mul sc.syn
    let diag := { counted with dcnt := if e.hw < sc.dthr.toNat then sc.dcnt + 1 else sc.dcnt }
    if e.hw = sc.t then isdSucceed md diag idx e s else goOn (.isd diag) s

/-- One engine step of a running ISD. -/
def isdPass (md : SlotId) (sc : IsdScratch) (s : State) : Result :=
  match sc.drawn with
  | none => isdTop sc s
  | some idx =>
    if idx.length < sc.H.rows then
      let d := drawColumn sc.H.cols idx s
      goOn (.isd { sc with drawn := some d.1 }) d.2
    else isdTry md sc idx s

/-- ISD (42_prange_isd.md R260): the checks and the latches of R261 and R262, then the loop. A result of n
rows of one word that does not fit a slot raises ALLOC (10_state.md R32; log 16). -/
def execIsd (md ms1 ms2 : SlotId) (t : Nat) (s : State) : Result :=
  match s.scratch with
  | .isd sc => isdPass md sc s
  | _ =>
    withSlot .ms1 ms1 s fun H =>
    withSlot .ms2 ms2 s fun syn =>
    check (H.rows ≤ H.cols ∧ syn.rows = H.rows ∧ syn.cols = 1) .shapeMismatch 0 s <|
    check (fitsSlot s.params H.cols 1) .alloc 0 s <|
    goOn (.isd
      { H := H, syn := syn, t := t, budget := s.isdMax, dthr := s.isdDthr
        trials := 0, sing := 0, dcnt := 0, drawn := none }) s

end Sys2Proof.Machine
end

