-- ==== Sys2Proof/Machine/Query.lean ====
section
/-! DEFINITION. The pure queries, opcodes 0x20 to 0x22 (41_matrix_algebra.md). -/

namespace Sys2Proof.Machine

/-- HWT (41_matrix_algebra.md R240): RES only. -/
def execHwt (ms1 : SlotId) (s : State) : Result :=
  withSlot .ms1 ms1 s fun M =>
  complete (s.setRes M.hw)

/-- ISZERO (41_matrix_algebra.md R242). -/
def execIszero (ms1 : SlotId) (s : State) : Result :=
  withSlot .ms1 ms1 s fun M =>
  let b := decide (M.hw = 0)
  complete (s.setResFlag b.toNat b)

/-- ISUT (41_matrix_algebra.md R244). -/
def execIsut (ms1 : SlotId) (s : State) : Result :=
  withSlot .ms1 ms1 s fun M =>
  complete (s.setResFlag M.upperTriangular.toNat M.upperTriangular)

end Sys2Proof.Machine
end

