-- ==== Sys2Proof/Machine/Dispatch.lean ====
section
/-! DEFINITION. One engine step of a running command: one arm per command, each a direct call of its
meaning. -/

namespace Sys2Proof.Machine

def exec (i : Instr) (s : State) : Host.Outcome State Fault Refusal :=
  match i with
  | .nop => Sys2Proof.Machine.execNop s
  | .init md rows cols => Sys2Proof.Machine.execInit md rows cols s
  | .ident md n => Sys2Proof.Machine.execIdent md n s
  | .copy md ms1 => Sys2Proof.Machine.execCopy md ms1 s
  | .rand md => Sys2Proof.Machine.execRand md s
  | .tgtwt md weight => Sys2Proof.Machine.execTgtwt md weight s
  | .setbit md row col v => Sys2Proof.Machine.execSetbit md row col v s
  | .getbit ms1 row col => Sys2Proof.Machine.execGetbit ms1 row col s
  | .rowxor md srcRow dstRow => Sys2Proof.Machine.execRowxor md srcRow dstRow s
  | .rowswap md rowA rowB => Sys2Proof.Machine.execRowswap md rowA rowB s
  | .sample md ms1 count => Sys2Proof.Machine.execSample md ms1 count s
  | .trans md ms1 => Sys2Proof.Machine.execTrans md ms1 s
  | .concat md ms1 ms2 => Sys2Proof.Machine.execConcat md ms1 ms2 s
  | .add md ms1 ms2 => Sys2Proof.Machine.execAdd md ms1 ms2 s
  | .mul md ms1 ms2 => Sys2Proof.Machine.execMul md ms1 ms2 s
  | .mulcnt ms1 ms2 => Sys2Proof.Machine.execMulcnt ms1 ms2 s
  | .rot md ms1 shift => Sys2Proof.Machine.execRot md ms1 shift s
  | .inv md ms1 => Sys2Proof.Machine.execInv md ms1 s
  | .hwt ms1 => Sys2Proof.Machine.execHwt ms1 s
  | .iszero ms1 => Sys2Proof.Machine.execIszero ms1 s
  | .isut ms1 => Sys2Proof.Machine.execIsut ms1 s
  | .isd md ms1 ms2 t => Sys2Proof.Machine.execIsd md ms1 ms2 t s
  | .bitflip md ms1 ms2 ms3 threshold t => Sys2Proof.Machine.execBitflip md ms1 ms2 ms3 threshold t s

end Sys2Proof.Machine
end

