-- ==== Sys2Proof/Machine/Engine.lean ====
section
/-! DEFINITION. The engine's own step (60_exceptions.md R321, R322) and one clock edge, with the order of
events that meet at it (60_exceptions.md R335). -/

namespace Sys2Proof.Machine

/-- One step of the engine: nothing while IDLE; while BUSY, decode the accepted word (30_encoding.md R127)
and run one step of its command, or raise ILLEGAL_CMD. -/
def engineStep (s : State) : Result :=
  match s.engine with
  | .idle => .next s
  | .busy =>
    match decode s.cmd with
    | .illegal e => raise .illegalCmd e.errinfo s
    | .command i => exec i s

/-- An edge with rst_n = 0: the reset state, and an access presented is not answered
(70_reset_and_hazards.md R360, R362). -/
def resetEdge (access : Option HostAccess) (s : State) : State :=
  match access with
  | none => s.resetEngine
  | some _ => s.resetEngine.respondFree false

/-- The host access of an edge, if there is one. -/
def presentAccess (access : Option HostAccess) (s : State) : State :=
  match access with
  | none => s
  | some a => busAccess a s

/-- One clock edge (60_exceptions.md R335): reset first, and it discards the rest; then the host access;
then the engine's step, if a command was running before the edge and still is (log 18). -/
def clockEdge (e : Edge) (s : State) : Result :=
  if e.rstN then
    let s' := presentAccess e.access s
    if e.engine && s.busy && s'.busy then engineStep s' else .next s'
  else .next (resetEdge e.access s)

/-- The edge of a quiet environment: rst_n = 1, no access, the engine steps (log 2). -/
def quietEdge : Edge := { rstN := true, access := none, engine := true }

/-- The next clock edge of the machine: the environment's next one, or a quiet one (log 2). -/
def nextEdge (s : State) : Result :=
  match s.inputs with
  | [] => clockEdge quietEdge s
  | e :: rest => clockEdge e { s with inputs := rest }

/-- The state in which the host has just written the command word of `nbits` bits with value `w` to CMD
of an idle engine and nothing else is coming: the very next step decodes and runs it (log 1). -/
def fetchWord (s : State) (nbits w : Nat) : State :=
  { s.accept (BitVec.ofNat 64 (w % 2 ^ nbits)) with inputs := [] }

end Sys2Proof.Machine
end

