-- ==== Sys2Proof/Machine/Step.lean ====
section
/-! DEFINITION. The machine's step: one clock edge (log 2). -/

namespace Sys2Proof.Machine

/-- One step of the machine (60_exceptions.md R321, R335). -/
def step (s : State) : Host.Outcome State Fault Refusal := nextEdge s

/-- The command word placed where the next step takes its instruction from: the accepted command of a
BUSY engine (60_exceptions.md R322; log 1). -/
def State.withFetchWord (s : State) (nbits w : Nat) : State := fetchWord s nbits w

end Sys2Proof.Machine
end

