-- ==== Sys2Proof/Machine/Assembler.lean ====
section
/-! DEFINITION. The assembler's view of a command: its mnemonic, its operands in the order of
30_encoding.md R131, the pseudo-instructions of R132, and the line as written. -/

namespace Sys2Proof.Machine

/-- One written operand: a slot `m0` to `m15`, or an unsigned immediate (30_encoding.md R131). -/
inductive AsmOperand where
  | slot (d : SlotId)
  | imm (n : Nat)
deriving DecidableEq, Repr

/-- The mnemonic (30_encoding.md R126). -/
def mnemonic : Instr → String
  | .nop => "NOP"
  | .init _ _ _ => "INIT"
  | .ident _ _ => "IDENT"
  | .copy _ _ => "COPY"
  | .rand _ => "RAND"
  | .tgtwt _ _ => "TGTWT"
  | .setbit _ _ _ _ => "SETBIT"
  | .getbit _ _ _ => "GETBIT"
  | .rowxor _ _ _ => "ROWXOR"
  | .rowswap _ _ _ => "ROWSWAP"
  | .sample _ _ _ => "SAMPLE"
  | .trans _ _ => "TRANS"
  | .concat _ _ _ => "CONCAT"
  | .add _ _ _ => "ADD"
  | .mul _ _ _ => "MUL"
  | .mulcnt _ _ => "MULCNT"
  | .rot _ _ _ => "ROT"
  | .inv _ _ => "INV"
  | .hwt _ => "HWT"
  | .iszero _ => "ISZERO"
  | .isut _ => "ISUT"
  | .isd _ _ _ _ => "ISD"
  | .bitflip _ _ _ _ _ _ => "BITFLIP"

/-- The operands as written, in the order of 30_encoding.md R131. -/
def asmOperands : Instr → List AsmOperand
  | .nop => []
  | .init md rows cols => [.slot md, .imm rows, .imm cols]
  | .ident md n => [.slot md, .imm n]
  | .copy md ms1 => [.slot md, .slot ms1]
  | .rand md => [.slot md]
  | .tgtwt md weight => [.slot md, .imm weight]
  | .setbit md row col v => [.slot md, .imm row, .imm col, .imm v.toNat]
  | .getbit ms1 row col => [.slot ms1, .imm row, .imm col]
  | .rowxor md srcRow dstRow => [.slot md, .imm srcRow, .imm dstRow]
  | .rowswap md rowA rowB => [.slot md, .imm rowA, .imm rowB]
  | .sample md ms1 count => [.slot md, .slot ms1, .imm count]
  | .trans md ms1 => [.slot md, .slot ms1]
  | .concat md ms1 ms2 => [.slot md, .slot ms1, .slot ms2]
  | .add md ms1 ms2 => [.slot md, .slot ms1, .slot ms2]
  | .mul md ms1 ms2 => [.slot md, .slot ms1, .slot ms2]
  | .mulcnt ms1 ms2 => [.slot ms1, .slot ms2]
  | .rot md ms1 shift => [.slot md, .slot ms1, .imm shift]
  | .inv md ms1 => [.slot md, .slot ms1]
  | .hwt ms1 => [.slot ms1]
  | .iszero ms1 => [.slot ms1]
  | .isut ms1 => [.slot ms1]
  | .isd md ms1 ms2 t => [.slot md, .slot ms1, .slot ms2, .imm t]
  | .bitflip md ms1 ms2 ms3 threshold t =>
    [.slot md, .slot ms1, .slot ms2, .slot ms3, .imm threshold, .imm t]

/-- The command a written line spells, before its immediates are checked: none where the mnemonic is
unknown, the operands do not fit its form, or SETBIT's v is more than 1 (30_encoding.md R131). -/
def readLine (name : String) (ops : List AsmOperand) : Option Instr :=
  match name, ops with
  | "NOP", [] => some .nop
  | "INIT", [.slot md, .imm rows, .imm cols] => some (.init md rows cols)
  | "IDENT", [.slot md, .imm n] => some (.ident md n)
  | "COPY", [.slot md, .slot ms1] => some (.copy md ms1)
  | "RAND", [.slot md] => some (.rand md)
  | "TGTWT", [.slot md, .imm weight] => some (.tgtwt md weight)
  | "SETBIT", [.slot md, .imm row, .imm col, .imm v] =>
    if v ≤ 1 then some (.setbit md row col (decide (v = 1))) else none
  | "GETBIT", [.slot ms1, .imm row, .imm col] => some (.getbit ms1 row col)
  | "ROWXOR", [.slot md, .imm srcRow, .imm dstRow] => some (.rowxor md srcRow dstRow)
  | "ROWSWAP", [.slot md, .imm rowA, .imm rowB] => some (.rowswap md rowA rowB)
  | "SAMPLE", [.slot md, .slot ms1, .imm count] => some (.sample md ms1 count)
  | "TRANS", [.slot md, .slot ms1] => some (.trans md ms1)
  | "CONCAT", [.slot md, .slot ms1, .slot ms2] => some (.concat md ms1 ms2)
  | "ADD", [.slot md, .slot ms1, .slot ms2] => some (.add md ms1 ms2)
  | "MUL", [.slot md, .slot ms1, .slot ms2] => some (.mul md ms1 ms2)
  | "MULCNT", [.slot ms1, .slot ms2] => some (.mulcnt ms1 ms2)
  | "ROT", [.slot md, .slot ms1, .imm shift] => some (.rot md ms1 shift)
  | "INV", [.slot md, .slot ms1] => some (.inv md ms1)
  | "HWT", [.slot ms1] => some (.hwt ms1)
  | "ISZERO", [.slot ms1] => some (.iszero ms1)
  | "ISUT", [.slot ms1] => some (.isut ms1)
  | "ISD", [.slot md, .slot ms1, .slot ms2, .imm t] => some (.isd md ms1 ms2 t)
  | "BITFLIP", [.slot md, .slot ms1, .slot ms2, .slot ms3, .imm threshold, .imm t] =>
    some (.bitflip md ms1 ms2 ms3 threshold t)
  | _, _ => none

/-- The word a written line assembles to; an immediate too large for its field is an assembly error
(30_encoding.md R131). -/
def assembleLine (name : String) (ops : List AsmOperand) : Option Word :=
  (readLine name ops).bind assemble

/-- The expansions of the pseudo-instructions (30_encoding.md R132). -/
def expand : Pseudo → Instr
  | .clrbit md row col => .setbit md row col false
  | .vec md n => .init md n 1
  | .zero md rows cols => .init md rows cols
  | .mov md ms1 => .copy md ms1

/-- The command a pseudo-instruction's line expands to (30_encoding.md R132). -/
def readPseudo (name : String) (ops : List AsmOperand) : Option Instr :=
  match name, ops with
  | "CLRBIT", [.slot md, .imm row, .imm col] => some (expand (.clrbit md row col))
  | "VEC", [.slot md, .imm n] => some (expand (.vec md n))
  | "ZERO", [.slot md, .imm rows, .imm cols] => some (expand (.zero md rows cols))
  | "MOV", [.slot md, .slot ms1] => some (expand (.mov md ms1))
  | _, _ => none

/-- The value of a digit in base 10 or 16 (30_encoding.md R131; log 28 for the case of the letters). -/
def digitValue (base : Nat) (c : Char) : Option Nat :=
  let n := c.toNat
  if 48 ≤ n ∧ n ≤ 57 then some (n - 48)
  else if base = 16 ∧ 65 ≤ n ∧ n ≤ 70 then some (n - 55)
  else if base = 16 ∧ 97 ≤ n ∧ n ≤ 102 then some (n - 87)
  else none

/-- A run of digits read on from the value so far. -/
def readDigits (base : Nat) : List Char → Nat → Option Nat
  | [], v => some v
  | c :: cs, v =>
    match digitValue base c with
    | none => none
    | some d => readDigits base cs (v * base + d)

/-- An immediate as written: decimal, or hexadecimal after `0x` (30_encoding.md R131). -/
def readImm : List Char → Option Nat
  | [] => none
  | '0' :: 'x' :: c :: cs => readDigits 16 (c :: cs) 0
  | c :: cs => readDigits 10 (c :: cs) 0

/-- An operand as written: `m0` to `m15`, or an immediate (30_encoding.md R131). -/
def readOperand : List Char → Option AsmOperand
  | ['m', d] => (digitValue 10 d).map fun n => .slot (Fin.ofNat 16 n)
  | ['m', '1', d] =>
    (digitValue 10 d).bind fun n => if n ≤ 5 then some (.slot (Fin.ofNat 16 (10 + n))) else none
  | cs => (readImm cs).map .imm

/-- A text without the spaces at its ends (log 28). -/
def trimSpaces (cs : List Char) : List Char :=
  ((cs.dropWhile (· == ' ')).reverse.dropWhile (· == ' ')).reverse

/-- A text cut at its commas. -/
def splitCommas : List Char → List (List Char)
  | [] => [[]]
  | c :: cs =>
    if c = ',' then [] :: splitCommas cs
    else
      match splitCommas cs with
      | [] => [[c]]
      | w :: ws => (c :: w) :: ws

/-- Every operand of a list, none when one is not an operand. -/
def readOperands : List (List Char) → Option (List AsmOperand)
  | [] => some []
  | w :: ws =>
    match readOperand (trimSpaces w), readOperands ws with
    | some o, some os => some (o :: os)
    | _, _ => none

/-- The word that a line `MNEMONIC operand, operand, ...` assembles to, a pseudo-instruction by its
expansion (30_encoding.md R131, R132). -/
def assembleText (line : List Char) : Option Word :=
  let cs := trimSpaces line
  let rest := trimSpaces (cs.dropWhile (· != ' '))
  let name := String.ofList (cs.takeWhile (· != ' '))
  match readOperands (if rest.isEmpty then [] else splitCommas rest) with
  | none => none
  | some ops =>
    match readLine name ops with
    | some i => assemble i
    | none => (readPseudo name ops).bind assemble

end Sys2Proof.Machine
end

