-- ==== Sys2Proof/Safety.lean ====
section
/-! DEFINITION. The terms claims are stated in: the state a completion leaves, runs of several steps, the
safe states (an invariant of the machine), and the named fairness assumptions of 70_reset_and_hazards.md
R382, which nothing here assumes. -/

namespace Sys2Proof.Machine

/-- s after `complete` (60_exceptions.md R324), s holding every result: ERR = NONE, ERRINFO = 0, IDLE, DONE,
and no trace of the scratch (10_state.md R38). -/
def State.completed (s : State) : State :=
  { s with err := .none, errinfo := 0, engine := .idle, done := true, scratch := .none }

/-- s after `raise code(info)` (60_exceptions.md R325), s holding the registers assigned before it. -/
def State.raised (s : State) (code : ErrCode) (info : Word) : State :=
  { s with err := code, errinfo := info, engine := .idle, done := true, scratch := .none }

/-- s with matrix M in slot d and nothing else changed (10_state.md R31). -/
def State.withSlotSet (s : State) (d : SlotId) (M : BitMatrix) : State :=
  { s with slots := s.slots.set d.val (some M) }

/-- The command word with the given fields, as the number its bits spell (30_encoding.md R121). -/
def commandWord (op md ms1 ms2 ms3 immA immB : Nat) : Word :=
  BitVec.ofNat 64 (op + md * 2 ^ 8 + ms1 * 2 ^ 12 + ms2 * 2 ^ 16 + ms3 * 2 ^ 20 + immA * 2 ^ 24 + immB * 2 ^ 44)

/-- The distinct values of a list in the order of their first occurrence: what a rejection loop accepts. -/
def firstDistinct (ds : List Nat) : List Nat :=
  ds.foldl (fun acc x => if acc.contains x then acc else acc ++ [x]) []

/-- A write of CTRL with SRST = 1 that the engine accepts (10_state.md R48). -/
def HostAccess.isSoftReset (a : HostAccess) : Bool :=
  a.accepted && a.we && a.addr == 0x18 && a.wdata.getLsbD 2

/-- The 8-byte write of v at a byte offset (20_memory.md R81). -/
def writeAt (offset : BitVec 8) (v : Word) : HostAccess := { we := true, addr := offset, size := 8, wdata := v }

/-- The 8-byte read at a byte offset (20_memory.md R81). -/
def readAt (offset : BitVec 8) : HostAccess := { we := false, addr := offset, size := 8, wdata := 0 }

/-- n steps of the machine. -/
def runSteps (n : Nat) (s : State) : Result := Sys2Proof.core.run n s

/-- M fits a slot (10_state.md R32). -/
def BitMatrix.Fits (p : Params) (M : BitMatrix) : Prop :=
  M.rows ≤ p.maxDim.toNat ∧ M.cols ≤ p.maxDim.toNat ∧ M.rows * nwords p M.cols ≤ p.slotWords.toNat

/-- M has the given shape. -/
def BitMatrix.HasShape (M : BitMatrix) (r c : Nat) : Prop := M.rows = r ∧ M.cols = c

/-- M is square and has an inverse over GF(2). -/
def BitMatrix.Invertible (M : BitMatrix) : Prop :=
  M.rows = M.cols ∧ ∃ N : BitMatrix, N.HasShape M.rows M.rows ∧ M.mul N = BitMatrix.identity M.rows

/-- Distinct column indices below c (41_matrix_algebra.md R201). -/
def ColumnList (c : Nat) (idx : List Nat) : Prop := idx.Nodup ∧ ∀ x ∈ idx, x < c

/-- The loop state of ISD is one that its checks and its draws can produce. -/
def IsdScratch.Safe (p : Params) (sc : IsdScratch) : Prop :=
  sc.H.Fits p ∧ fitsSlot p sc.H.cols 1 = true ∧ sc.H.rows ≤ sc.H.cols ∧ sc.syn.HasShape sc.H.rows 1 ∧
    ∀ idx, sc.drawn = some idx → idx.length ≤ sc.H.rows ∧ ColumnList sc.H.cols idx

/-- The loop state of BITFLIP has its shapes, and `syn = s0 ⊕ H · (u‖v)` (43_bitflip.md R304). -/
def BitflipScratch.Safe (p : Params) (sc : BitflipScratch) : Prop :=
  fitsSlot p (2 * sc.u.rows) 1 = true ∧ sc.u.cols = 1 ∧ sc.v.HasShape sc.u.rows 1 ∧
    sc.s0.HasShape sc.u.rows 1 ∧ sc.syn.HasShape sc.u.rows 1 ∧
    sc.H.HasShape sc.u.rows (2 * sc.u.rows) ∧ sc.syn = sc.s0.add (sc.H.mul (sc.u.stack sc.v))

/-- The scratch of a loop is one that the command's checks and passes can produce. -/
def Scratch.Safe (p : Params) : Scratch → Prop
  | .none => True
  | .tgtwt M w => M.Fits p ∧ w < M.rows * M.cols ∧ M.hw ≤ w
  | .sample M k idx => M.Fits p ∧ k ≤ M.cols ∧ idx.length ≤ k ∧ ColumnList M.cols idx
  | .isd sc => sc.Safe p
  | .bitflip sc => sc.Safe p

/-- A valid count buffer holds one entry per cell of a matrix within the capacities (10_state.md R35). -/
def CountBuffer.Safe (p : Params) (c : CountBuffer) : Prop :=
  c.rows ≤ p.maxDim.toNat ∧ c.cols ≤ p.maxDim.toNat ∧
    c.rows * c.cols ≤ p.countCap.toNat ∧ c.entries.length = c.rows * c.cols

/-- The safe states: the invariant of the machine for legal parameters. -/
structure State.Safe (s : State) : Prop where
  /-- the parameters are legal (00_scope.md R7) -/
  params : s.params.legal = true
  /-- every matrix in a slot fits it (10_state.md R32) -/
  slots : ∀ d M, s.slot d = some M → M.Fits s.params
  /-- CNT is consistent (10_state.md R35) -/
  cnt : ∀ c, s.cnt = some c → c.Safe s.params
  /-- XIDX holds distinct columns below MAX_DIM (10_state.md R36, 41_matrix_algebra.md R201) -/
  xidx : ∀ l, s.xidx = some l →
    l.Nodup ∧ l.length ≤ s.params.xidxCap ∧ ∀ x ∈ l, x.toNat < s.params.maxDim.toNat
  /-- the scratch is consistent -/
  scratch : s.scratch.Safe s.params
  /-- an idle engine keeps no scratch (10_state.md R38) -/
  idle : s.engine = .idle → s.scratch = .none
  /-- while a command runs, DONE and ERR read 0 (60_exceptions.md R322, 70_reset_and_hazards.md R373) -/
  busy : s.engine = .busy → s.done = false ∧ s.err = .none

/-- The generator state after n draws below m. -/
def genAfter (m : Nat) : Nat → GenState → GenState
  | 0, g => g
  | n + 1, g => genAfter m n (Config.drawNext g m)

/-- FAIR_DRAWS (70_reset_and_hazards.md R382): from every generator state, every value below m is drawn
again and again. A named assumption about the OPEN generator; no statement of this package takes it. -/
def FairDraws : Prop :=
  ∀ (m : Nat) (g : GenState) (v : Nat), v < m →
    ∀ n, ∃ k, n ≤ k ∧ Config.drawRaw (genAfter m k g) m % m = v

/-- FAIR_TRIALS (70_reset_and_hazards.md R382): if some set of columns gives a successful trial, an
unbounded ISD that is left alone ends in success. A named assumption; no statement takes it. -/
def FairTrials : Prop :=
  ∀ (s : State) (md ms1 ms2 : SlotId) (t : Nat) (sc : IsdScratch) (idx : List Nat) (X : BitMatrix),
    s.Safe → s.inputs = [] → s.engine = .busy → decode s.cmd = .command (.isd md ms1 ms2 t) →
    s.scratch = .isd sc → sc.budget = 0 → s.abortReq = false →
    ColumnList sc.H.cols idx → idx.length = sc.H.rows → (sc.H.selectCols idx).invert = .ok X →
    (X.mul sc.syn).hw = sc.t →
    ∃ n s', runSteps n s = .next s' ∧ s'.engine = .idle ∧ s'.err = .none

end Sys2Proof.Machine
end

