-- ==== Sys2Proof/Certificates/Slice0/Obligations.lean ====
section
/-! DEFINITION. The statements for the provers. `s.completed` and `s.raised code info` are the states
60_exceptions.md R324 and R325 leave; `s.withSlotSet d M` is s with M in slot d. An equation `exec i s =
.next {...}` states the result and the frame at once: every field not named is unchanged. -/

open Sys2Proof Sys2Proof.Machine

/-! ### Encoding -/

/-- Decoding the word of a well-formed command gives that command, with every operand. -/
def Obligations.DecodeEncodeRoundTrip : Prop :=
  ∀ i : Instr, i.wellFormed = true → decode (encode i) = .command i

/-- A word that decodes spells a well-formed command, and no other word spells it. -/
def Obligations.DecodedWordIsItsEncoding : Prop :=
  ∀ (w : Word) (i : Instr), decode w = .command i → i.wellFormed = true ∧ encode i = w

/-- 30_encoding.md R128: the reserved opcodes, what they raise, and that NOP has one word. -/
def Obligations.ReservedOpcodesAreIllegal : Prop :=
  (∀ w : Word,
    decode w = .illegal .unassignedOpcode ↔
      (let op := w.toNat % 256
       (0x0A ≤ op ∧ op ≤ 0x0F) ∨ (0x18 ≤ op ∧ op ≤ 0x1F) ∨ (0x23 ≤ op ∧ op ≤ 0x2F) ∨ 0x32 ≤ op)) ∧
  (∀ s : State, s.inputs = [] → s.engine = .busy → decode s.cmd = .illegal .unassignedOpcode →
    step s = .next (s.raised .illegalCmd 0)) ∧
  (∀ w : Word, decode w = .command .nop ↔ w = 0)

/-- 30_encoding.md R125 with the masks of R126, and R127's error for a nonzero unused field. -/
def Obligations.UnusedFieldsMustBeZero : Prop :=
  (∀ om ∈ ([(0x00, 0xFFFFFFFFFFFFFFFF), (0x01, 0x0000000000FFF0FF), (0x02, 0xFFFFF00000FFF0FF),
            (0x03, 0xFFFFFFFFFFFF00FF), (0x04, 0xFFFFFFFFFFFFF0FF), (0x05, 0x0000000000FFF0FF),
            (0x06, 0x0000000000EFF0FF), (0x07, 0x0000000000FF0FFF), (0x08, 0x0000000000FFF0FF),
            (0x09, 0x0000000000FFF0FF), (0x10, 0xFFFFF00000FF00FF), (0x11, 0xFFFFFFFFFFFF00FF),
            (0x12, 0xFFFFFFFFFFF000FF), (0x13, 0xFFFFFFFFFFF000FF), (0x14, 0xFFFFFFFFFFF000FF),
            (0x15, 0xFFFFFFFFFFF00FFF), (0x16, 0xFFFFF00000FF00FF), (0x17, 0xFFFFFFFFFFFF00FF),
            (0x20, 0xFFFFFFFFFFFF0FFF), (0x21, 0xFFFFFFFFFFFF0FFF), (0x22, 0xFFFFFFFFFFFF0FFF),
            (0x30, 0xFFFFF00000F000FF), (0x31, 0x00000000000000FF)] : List (Nat × Word)),
    ∀ w : Word, w.toNat % 256 = om.1 →
      ((∃ i : Instr, decode w = .command i ∧ i.opcode.toNat = om.1) ↔ w &&& om.2 = BitVec.ofNat 64 om.1) ∧
      (w &&& om.2 ≠ BitVec.ofNat 64 om.1 → decode w = .illegal .nonzeroUnused)) ∧
  (∀ s : State, s.inputs = [] → s.engine = .busy → decode s.cmd = .illegal .nonzeroUnused →
    step s = .next (s.raised .illegalCmd 1))

/-- 95_test_vectors.md 2.1: example words of every group decode to the commands they stand for. -/
def Obligations.TableWordsDecode : Prop :=
  decode 0x0000300002000001 = .command (.init 0 2 3) ∧
  decode 0x0000300001100206 = .command (.setbit 2 1 3 true) ∧
  decode 0x0123456789000005 = .command (.tgtwt 0 0x0123456789) ∧
  decode 0x0000000000021314 = .command (.mul 3 1 2) ∧
  decode 0x0000000002000110 = .command (.sample 1 0 2) ∧
  decode 0x0000000000005020 = .command (.hwt 5) ∧
  decode 0x0000000002010330 = .command (.isd 3 0 1 2) ∧
  decode 0x0000100003654731 = .command (.bitflip 7 4 5 6 3 1)

/-- A step of a BUSY machine is exec of the decoded command: with no edge waiting; at an edge without an
access; and at an edge with an access, after the access. The list of edges is the model's (log 2, log 18). -/
def Obligations.StepRunsTheDecodedCommand : Prop :=
  (∀ (s : State) (i : Instr), s.inputs = [] → s.engine = .busy → decode s.cmd = .command i →
    step s = exec i s) ∧
  (∀ (s : State) (i : Instr) (rest : List Edge), s.inputs = ⟨true, none, true⟩ :: rest →
    s.engine = .busy → decode s.cmd = .command i → step s = exec i { s with inputs := rest }) ∧
  (∀ (s : State) (i : Instr) (a : HostAccess) (rest : List Edge), s.inputs = ⟨true, some a, true⟩ :: rest →
    s.engine = .busy → (busAccess a { s with inputs := rest }).engine = .busy →
    decode s.cmd = .command i → step s = exec i (busAccess a { s with inputs := rest }))

/-! ### Slot and row commands -/

/-- NOP, 40_matrix_basic.md R151. -/
def Obligations.NopOnlyCompletes : Prop :=
  decode 0 = .command .nop ∧
  (∀ w : Word, w.toNat % 256 = 0 → w ≠ 0 → decode w = .illegal .nonzeroUnused) ∧
  ∀ s : State, exec .nop s = .next s.completed

/-- INIT, 40_matrix_basic.md R152. -/
def Obligations.InitAllocatesAZeroMatrix : Prop :=
  ∀ (md : SlotId) (r c : Nat),
    (r < 2 ^ 20 → c < 2 ^ 20 → decode (commandWord 0x01 md 0 0 0 r c) = .command (.init md r c)) ∧
    ∀ s : State,
      (r ≤ s.params.maxDim.toNat ∧ c ≤ s.params.maxDim.toNat ∧
          r * nwords s.params c ≤ s.params.slotWords.toNat →
        ∃ R : BitMatrix, R.HasShape r c ∧ (∀ i j, R.get i j = false) ∧
          exec (.init md r c) s = .next (s.withSlotSet md R).completed) ∧
      (¬ (r ≤ s.params.maxDim.toNat ∧ c ≤ s.params.maxDim.toNat ∧
          r * nwords s.params c ≤ s.params.slotWords.toNat) →
        exec (.init md r c) s = .next (s.raised .alloc 0))

/-- IDENT, 40_matrix_basic.md R153. -/
def Obligations.IdentMakesTheIdentity : Prop :=
  ∀ (md : SlotId) (n : Nat),
    (n < 2 ^ 20 → decode (commandWord 0x02 md 0 0 0 n 0) = .command (.ident md n)) ∧
    ∀ s : State,
      (n ≤ s.params.maxDim.toNat ∧ n * nwords s.params n ≤ s.params.slotWords.toNat →
        ∃ R : BitMatrix, R.HasShape n n ∧ (∀ i j, i < n → j < n → R.get i j = decide (i = j)) ∧
          exec (.ident md n) s = .next (s.withSlotSet md R).completed) ∧
      (¬ (n ≤ s.params.maxDim.toNat ∧ n * nwords s.params n ≤ s.params.slotWords.toNat) →
        exec (.ident md n) s = .next (s.raised .alloc 0))

/-- COPY, 40_matrix_basic.md R154; the copy is independent: after it, a write of either slot leaves the
other (10_state.md R31). -/
def Obligations.CopyIsADeepCopy : Prop :=
  ∀ (md ms1 : SlotId),
    decode (commandWord 0x03 md ms1 0 0 0 0) = .command (.copy md ms1) ∧
    ∀ s : State,
      (s.slot ms1 = none → exec (.copy md ms1) s = .next (s.raised .emptyOperand 1)) ∧
      ∀ A : BitMatrix, s.slot ms1 = some A →
        exec (.copy md ms1) s = .next (s.withSlotSet md A).completed ∧
        (s.withSlotSet md A).slot md = some A ∧
        (∀ d : SlotId, d ≠ md → (s.withSlotSet md A).slot d = s.slot d) ∧
        (md ≠ ms1 → ∀ B : BitMatrix,
          ((s.withSlotSet md A).completed.withSlotSet md B).slot ms1 = some A ∧
          ((s.withSlotSet md A).completed.withSlotSet ms1 B).slot md = some A)

/-- RAND, 40_matrix_basic.md R155: cell (i, j) holds draw i × cols + j of a chain of draws below 2, `σ k`
being the state after k of them; a chain of draws changes only the generator and the coming draws. -/
def Obligations.RandFillsRowMajor : Prop :=
  ∀ (md : SlotId),
    decode (commandWord 0x04 md 0 0 0 0 0) = .command (.rand md) ∧
    ∀ s : State,
      (s.slot md = none → exec (.rand md) s = .next (s.raised .emptyOperand 0)) ∧
      ∀ (M : BitMatrix) (σ : Nat → State), s.slot md = some M →
        σ 0 = s → (∀ k, σ (k + 1) = (draw 2 (σ k)).2) →
        ∃ (R : BitMatrix) (g : GenState) (l : List Nat), R.HasShape M.rows M.cols ∧
          (∀ i j, i < M.rows → j < M.cols →
            (draw 2 (σ (i * M.cols + j))).1 < 2 ∧
            R.get i j = decide ((draw 2 (σ (i * M.cols + j))).1 = 1)) ∧
          σ (M.rows * M.cols) = { s with prng := g, drawInputs := l } ∧
          exec (.rand md) s = .next ((σ (M.rows * M.cols)).withSlotSet md R).completed

/-- TGTWT: its checks in order, then its loop (40_matrix_basic.md section 1). One pass, that is one draw,
per engine step is the model's choice (log 3). -/
def Obligations.TgtwtAddsOnesAtDrawnZeroCells : Prop :=
  ∀ (md : SlotId) (w : Nat),
    (w < 2 ^ 40 →
      decode (commandWord 0x05 md 0 0 0 (w % 2 ^ 20) (w / 2 ^ 20)) = .command (.tgtwt md w)) ∧
    ∀ s : State,
      (s.scratch = .none → s.slot md = none →
        exec (.tgtwt md w) s = .next (s.raised .emptyOperand 0)) ∧
      (∀ M : BitMatrix, s.scratch = .none → s.slot md = some M →
        (M.rows * M.cols ≤ w → exec (.tgtwt md w) s = .next (s.raised .invalidWeight 0)) ∧
        (w < M.rows * M.cols → w < M.hw → exec (.tgtwt md w) s = .next (s.raised .invalidWeight 1)) ∧
        (w < M.rows * M.cols → M.hw ≤ w →
          exec (.tgtwt md w) s = .next { s with scratch := .tgtwt M w })) ∧
      (∀ M : BitMatrix, s.scratch = .tgtwt M w →
        (w ≤ M.hw → exec (.tgtwt md w) s = .next (s.withSlotSet md M).completed) ∧
        ∀ (x : Nat) (s' : State), draw (M.rows * M.cols) s = (x, s') → M.hw < w →
          (M.get (x / M.cols) (x % M.cols) = true → exec (.tgtwt md w) s = .next s') ∧
          (M.get (x / M.cols) (x % M.cols) = false → x < M.rows * M.cols →
            ∃ M' : BitMatrix, M'.HasShape M.rows M.cols ∧
              (∀ i j, M'.get i j = (M.get i j || (decide (i = x / M.cols) && decide (j = x % M.cols)))) ∧
              exec (.tgtwt md w) s = .next { s' with scratch := .tgtwt M' w }))

/-- TGTWT from its acceptance: with supplied draws that name enough distinct zero cells it ends without
error, the weight is exactly w, and no 1 is cleared. The supplied draws are the model's free inputs
(log 5), that no edge waits is its quiet environment (log 2), and the number of steps rests on its choice
of step (log 3). -/
def Obligations.TgtwtReachesTheExactWeight : Prop :=
  ∀ (s : State) (md : SlotId) (w : Nat) (M : BitMatrix),
    s.inputs = [] → s.engine = .busy → decode s.cmd = .command (.tgtwt md w) → s.scratch = .none →
    s.slot md = some M → w < M.rows * M.cols → M.hw ≤ w →
    (∀ x ∈ s.drawInputs, x < M.rows * M.cols) →
    w ≤ M.hw + (s.drawInputs.toFinset.filter fun x => M.get (x / M.cols) (x % M.cols) = false).card →
    ∃ (n : Nat) (t : State) (R : BitMatrix), n ≤ s.drawInputs.length + 2 ∧ runSteps n s = .next t ∧
      t.engine = .idle ∧ t.err = .none ∧ t.slot md = some R ∧ R.HasShape M.rows M.cols ∧ R.hw = w ∧
      ∀ i j, M.get i j = true → R.get i j = true

/-- SETBIT, 40_matrix_basic.md R157. -/
def Obligations.SetbitWritesOneCell : Prop :=
  ∀ (md : SlotId) (a b : Nat) (v : Bool),
    (a < 2 ^ 20 → b < 2 ^ 20 →
      decode (commandWord 0x06 md 0 0 v.toNat a b) = .command (.setbit md a b v)) ∧
    ∀ s : State,
      (s.slot md = none → exec (.setbit md a b v) s = .next (s.raised .emptyOperand 0)) ∧
      ∀ M : BitMatrix, s.slot md = some M →
        (M.rows ≤ a → exec (.setbit md a b v) s = .next (s.raised .outOfRange 1)) ∧
        (a < M.rows → M.cols ≤ b → exec (.setbit md a b v) s = .next (s.raised .outOfRange 2)) ∧
        (a < M.rows → b < M.cols →
          ∃ R : BitMatrix, R.HasShape M.rows M.cols ∧
            (∀ i j, R.get i j = if i = a ∧ j = b then v else M.get i j) ∧
            exec (.setbit md a b v) s = .next (s.withSlotSet md R).completed)

/-- GETBIT, 40_matrix_basic.md R158. -/
def Obligations.GetbitReadsOneCell : Prop :=
  ∀ (ms1 : SlotId) (a b : Nat),
    (a < 2 ^ 20 → b < 2 ^ 20 → decode (commandWord 0x07 0 ms1 0 0 a b) = .command (.getbit ms1 a b)) ∧
    ∀ s : State,
      (s.slot ms1 = none → exec (.getbit ms1 a b) s = .next (s.raised .emptyOperand 1)) ∧
      ∀ M : BitMatrix, s.slot ms1 = some M →
        (M.rows ≤ a → exec (.getbit ms1 a b) s = .next (s.raised .outOfRange 1)) ∧
        (a < M.rows → M.cols ≤ b → exec (.getbit ms1 a b) s = .next (s.raised .outOfRange 2)) ∧
        (a < M.rows → b < M.cols →
          exec (.getbit ms1 a b) s =
            .next { s with res := if M.get a b then 1 else 0, flag := M.get a b }.completed)

/-- ROWXOR, 40_matrix_basic.md R159: row b receives row a. -/
def Obligations.RowxorAddsOneRowToAnother : Prop :=
  ∀ (md : SlotId) (a b : Nat),
    (a < 2 ^ 20 → b < 2 ^ 20 → decode (commandWord 0x08 md 0 0 0 a b) = .command (.rowxor md a b)) ∧
    ∀ s : State,
      (s.slot md = none → exec (.rowxor md a b) s = .next (s.raised .emptyOperand 0)) ∧
      ∀ M : BitMatrix, s.slot md = some M →
        (M.rows ≤ a → exec (.rowxor md a b) s = .next (s.raised .outOfRange 1)) ∧
        (a < M.rows → M.rows ≤ b → exec (.rowxor md a b) s = .next (s.raised .outOfRange 2)) ∧
        (a < M.rows → b < M.rows →
          ∃ R : BitMatrix, R.HasShape M.rows M.cols ∧
            (∀ i j, R.get i j = if i = b then Bool.xor (M.get b j) (M.get a j) else M.get i j) ∧
            exec (.rowxor md a b) s = .next (s.withSlotSet md R).completed)

/-- ROWSWAP, 40_matrix_basic.md R160. -/
def Obligations.RowswapSwapsTwoRows : Prop :=
  ∀ (md : SlotId) (a b : Nat),
    (a < 2 ^ 20 → b < 2 ^ 20 → decode (commandWord 0x09 md 0 0 0 a b) = .command (.rowswap md a b)) ∧
    ∀ s : State,
      (s.slot md = none → exec (.rowswap md a b) s = .next (s.raised .emptyOperand 0)) ∧
      ∀ M : BitMatrix, s.slot md = some M →
        (M.rows ≤ a → exec (.rowswap md a b) s = .next (s.raised .outOfRange 1)) ∧
        (a < M.rows → M.rows ≤ b → exec (.rowswap md a b) s = .next (s.raised .outOfRange 2)) ∧
        (a < M.rows → b < M.rows →
          ∃ R : BitMatrix, R.HasShape M.rows M.cols ∧
            (∀ i j, R.get i j = if i = a then M.get b j else if i = b then M.get a j else M.get i j) ∧
            exec (.rowswap md a b) s = .next (s.withSlotSet md R).completed)

/-! ### Matrix operations -/

/-- SAMPLE: its checks, then its loop, then its end (41_matrix_algebra.md section 1). One pass, that is
one draw, per engine step is the model's choice (log 3). -/
def Obligations.SampleAcceptsDistinctColumns : Prop :=
  ∀ (md ms1 : SlotId) (k : Nat),
    (k < 2 ^ 20 → decode (commandWord 0x10 md ms1 0 0 k 0) = .command (.sample md ms1 k)) ∧
    ∀ s : State,
      (s.scratch = .none → s.slot ms1 = none →
        exec (.sample md ms1 k) s = .next (s.raised .emptyOperand 1)) ∧
      (∀ M : BitMatrix, s.scratch = .none → s.slot ms1 = some M →
        (M.cols < k → exec (.sample md ms1 k) s = .next (s.raised .shapeMismatch 0)) ∧
        (k ≤ M.cols → exec (.sample md ms1 k) s = .next { s with scratch := .sample M k [] })) ∧
      ∀ (M : BitMatrix) (idx : List Nat), s.scratch = .sample M k idx →
        (∀ (x : Nat) (s' : State), draw M.cols s = (x, s') → idx.length < k →
          (x ∈ idx → exec (.sample md ms1 k) s = .next s') ∧
          (x ∉ idx → exec (.sample md ms1 k) s = .next { s' with scratch := .sample M k (idx ++ [x]) })) ∧
        (k ≤ idx.length →
          ∃ R : BitMatrix, R.HasShape M.rows idx.length ∧
            (∀ i a, i < M.rows → (h : a < idx.length) → R.get i a = M.get i idx[a]) ∧
            exec (.sample md ms1 k) s =
              .next { s.withSlotSet md R with xidx := some (idx.map (BitVec.ofNat 20)) }.completed)

/-- SAMPLE from its acceptance: with supplied draws that name enough distinct columns it ends without
error and XIDX and md hold the first k distinct ones in the order they were accepted. The supplied
draws are the model's free inputs (log 5), that no edge waits is its quiet environment (log 2), and the
number of steps rests on its choice of step (log 3). -/
def Obligations.SampleRunsOnSuppliedDraws : Prop :=
  ∀ (s : State) (md ms1 : SlotId) (k : Nat) (M : BitMatrix),
    s.inputs = [] → s.engine = .busy → decode s.cmd = .command (.sample md ms1 k) → s.scratch = .none →
    s.slot ms1 = some M → k ≤ M.cols → (∀ x ∈ s.drawInputs, x < M.cols) →
    k ≤ (firstDistinct s.drawInputs).length →
    ∃ (n : Nat) (t : State) (R : BitMatrix), n ≤ s.drawInputs.length + 2 ∧ runSteps n s = .next t ∧
      t.engine = .idle ∧ t.err = .none ∧
      t.xidx = some (((firstDistinct s.drawInputs).take k).map (BitVec.ofNat 20)) ∧
      t.slot md = some R ∧ R.HasShape M.rows k ∧
      ∀ i a, i < M.rows → a < k → R.get i a = M.get i ((firstDistinct s.drawInputs).getD a 0)

/-- TRANS, 41_matrix_algebra.md R205. -/
def Obligations.TransTransposes : Prop :=
  ∀ (md ms1 : SlotId),
    decode (commandWord 0x11 md ms1 0 0 0 0) = .command (.trans md ms1) ∧
    ∀ s : State,
      (s.slot ms1 = none → exec (.trans md ms1) s = .next (s.raised .emptyOperand 1)) ∧
      ∀ M : BitMatrix, s.slot ms1 = some M →
        (s.params.slotWords.toNat < M.cols * nwords s.params M.rows →
          exec (.trans md ms1) s = .next (s.raised .alloc 0)) ∧
        (M.cols * nwords s.params M.rows ≤ s.params.slotWords.toNat →
          ∃ R : BitMatrix, R.HasShape M.cols M.rows ∧
            (∀ i j, i < M.cols → j < M.rows → R.get i j = M.get j i) ∧
            exec (.trans md ms1) s = .next (s.withSlotSet md R).completed)

/-- TRANS twice gives the matrix back: the spec's own inference in 41_matrix_algebra.md section 2,
"TRANS twice is the identity on matrices". -/
def Obligations.TransTwiceIsTheIdentity : Prop :=
  ∀ (a b c : SlotId) (s t u : State) (M : BitMatrix),
    s.slot a = some M → exec (.trans b a) s = .next t → t.err = .none →
    exec (.trans c b) t = .next u → u.err = .none → u.slot c = some M

/-- CONCAT, 41_matrix_algebra.md R207. -/
def Obligations.ConcatJoinsColumns : Prop :=
  ∀ (md ms1 ms2 : SlotId),
    decode (commandWord 0x12 md ms1 ms2 0 0 0) = .command (.concat md ms1 ms2) ∧
    ∀ s : State,
      (s.slot ms1 = none → exec (.concat md ms1 ms2) s = .next (s.raised .emptyOperand 1)) ∧
      (∀ A, s.slot ms1 = some A → s.slot ms2 = none →
        exec (.concat md ms1 ms2) s = .next (s.raised .emptyOperand 2)) ∧
      ∀ A B : BitMatrix, s.slot ms1 = some A → s.slot ms2 = some B →
        (A.rows ≠ B.rows → exec (.concat md ms1 ms2) s = .next (s.raised .shapeMismatch 0)) ∧
        (A.rows = B.rows →
          ¬ (A.cols + B.cols ≤ s.params.maxDim.toNat ∧
              A.rows * nwords s.params (A.cols + B.cols) ≤ s.params.slotWords.toNat) →
          exec (.concat md ms1 ms2) s = .next (s.raised .alloc 0)) ∧
        (A.rows = B.rows → A.cols + B.cols ≤ s.params.maxDim.toNat →
          A.rows * nwords s.params (A.cols + B.cols) ≤ s.params.slotWords.toNat →
          ∃ R : BitMatrix, R.HasShape A.rows (A.cols + B.cols) ∧
            (∀ i j, i < A.rows → j < A.cols → R.get i j = A.get i j) ∧
            (∀ i j, i < A.rows → j < B.cols → R.get i (A.cols + j) = B.get i j) ∧
            exec (.concat md ms1 ms2) s = .next (s.withSlotSet md R).completed)

/-- ADD, 41_matrix_algebra.md R210. -/
def Obligations.AddXorsElementwise : Prop :=
  ∀ (md ms1 ms2 : SlotId),
    decode (commandWord 0x13 md ms1 ms2 0 0 0) = .command (.add md ms1 ms2) ∧
    ∀ s : State,
      (s.slot ms1 = none → exec (.add md ms1 ms2) s = .next (s.raised .emptyOperand 1)) ∧
      (∀ A, s.slot ms1 = some A → s.slot ms2 = none →
        exec (.add md ms1 ms2) s = .next (s.raised .emptyOperand 2)) ∧
      ∀ A B : BitMatrix, s.slot ms1 = some A → s.slot ms2 = some B →
        (¬ (A.rows = B.rows ∧ A.cols = B.cols) →
          exec (.add md ms1 ms2) s = .next (s.raised .shapeMismatch 0)) ∧
        (A.rows = B.rows → A.cols = B.cols →
          ∃ R : BitMatrix, R.HasShape A.rows A.cols ∧
            (∀ i j, R.get i j = Bool.xor (A.get i j) (B.get i j)) ∧
            exec (.add md ms1 ms2) s = .next (s.withSlotSet md R).completed)

/-- MUL, 41_matrix_algebra.md R212: entry (i, j) is 1 exactly when an odd number of k have
A[i][k] = B[k][j] = 1, which is the XOR of the ANDs. -/
def Obligations.MulIsTheGf2Product : Prop :=
  ∀ (md ms1 ms2 : SlotId),
    decode (commandWord 0x14 md ms1 ms2 0 0 0) = .command (.mul md ms1 ms2) ∧
    ∀ s : State,
      (s.slot ms1 = none → exec (.mul md ms1 ms2) s = .next (s.raised .emptyOperand 1)) ∧
      (∀ A, s.slot ms1 = some A → s.slot ms2 = none →
        exec (.mul md ms1 ms2) s = .next (s.raised .emptyOperand 2)) ∧
      ∀ A B : BitMatrix, s.slot ms1 = some A → s.slot ms2 = some B →
        (A.cols ≠ B.rows → exec (.mul md ms1 ms2) s = .next (s.raised .shapeMismatch 0)) ∧
        (A.cols = B.rows → s.params.slotWords.toNat < A.rows * nwords s.params B.cols →
          exec (.mul md ms1 ms2) s = .next (s.raised .alloc 0)) ∧
        (A.cols = B.rows → A.rows * nwords s.params B.cols ≤ s.params.slotWords.toNat →
          ∃ R : BitMatrix, R.HasShape A.rows B.cols ∧
            (∀ i j, i < A.rows → j < B.cols →
              R.get i j = decide
                (((Finset.range A.cols).filter fun k => A.get i k = true ∧ B.get k j = true).card % 2 = 1)) ∧
            exec (.mul md ms1 ms2) s = .next (s.withSlotSet md R).completed)

/-- MULCNT, 41_matrix_algebra.md R214: entry (i, j) counts the k with A[i][k] = B[k][j] = 1, stored
row-major in 32 bits. -/
def Obligations.MulcntCountsIntoCnt : Prop :=
  ∀ (ms1 ms2 : SlotId),
    decode (commandWord 0x15 0 ms1 ms2 0 0 0) = .command (.mulcnt ms1 ms2) ∧
    ∀ s : State,
      (s.slot ms1 = none → exec (.mulcnt ms1 ms2) s = .next (s.raised .emptyOperand 1)) ∧
      (∀ A, s.slot ms1 = some A → s.slot ms2 = none →
        exec (.mulcnt ms1 ms2) s = .next (s.raised .emptyOperand 2)) ∧
      ∀ A B : BitMatrix, s.slot ms1 = some A → s.slot ms2 = some B →
        (A.cols ≠ B.rows → exec (.mulcnt ms1 ms2) s = .next (s.raised .shapeMismatch 0)) ∧
        (A.cols = B.rows → s.params.countCap.toNat < A.rows * B.cols →
          exec (.mulcnt ms1 ms2) s = .next (s.raised .alloc 1)) ∧
        (A.cols = B.rows → A.rows * B.cols ≤ s.params.countCap.toNat →
          ∃ l : List (BitVec 32), l.length = A.rows * B.cols ∧
            (∀ i j, i < A.rows → j < B.cols → A.cols < 2 ^ 32 →
              (l.getD (i * B.cols + j) 0).toNat =
                ((Finset.range A.cols).filter fun k => A.get i k = true ∧ B.get k j = true).card) ∧
            exec (.mulcnt ms1 ms2) s =
              .next { s with cnt := some { rows := A.rows, cols := B.cols, entries := l } }.completed)

/-- ROT, 41_matrix_algebra.md R216: the bit in column j moves to column (j + s) mod cols. -/
def Obligations.RotMovesColumnsUp : Prop :=
  ∀ (md ms1 : SlotId) (k : Nat),
    (k < 2 ^ 20 → decode (commandWord 0x16 md ms1 0 0 k 0) = .command (.rot md ms1 k)) ∧
    ∀ s : State,
      (s.slot ms1 = none → exec (.rot md ms1 k) s = .next (s.raised .emptyOperand 1)) ∧
      ∀ M : BitMatrix, s.slot ms1 = some M →
        ∃ R : BitMatrix, R.HasShape M.rows M.cols ∧
          (∀ i j, i < M.rows → j < M.cols → R.get i ((j + k) % M.cols) = M.get i j) ∧
          (M.cols = 0 → R = M) ∧
          exec (.rot md ms1 k) s = .next (s.withSlotSet md R).completed

/-- INV on the operands its checks refuse, and on an identity matrix: the checks of
41_matrix_algebra.md section 5, and the spec's own inference there, "INV of `identity(n)` gives
`identity(n)`". -/
def Obligations.InvChecksAndIdentity : Prop :=
  ∀ (md ms1 : SlotId),
    decode (commandWord 0x17 md ms1 0 0 0 0) = .command (.inv md ms1) ∧
    ∀ s : State,
      (s.slot ms1 = none → exec (.inv md ms1) s = .next (s.raised .emptyOperand 1)) ∧
      (∀ M : BitMatrix, s.slot ms1 = some M → M.rows ≠ M.cols →
        exec (.inv md ms1) s = .next (s.raised .shapeMismatch 0)) ∧
      (∀ n : Nat, s.slot ms1 = some (BitMatrix.identity n) →
        exec (.inv md ms1) s =
          .next ({ s with res := 1, flag := true }.withSlotSet md (BitMatrix.identity n)).completed)

/-- INV on every invertible matrix: the result is the two-sided inverse. The round trip is the spec's
sentence in 41_matrix_algebra.md section 5, "When INV completes, `MUL` of M by the result gives
`identity(n)`", from general knowledge there. -/
def Obligations.InvInvertsTheInvertible : Prop :=
  ∀ (md ms1 : SlotId) (s : State) (M : BitMatrix),
    s.slot ms1 = some M → M.Invertible →
    ∃ X : BitMatrix, X.HasShape M.rows M.rows ∧ M.mul X = BitMatrix.identity M.rows ∧
      X.mul M = BitMatrix.identity M.rows ∧
      exec (.inv md ms1) s = .next ({ s with res := 1, flag := true }.withSlotSet md X).completed

/-- INV on every singular square matrix: RES = FLAG = 0, NOT_INVERTIBLE, md not written, and ERRINFO is
the first column that depends on the columns before it. A zero row or two equal rows make a matrix
singular (the spec's sentence in 41_matrix_algebra.md section 5, from general knowledge there). -/
def Obligations.InvNamesTheFirstDependentColumn : Prop :=
  (∀ (md ms1 : SlotId) (s : State) (M : BitMatrix),
    s.slot ms1 = some M → M.rows = M.cols → ¬ M.Invertible →
    ∃ i : Nat, i < M.rows ∧
      exec (.inv md ms1) s =
        .next ({ s with res := 0, flag := false }.raised .notInvertible (BitVec.ofNat 64 i)) ∧
      (∃ y : BitMatrix, y.HasShape M.rows 1 ∧ y.get i 0 = true ∧ (∀ j, i < j → y.get j 0 = false) ∧
        M.mul y = BitMatrix.zero M.rows 1) ∧
      ∀ i', i' < i → ¬ ∃ y : BitMatrix, y.HasShape M.rows 1 ∧ y.get i' 0 = true ∧
        (∀ j, i' < j → y.get j 0 = false) ∧ M.mul y = BitMatrix.zero M.rows 1) ∧
  (∀ (M : BitMatrix) (a b : Nat), a < M.rows → b < M.rows →
    ((∀ j, M.get a j = false) ∨ (a ≠ b ∧ ∀ j, M.get a j = M.get b j)) → ¬ M.Invertible)

/-! ### Queries -/

/-- HWT, 41_matrix_algebra.md R240: RES is the number of 1 bits; FLAG does not change. -/
def Obligations.HwtCountsTheOnes : Prop :=
  ∀ (ms1 : SlotId),
    decode (commandWord 0x20 0 ms1 0 0 0 0) = .command (.hwt ms1) ∧
    ∀ s : State,
      (s.slot ms1 = none → exec (.hwt ms1) s = .next (s.raised .emptyOperand 1)) ∧
      ∀ M : BitMatrix, s.slot ms1 = some M →
        let ones := (Finset.range M.rows ×ˢ Finset.range M.cols).filter fun p => M.get p.1 p.2 = true
        exec (.hwt ms1) s = .next { s with res := BitVec.ofNat 64 ones.card }.completed

/-- ISZERO, 41_matrix_algebra.md R242. -/
def Obligations.IszeroTestsEveryBit : Prop :=
  ∀ (ms1 : SlotId),
    decode (commandWord 0x21 0 ms1 0 0 0 0) = .command (.iszero ms1) ∧
    ∀ s : State,
      (s.slot ms1 = none → exec (.iszero ms1) s = .next (s.raised .emptyOperand 1)) ∧
      ∀ M : BitMatrix, s.slot ms1 = some M →
        ((∀ i j, i < M.rows → j < M.cols → M.get i j = false) →
          exec (.iszero ms1) s = .next { s with res := 1, flag := true }.completed) ∧
        (∀ i j, i < M.rows → j < M.cols → M.get i j = true →
          exec (.iszero ms1) s = .next { s with res := 0, flag := false }.completed)

/-- ISUT, 41_matrix_algebra.md R244. -/
def Obligations.IsutTestsBelowTheDiagonal : Prop :=
  ∀ (ms1 : SlotId),
    decode (commandWord 0x22 0 ms1 0 0 0 0) = .command (.isut ms1) ∧
    ∀ s : State,
      (s.slot ms1 = none → exec (.isut ms1) s = .next (s.raised .emptyOperand 1)) ∧
      ∀ M : BitMatrix, s.slot ms1 = some M →
        ((∀ i j, i < M.rows → j < M.cols → j < i → M.get i j = false) →
          exec (.isut ms1) s = .next { s with res := 1, flag := true }.completed) ∧
        (∀ i j, i < M.rows → j < M.cols → j < i → M.get i j = true →
          exec (.isut ms1) s = .next { s with res := 0, flag := false }.completed)

/-! ### The Prange search -/

/-- ISD's checks and what it latches (42_prange_isd.md section 1), and ALLOC for a result that does not fit
a slot (10_state.md section 1; log 16). The loop state it keeps is the model's (log 3, log 11). -/
def Obligations.IsdChecksAndLatches : Prop :=
  ∀ (md ms1 ms2 : SlotId) (t : Nat),
    (t < 2 ^ 20 → decode (commandWord 0x30 md ms1 ms2 0 t 0) = .command (.isd md ms1 ms2 t)) ∧
    ∀ s : State, s.scratch = .none →
      (s.slot ms1 = none → exec (.isd md ms1 ms2 t) s = .next (s.raised .emptyOperand 1)) ∧
      (∀ H, s.slot ms1 = some H → s.slot ms2 = none →
        exec (.isd md ms1 ms2 t) s = .next (s.raised .emptyOperand 2)) ∧
      ∀ H syn : BitMatrix, s.slot ms1 = some H → s.slot ms2 = some syn →
        (¬ (H.rows ≤ H.cols ∧ syn.HasShape H.rows 1) →
          exec (.isd md ms1 ms2 t) s = .next (s.raised .shapeMismatch 0)) ∧
        (H.rows ≤ H.cols → syn.HasShape H.rows 1 →
          ¬ (H.cols ≤ s.params.maxDim.toNat ∧ 1 ≤ s.params.maxDim.toNat ∧
              H.cols * nwords s.params 1 ≤ s.params.slotWords.toNat) →
          exec (.isd md ms1 ms2 t) s = .next (s.raised .alloc 0)) ∧
        (H.rows ≤ H.cols → syn.HasShape H.rows 1 →
          H.cols ≤ s.params.maxDim.toNat → 1 ≤ s.params.maxDim.toNat →
          H.cols * nwords s.params 1 ≤ s.params.slotWords.toNat →
          exec (.isd md ms1 ms2 t) s = .next { s with scratch := .isd {
            H := H, syn := syn, t := t, budget := s.isdMax, dthr := s.isdDthr,
            trials := 0, sing := 0, dcnt := 0, drawn := none } })

/-- The top of ISD's loop (42_prange_isd.md section 3): the budget, then the abort request, else a new
trial; in the middle of a trial no abort ends it. What one engine step does is the model's choice (log 3). -/
def Obligations.IsdStopsAtBudgetOrAbort : Prop :=
  ∀ (md ms1 ms2 : SlotId) (t : Nat) (s : State) (sc : IsdScratch),
    s.scratch = .isd sc → sc.drawn = none →
    (sc.budget ≠ 0 → sc.trials = sc.budget →
      exec (.isd md ms1 ms2 t) s =
        .next ({ s with isdTrials := sc.budget, isdSing := sc.sing, isdDcnt := sc.dcnt,
                        res := 0, flag := false }.raised .notFound 0)) ∧
    ((sc.budget = 0 ∨ sc.trials ≠ sc.budget) → s.abortReq = true →
      exec (.isd md ms1 ms2 t) s =
        .next ({ s with isdTrials := sc.trials, isdSing := sc.sing, isdDcnt := sc.dcnt,
                        res := 0, flag := false }.raised .aborted 0)) ∧
    ((sc.budget = 0 ∨ sc.trials ≠ sc.budget) → s.abortReq = false →
      exec (.isd md ms1 ms2 t) s = .next { s with scratch := .isd { sc with drawn := some [] } }) ∧
    ∀ (s' t' : State) (sc' : IsdScratch) (idx : List Nat), s'.scratch = .isd sc' → sc'.drawn = some idx →
      exec (.isd md ms1 ms2 t) s' = .next t' → t'.err = .aborted → s'.err = .aborted

/-- A trial of ISD: its draws, a singular sample, and the diagnostic, which is counted whether or not the
trial succeeds (42_prange_isd.md section 2). What one engine step does is the model's choice (log 3). -/
def Obligations.IsdTrialCountsAndContinues : Prop :=
  ∀ (md ms1 ms2 : SlotId) (t : Nat) (s : State) (sc : IsdScratch) (idx : List Nat),
    s.scratch = .isd sc → sc.drawn = some idx →
    (∀ (x : Nat) (s' : State), draw sc.H.cols s = (x, s') → idx.length < sc.H.rows →
      exec (.isd md ms1 ms2 t) s =
        .next { s' with scratch := .isd { sc with drawn := some (if x ∈ idx then idx else idx ++ [x]) } }) ∧
    (∀ e : Nat, sc.H.rows ≤ idx.length → (sc.H.selectCols idx).invert = .error e →
      exec (.isd md ms1 ms2 t) s =
        .next { s with scratch := .isd {
          sc with trials := sc.trials + 1, sing := sc.sing + 1, drawn := none } }) ∧
    (∀ X : BitMatrix, sc.H.rows ≤ idx.length → (sc.H.selectCols idx).invert = .ok X →
      (X.mul sc.syn).hw ≠ sc.t →
      ((X.mul sc.syn).hw < sc.dthr.toNat →
        exec (.isd md ms1 ms2 t) s =
          .next { s with scratch := .isd {
            sc with trials := sc.trials + 1, dcnt := sc.dcnt + 1, drawn := none } }) ∧
      (sc.dthr.toNat ≤ (X.mul sc.syn).hw →
        exec (.isd md ms1 ms2 t) s =
          .next { s with scratch := .isd { sc with trials := sc.trials + 1, drawn := none } })) ∧
    (∀ X : BitMatrix, sc.H.rows ≤ idx.length → (sc.H.selectCols idx).invert = .ok X →
      (X.mul sc.syn).hw = sc.t →
      ∃ t' : State, exec (.isd md ms1 ms2 t) s = .next t' ∧ t'.engine = .idle ∧ t'.err = .none ∧
        t'.isdDcnt = if (X.mul sc.syn).hw < sc.dthr.toNat then sc.dcnt + 1 else sc.dcnt)

/-- ISD succeeds (42_prange_isd.md section 3): the n×1 vector with e'[a] at row idx[a] and 0 elsewhere,
XIDX, RES = t, FLAG = 1, the counters. The loop state is the model's (log 3, log 11). -/
def Obligations.IsdSuccessScattersTheCandidate : Prop :=
  ∀ (md ms1 ms2 : SlotId) (t : Nat) (s : State) (sc : IsdScratch) (idx : List Nat) (X : BitMatrix),
    s.scratch = .isd sc → sc.drawn = some idx → idx.length = sc.H.rows → ColumnList sc.H.cols idx →
    (sc.H.selectCols idx).invert = .ok X → (X.mul sc.syn).hw = sc.t → sc.syn.HasShape sc.H.rows 1 →
    ∃ e : BitMatrix, e.HasShape sc.H.cols 1 ∧
      (∀ a, (h : a < idx.length) → e.get idx[a] 0 = (X.mul sc.syn).get a 0) ∧
      (∀ i, i ∉ idx → e.get i 0 = false) ∧
      exec (.isd md ms1 ms2 t) s =
        .next ({ s with
            xidx := some (idx.map (BitVec.ofNat 20))
            isdTrials := sc.trials + 1
            isdSing := sc.sing
            isdDcnt := if sc.t < sc.dthr.toNat then sc.dcnt + 1 else sc.dcnt
            res := BitVec.ofNat 64 sc.t
            flag := true }.withSlotSet md e).completed

/-- Whatever ISD returns solves the instance: H · e = s and hw(e) = t, in every safe state. The spec's own
inference in 42_prange_isd.md section 4, "On success `H · e = s`". -/
def Obligations.IsdResultSolvesTheInstance : Prop :=
  ∀ (md ms1 ms2 : SlotId) (t : Nat) (s s' : State) (sc : IsdScratch),
    s.Safe → s.scratch = .isd sc → exec (.isd md ms1 ms2 t) s = .next s' →
    s'.engine = .idle → s'.err = .none →
    ∃ e : BitMatrix, s'.slot md = some e ∧ e.HasShape sc.H.cols 1 ∧ sc.H.mul e = sc.syn ∧ e.hw = sc.t

/-! ### The bit-flipping decoder -/

/-- BITFLIP's checks, the 2n×1 result fitting a slot among them, and its setup:
H = [rot(h0ᵗ, 1) | rot(h1ᵗ, 1)], s0 = h0 · c (43_bitflip.md section 1). The loop state it keeps is the model's (log 3, log 11). -/
def Obligations.BitflipChecksAndSetup : Prop :=
  ∀ (md ms1 ms2 ms3 : SlotId) (T t : Nat),
    (T < 2 ^ 20 → t < 2 ^ 20 →
      decode (commandWord 0x31 md ms1 ms2 ms3 T t) = .command (.bitflip md ms1 ms2 ms3 T t)) ∧
    ∀ s : State, s.scratch = .none →
      (s.slot ms1 = none → exec (.bitflip md ms1 ms2 ms3 T t) s = .next (s.raised .emptyOperand 1)) ∧
      (∀ h0, s.slot ms1 = some h0 → s.slot ms2 = none →
        exec (.bitflip md ms1 ms2 ms3 T t) s = .next (s.raised .emptyOperand 2)) ∧
      (∀ h0 h1, s.slot ms1 = some h0 → s.slot ms2 = some h1 → s.slot ms3 = none →
        exec (.bitflip md ms1 ms2 ms3 T t) s = .next (s.raised .emptyOperand 3)) ∧
      ∀ h0 h1 c : BitMatrix, s.slot ms1 = some h0 → s.slot ms2 = some h1 → s.slot ms3 = some c →
        (¬ (h0.HasShape h0.rows h0.rows ∧ h1.HasShape h0.rows h0.rows ∧ c.HasShape h0.rows 1) →
          exec (.bitflip md ms1 ms2 ms3 T t) s = .next (s.raised .shapeMismatch 0)) ∧
        (h0.HasShape h0.rows h0.rows → h1.HasShape h0.rows h0.rows → c.HasShape h0.rows 1 →
          (¬ (2 * h0.rows ≤ s.params.maxDim.toNat ∧ 1 ≤ s.params.maxDim.toNat ∧
                2 * h0.rows * nwords s.params 1 ≤ s.params.slotWords.toNat) →
            exec (.bitflip md ms1 ms2 ms3 T t) s = .next (s.raised .alloc 0)) ∧
          (2 * h0.rows ≤ s.params.maxDim.toNat → 1 ≤ s.params.maxDim.toNat →
            2 * h0.rows * nwords s.params 1 ≤ s.params.slotWords.toNat →
            ∃ sc : BitflipScratch,
              exec (.bitflip md ms1 ms2 ms3 T t) s = .next { s with scratch := .bitflip sc } ∧
              sc.threshold = T ∧ sc.t = t ∧ sc.budget = s.bfMax ∧ sc.it = 0 ∧
              sc.s0 = h0.mul c ∧ sc.syn = h0.mul c ∧
              sc.u = BitMatrix.zero h0.rows 1 ∧ sc.v = BitMatrix.zero h0.rows 1 ∧
              sc.H.HasShape h0.rows (2 * h0.rows) ∧
              ∀ i j, i < h0.rows → j < h0.rows →
                sc.H.get i ((j + 1) % h0.rows) = h0.get j i ∧
                sc.H.get i (h0.rows + (j + 1) % h0.rows) = h1.get j i))

/-- One iteration of BITFLIP (43_bitflip.md section 2): vote, threshold, update, syndrome update. One
iteration per engine step is the model's choice (log 3). -/
def Obligations.BitflipIterationFlipsByVote : Prop :=
  ∀ (md ms1 ms2 ms3 : SlotId) (T t : Nat) (s : State) (sc : BitflipScratch) (n : Nat),
    s.scratch = .bitflip sc → sc.u.HasShape n 1 → sc.v.HasShape n 1 → sc.syn.HasShape n 1 →
    sc.H.HasShape n (2 * n) →
    ¬ ((sc.u.hw = sc.t ∧ sc.v.hw = sc.t) ∨ sc.syn.hw = 0) →
    (sc.budget = 0 ∨ sc.it ≠ sc.budget) → s.abortReq = false →
    let count := fun j =>
      ((Finset.range n).filter fun i => sc.syn.get i 0 = true ∧ sc.H.get i j = true).card
    ∃ u v syn : BitMatrix, u.HasShape n 1 ∧ v.HasShape n 1 ∧ syn.HasShape n 1 ∧
      (∀ j, j < n → u.get j 0 = Bool.xor (sc.u.get j 0) (decide (sc.threshold ≤ count j))) ∧
      (∀ j, j < n → v.get j 0 = Bool.xor (sc.v.get j 0) (decide (sc.threshold ≤ count (n + j)))) ∧
      (∀ i, i < n → syn.get i 0 = Bool.xor (sc.syn.get i 0) (decide
        (((Finset.range (2 * n)).filter fun j =>
          sc.H.get i j = true ∧ sc.threshold ≤ count j).card % 2 = 1))) ∧
      exec (.bitflip md ms1 ms2 ms3 T t) s =
        .next { s with scratch := .bitflip { sc with u := u, v := v, syn := syn, it := sc.it + 1 } }

/-- How BITFLIP ends (43_bitflip.md section 3): zero residual, failure, budget, abort. That the end is an
engine step of its own is the model's choice (log 3). -/
def Obligations.BitflipEnds : Prop :=
  ∀ (md ms1 ms2 ms3 : SlotId) (T t : Nat) (s : State) (sc : BitflipScratch) (n : Nat),
    s.scratch = .bitflip sc → sc.u.HasShape n 1 → sc.v.HasShape n 1 → sc.s0.HasShape n 1 →
    sc.H.HasShape n (2 * n) →
    let stop := (sc.u.hw = sc.t ∧ sc.v.hw = sc.t) ∨ sc.syn.hw = 0
    ∃ uv : BitMatrix, uv.HasShape (2 * n) 1 ∧ (∀ j, j < n → uv.get j 0 = sc.u.get j 0) ∧
      (∀ j, j < n → uv.get (n + j) 0 = sc.v.get j 0) ∧
      (stop → (∀ i, i < n → (sc.H.mul uv).get i 0 = sc.s0.get i 0) →
        exec (.bitflip md ms1 ms2 ms3 T t) s =
          .next ({ s with bfIters := sc.it, res := 1, flag := true }.withSlotSet md uv).completed) ∧
      (stop → ∀ i, i < n → (sc.H.mul uv).get i 0 ≠ sc.s0.get i 0 →
        exec (.bitflip md ms1 ms2 ms3 T t) s =
          .next ({ s with bfIters := sc.it, res := 0, flag := false }.raised .decodeFailure 0)) ∧
      (¬ stop → sc.budget ≠ 0 → sc.it = sc.budget →
        exec (.bitflip md ms1 ms2 ms3 T t) s =
          .next ({ s with bfIters := sc.it, res := 0, flag := false }.raised .decodeFailure 1)) ∧
      (¬ stop → (sc.budget = 0 ∨ sc.it ≠ sc.budget) → s.abortReq = true →
        exec (.bitflip md ms1 ms2 ms3 T t) s =
          .next ({ s with bfIters := sc.it, res := 0, flag := false }.raised .aborted 0))

/-- In every safe state BITFLIP ends in success exactly when it stops with a zero syndrome. The spec's own
inference in 43_bitflip.md section 4, "BITFLIP succeeds exactly when it stops with syn = 0". -/
def Obligations.BitflipSucceedsExactlyAtZeroSyndrome : Prop :=
  ∀ (md ms1 ms2 ms3 : SlotId) (T t : Nat) (s s' : State) (sc : BitflipScratch),
    s.Safe → s.scratch = .bitflip sc → exec (.bitflip md ms1 ms2 ms3 T t) s = .next s' →
    ((s'.engine = .idle ∧ s'.err = .none) ↔ sc.syn.hw = 0)

/-- With a budget B > 0 a BITFLIP left alone ends: the spec's own inference in 70_reset_and_hazards.md
section 4, "With ISD_MAX > 0 and BF_MAX > 0, ISD and BITFLIP always end"; that no edge waits
is the model's quiet environment (log 2), and the number of steps rests on its choice of step (log 3). -/
def Obligations.BitflipEndsWithinItsBudget : Prop :=
  ∀ (s : State) (md ms1 ms2 ms3 : SlotId) (T t : Nat),
    s.inputs = [] → s.engine = .busy → decode s.cmd = .command (.bitflip md ms1 ms2 ms3 T t) →
    s.scratch = .none → s.bfMax ≠ 0 →
    ∃ (n : Nat) (s' : State), n ≤ s.bfMax.toNat + 2 ∧ runSteps n s = .next s' ∧ s'.engine = .idle

/-! ### Every command -/

/-- 60_exceptions.md R329: a command that raises leaves every slot, CNT and XIDX as at its acceptance. A
pass that goes on changes only the scratch and the draws; a raise writes only the registers of
R325, and nothing but the status for codes 1 to 6 (R328). -/
def Obligations.ErrorsArePrecise : Prop :=
  ∀ (i : Instr) (s t : State), s.engine = .busy → s.err = .none → exec i s = .next t →
    (t.engine = .busy →
      ∃ (sc : Scratch) (g : GenState) (l : List Nat), t = { s with scratch := sc, prng := g, drawInputs := l }) ∧
    (t.err ≠ .none →
      t.slots = s.slots ∧ t.cnt = s.cnt ∧ t.xidx = s.xidx ∧
      (∃ (r a b c d : Word) (f : Bool),
        t = { s with res := r, flag := f, isdTrials := a, isdSing := b, isdDcnt := c, bfIters := d }.raised
              t.err t.errinfo) ∧
      (t.err.code.toNat ≤ 6 → t = s.raised t.err t.errinfo))

/-- No command changes a register of the host's, whatever it does: CMD, LASTOP, IE, the sticky bits, SEED,
the budgets, the window addresses, nor the parameters. -/
def Obligations.CommandsKeepTheHostsRegisters : Prop :=
  ∀ (i : Instr) (s t : State), exec i s = .next t →
    t.params = s.params ∧ t.cmd = s.cmd ∧ t.lastop = s.lastop ∧ t.abortReq = s.abortReq ∧ t.ie = s.ie ∧
    t.cmdovr = s.cmdovr ∧ t.haz = s.haz ∧ t.winerr = s.winerr ∧ t.seed = s.seed ∧ t.isdMax = s.isdMax ∧
    t.isdDthr = s.isdDthr ∧ t.bfMax = s.bfMax ∧ t.maddr = s.maddr ∧ t.caddr = s.caddr ∧ t.xaddr = s.xaddr ∧
    t.inputs = s.inputs ∧ t.lastResponse = s.lastResponse ∧ t.freeCount = s.freeCount

/-- 60_exceptions.md section 1: no error stops the machine; every step answers a next state. -/
def Obligations.TheMachineNeverStops : Prop :=
  ∀ s : State, ∃ t : State, step s = .next t

/-- 60_exceptions.md R321: the engine leaves IDLE only by accepting a CMD write, leaves BUSY only by
completing (DONE = 1) or by a reset, and runs one command while BUSY. -/
def Obligations.BusyEndsOnlyByCompletionOrReset : Prop :=
  ∀ s t : State, step s = .next t →
    (s.engine = .idle → t.engine = .busy →
      ∃ (a : HostAccess) (b : Bool) (rest : List Edge), s.inputs = ⟨true, some a, b⟩ :: rest ∧
        a.accepted = true ∧ a.we = true ∧ a.addr = 0x28 ∧ t.cmd = a.wdata) ∧
    (s.engine = .busy → t.engine = .idle →
      t.done = true ∨
      ∃ (e : Edge) (rest : List Edge), s.inputs = e :: rest ∧
        (e.rstN = false ∨ ∃ a, e.access = some a ∧ a.isSoftReset = true)) ∧
    (s.engine = .busy → t.engine = .busy → t.cmd = s.cmd)

/-- 20_memory.md section 3 (the model's ground for log 10): while a command runs, no host access but a reset or an abort request changes
a slot, a buffer, a result, or anything the command reads; and the abort request is set by a CTRL write
with ABORT and by no other access. -/
def Obligations.OnlyAResetOrAnAbortDisturbsARunningCommand : Prop :=
  ∀ (a : HostAccess) (s : State), s.engine = .busy → a.isSoftReset = false →
    let t := busAccess a s
    t.slots = s.slots ∧ t.cnt = s.cnt ∧ t.xidx = s.xidx ∧ t.engine = .busy ∧ t.cmd = s.cmd ∧
    t.scratch = s.scratch ∧ t.prng = s.prng ∧ t.drawInputs = s.drawInputs ∧ t.flag = s.flag ∧
    t.err = s.err ∧ t.lastop = s.lastop ∧ t.res = s.res ∧ t.errinfo = s.errinfo ∧ t.seed = s.seed ∧
    t.isdMax = s.isdMax ∧ t.isdTrials = s.isdTrials ∧ t.isdSing = s.isdSing ∧ t.isdDthr = s.isdDthr ∧
    t.isdDcnt = s.isdDcnt ∧ t.bfMax = s.bfMax ∧ t.bfIters = s.bfIters ∧ t.params = s.params ∧
    (t.abortReq = true ↔
      s.abortReq = true ∨
        (a.size = 8 ∧ a.we = true ∧ a.addr = 0x18 ∧ a.wdata.getLsbD 1 = true))

/-! ### The host's side -/

/-- A CMD write: acceptance while IDLE (60_exceptions.md section 1), and 60_exceptions.md R323 while BUSY;
and a CMD read, which returns the last accepted word (10_state.md section 3). -/
def Obligations.CmdWriteIsAcceptedOrDropped : Prop :=
  ∀ (x : Word) (s : State),
    (s.engine = .idle →
      busAccess (writeAt 0x28 x) s =
        { s with cmd := x, engine := .busy, done := false, err := .none, lastop := BitVec.ofNat 8 x.toNat,
                 abortReq := false, scratch := .none }.respondFree true) ∧
    (s.engine = .busy → busAccess (writeAt 0x28 x) s = { s with cmdovr := true }.respondFree true) ∧
    busAccess (readAt 0x28) s = s.respond false s.cmd

/-- 20_memory.md R82: any access that is not 8 bytes at a multiple of 8 is refused and has no effect;
10_state.md R71, the reserved offsets; and every read-only register ignores writes (10_state.md section 3). -/
def Obligations.OddAccessesAreRefused : Prop :=
  (∀ (a : HostAccess) (s : State), ¬ (a.size = 8 ∧ a.addr.toNat % 8 = 0) →
    busAccess a s = { s with lastResponse := some { ack := true, err := true, rdata := 0 } }) ∧
  (∀ (o : BitVec 8) (v : Word) (s : State), 0xC8 ≤ o.toNat → o.toNat % 8 = 0 →
    busAccess (readAt o) s = s.respond false 0 ∧ busAccess (writeAt o v) s = s.respondFree true) ∧
  ∀ o ∈ ([0x00, 0x08, 0x10, 0x30, 0x38, 0x50, 0x58, 0x68, 0x78, 0x90, 0xA0, 0xA8, 0xB8, 0xC0] :
      List (BitVec 8)),
    ∀ (v : Word) (s : State), busAccess (writeAt o v) s = s.respondFree true

/-- 20_memory.md R87 (MDATA read): HAZ while BUSY, WINERR out of range, else the packed word, column by
column. -/
def Obligations.MdataReadsThePackedWord : Prop :=
  ∀ s : State,
    (s.engine = .busy → busAccess (readAt 0x88) s = { s with haz := true }.respond false 0) ∧
    (s.engine = .idle → s.slot (slotOf s.maddr.slot) = none →
      busAccess (readAt 0x88) s = { s with winerr := true }.respond false 0) ∧
    ∀ M : BitMatrix, s.engine = .idle → s.slot (slotOf s.maddr.slot) = some M →
      let i := s.maddr.row.toNat
      let q := s.maddr.word.toNat
      let e := ew s.params M.cols q
      (¬ (i < M.rows ∧ q < nwords s.params M.cols) →
        busAccess (readAt 0x88) s = { s with winerr := true }.respond false 0) ∧
      (i < M.rows → q < nwords s.params M.cols →
        ∃ v : Word, busAccess (readAt 0x88) s = s.respond false v ∧
          (∀ k, k < e → v.getLsbD (e - 1 - k) = M.get i (q * s.params.W + k)) ∧
          ∀ b, e ≤ b → v.getLsbD b = false)

/-- 20_memory.md R88 (MDATA write): only the columns of the addressed word change. -/
def Obligations.MdataWritesOneWord : Prop :=
  ∀ (v : Word) (s : State),
    (s.engine = .busy → busAccess (writeAt 0x88 v) s = { s with haz := true }.respondFree true) ∧
    (s.engine = .idle → s.slot (slotOf s.maddr.slot) = none →
      busAccess (writeAt 0x88 v) s = { s with winerr := true }.respondFree true) ∧
    ∀ M : BitMatrix, s.engine = .idle → s.slot (slotOf s.maddr.slot) = some M →
      let i := s.maddr.row.toNat
      let q := s.maddr.word.toNat
      let e := ew s.params M.cols q
      (¬ (i < M.rows ∧ q < nwords s.params M.cols) →
        busAccess (writeAt 0x88 v) s = { s with winerr := true }.respondFree true) ∧
      (i < M.rows → q < nwords s.params M.cols →
        ∃ R : BitMatrix, R.HasShape M.rows M.cols ∧
          (∀ k, k < e → R.get i (q * s.params.W + k) = v.getLsbD (e - 1 - k)) ∧
          (∀ a b, ¬ (a = i ∧ ∃ k, k < e ∧ b = q * s.params.W + k) → R.get a b = M.get a b) ∧
          busAccess (writeAt 0x88 v) s = (s.withSlotSet (slotOf s.maddr.slot) R).respondFree true)

/-- 20_memory.md R91 (CDATA) and R92 (XDATA), and what describes the slot and the buffers: 10_state.md R63
(MDIM), R67 (CDIM), R70 (XLEN); and the results a host reads back: RES, ERRINFO and the counters
(10_state.md section 3). -/
def Obligations.CountAndIndexWindows : Prop :=
  ∀ s : State,
    (∀ v : Word, busAccess (writeAt 0xA0 v) s = s.respondFree true ∧
      busAccess (writeAt 0xB8 v) s = s.respondFree true) ∧
    (s.engine = .busy →
      busAccess (readAt 0xA0) s = { s with haz := true }.respond false 0 ∧
      busAccess (readAt 0xB8) s = { s with haz := true }.respond false 0) ∧
    (s.engine = .idle →
      (s.cnt = none → busAccess (readAt 0xA0) s = { s with winerr := true }.respond false 0) ∧
      (s.xidx = none → busAccess (readAt 0xB8) s = { s with winerr := true }.respond false 0) ∧
      (∀ c, s.cnt = some c →
        (c.rows * c.cols ≤ s.caddr.toNat →
          busAccess (readAt 0xA0) s = { s with winerr := true }.respond false 0) ∧
        (s.caddr.toNat < c.rows * c.cols →
          busAccess (readAt 0xA0) s =
            s.respond false (BitVec.ofNat 64 (c.entries.getD s.caddr.toNat 0).toNat))) ∧
      (∀ l, s.xidx = some l →
        (l.length ≤ s.xaddr.toNat →
          busAccess (readAt 0xB8) s = { s with winerr := true }.respond false 0) ∧
        (s.xaddr.toNat < l.length →
          busAccess (readAt 0xB8) s =
            s.respond false (BitVec.ofNat 64 (l.getD s.xaddr.toNat 0).toNat)))) ∧
    (s.slot (slotOf s.maddr.slot) = none → busAccess (readAt 0x90) s = s.respond false 0) ∧
    (∀ M, s.slot (slotOf s.maddr.slot) = some M → ∃ w : Word, busAccess (readAt 0x90) s = s.respond false w ∧
      w.extractLsb' 0 20 = BitVec.ofNat 20 M.rows ∧ w.extractLsb' 20 20 = BitVec.ofNat 20 M.cols ∧
      w.extractLsb' 40 23 = 0 ∧ w.getLsbD 63 = true) ∧
    (s.cnt = none → busAccess (readAt 0xA8) s = s.respond false 0) ∧
    (∀ c, s.cnt = some c → ∃ w : Word, busAccess (readAt 0xA8) s = s.respond false w ∧
      w.extractLsb' 0 20 = BitVec.ofNat 20 c.rows ∧ w.extractLsb' 20 20 = BitVec.ofNat 20 c.cols ∧
      w.extractLsb' 40 23 = 0 ∧ w.getLsbD 63 = true) ∧
    (s.xidx = none → busAccess (readAt 0xC0) s = s.respond false 0) ∧
    (∀ l, s.xidx = some l → ∃ w : Word, busAccess (readAt 0xC0) s = s.respond false w ∧
      w.extractLsb' 0 20 = BitVec.ofNat 20 l.length ∧ w.extractLsb' 20 43 = 0 ∧ w.getLsbD 63 = true) ∧
    busAccess (readAt 0x30) s = s.respond false s.res ∧
    busAccess (readAt 0x38) s = s.respond false s.errinfo ∧
    busAccess (readAt 0x50) s = s.respond false s.isdTrials ∧
    busAccess (readAt 0x58) s = s.respond false s.isdSing ∧
    busAccess (readAt 0x68) s = s.respond false s.isdDcnt ∧
    busAccess (readAt 0x78) s = s.respond false s.bfIters

/-- The packed words of a matrix: column j is bit p(c, j) of word j div W, the padding is 0
(20_memory.md R86), and the words of all rows determine the matrix. -/
def Obligations.PackedWordsHoldTheColumns : Prop :=
  (∀ (p : Params) (M : BitMatrix) (i j : Nat), i < M.rows → j < M.cols →
    (packedWord p M i (j / p.W)).getLsbD (ew p M.cols (j / p.W) - 1 - j % p.W) = M.get i j) ∧
  (∀ (p : Params) (M : BitMatrix) (i q b : Nat), ew p M.cols q ≤ b →
    (packedWord p M i q).getLsbD b = false) ∧
  (∀ (p : Params) (M N : BitMatrix), N.HasShape M.rows M.cols →
    (∀ i q, i < M.rows → q < nwords p M.cols → packedWord p M i q = packedWord p N i q) → M = N)

/-- STATUS as read, field by field, and a STATUS write, which clears exactly the W1C bits written as 1
(10_state.md section 3, STATUS); the numbers of the error codes (60_exceptions.md section 2); the
interrupt output (60_exceptions.md section 3). -/
def Obligations.StatusFieldsAndClears : Prop :=
  (ErrCode.none.code = 0 ∧ ErrCode.illegalCmd.code = 1 ∧ ErrCode.emptyOperand.code = 2 ∧
    ErrCode.shapeMismatch.code = 3 ∧ ErrCode.outOfRange.code = 4 ∧ ErrCode.invalidWeight.code = 5 ∧
    ErrCode.alloc.code = 6 ∧ ErrCode.notInvertible.code = 7 ∧ ErrCode.notFound.code = 8 ∧
    ErrCode.decodeFailure.code = 9 ∧ ErrCode.aborted.code = 10) ∧
  ∀ s : State,
    (busAccess (readAt 0x20) s = s.respond false s.statusWord ∧
      s.statusWord.getLsbD 0 = decide (s.engine = .busy) ∧ s.statusWord.getLsbD 1 = s.done ∧
      s.statusWord.getLsbD 2 = s.flag ∧ s.statusWord.getLsbD 3 = s.cmdovr ∧ s.statusWord.getLsbD 4 = s.haz ∧
      s.statusWord.getLsbD 5 = s.winerr ∧ s.statusWord.extractLsb' 6 2 = 0 ∧
      s.statusWord.extractLsb' 8 4 = s.err.code ∧ s.statusWord.extractLsb' 12 4 = 0 ∧
      s.statusWord.extractLsb' 16 8 = s.lastop ∧ s.statusWord.extractLsb' 24 40 = 0) ∧
    s.irq = (s.ctrlWord.getLsbD 0 && s.statusWord.getLsbD 1) ∧
    ∀ v : Word, busAccess (writeAt 0x20 v) s =
      { s with
        done := if v.getLsbD 1 then false else s.done
        cmdovr := if v.getLsbD 3 then false else s.cmdovr
        haz := if v.getLsbD 4 then false else s.haz
        winerr := if v.getLsbD 5 then false else s.winerr }.respondFree true

/-- 10_state.md R48 (CTRL): IE, ABORT, SRST, what CTRL reads, and that an abort request changes nothing in
any command but ISD and BITFLIP. -/
def Obligations.CtrlWritesAct : Prop :=
  ∀ (v : Word) (s : State),
    busAccess (readAt 0x18) s = s.respond false (if s.ie then 1 else 0) ∧
    (v.getLsbD 2 = true →
      busAccess (writeAt 0x18 v) s =
        { State.afterReset s.params with
          inputs := s.inputs, drawInputs := s.drawInputs,
          lastResponse := s.lastResponse, freeCount := s.freeCount }.respondFree true) ∧
    (v.getLsbD 2 = false → v.getLsbD 1 = true → s.engine = .busy →
      busAccess (writeAt 0x18 v) s = { s with ie := v.getLsbD 0, abortReq := true }.respondFree true) ∧
    (v.getLsbD 2 = false → (v.getLsbD 1 = false ∨ s.engine = .idle) →
      busAccess (writeAt 0x18 v) s = { s with ie := v.getLsbD 0 }.respondFree true) ∧
    ∀ (i : Instr) (r : Bool) (t : State), (∀ md ms1 ms2 w, i ≠ .isd md ms1 ms2 w) →
      (∀ md ms1 ms2 ms3 T w, i ≠ .bitflip md ms1 ms2 ms3 T w) →
      exec i s = .next t → exec i { s with abortReq := r } = .next { t with abortReq := r }

/-- 10_state.md R60 (SEED), and the budgets ISD_MAX, ISD_DTHR and BF_MAX, which are written the same way:
stored while IDLE, dropped with HAZ while BUSY, and read back; R61 (MADDR), R65 (CADDR) and R68 (XADDR), which are
written at any time. -/
def Obligations.ConfigurationWrites : Prop :=
  ∀ (v : Word) (s : State),
    busAccess (readAt 0x40) s = s.respond false s.seed ∧
    busAccess (readAt 0x48) s = s.respond false s.isdMax ∧
    busAccess (readAt 0x60) s = s.respond false s.isdDthr ∧
    busAccess (readAt 0x70) s = s.respond false s.bfMax ∧
    (s.engine = .idle →
      busAccess (writeAt 0x40 v) s = { s with seed := v, prng := Config.seedFn v }.respondFree true ∧
      busAccess (writeAt 0x48 v) s = { s with isdMax := v }.respondFree true ∧
      busAccess (writeAt 0x60 v) s = { s with isdDthr := v }.respondFree true ∧
      busAccess (writeAt 0x70 v) s = { s with bfMax := v }.respondFree true) ∧
    (s.engine = .busy → ∀ o ∈ ([0x40, 0x48, 0x60, 0x70] : List (BitVec 8)),
      busAccess (writeAt o v) s = { s with haz := true }.respondFree true) ∧
    busAccess (writeAt 0x80 v) s =
      { s with maddr := ⟨v.extractLsb' 0 4, v.extractLsb' 8 20, v.extractLsb' 32 20⟩ }.respondFree true ∧
    (∃ w : Word, busAccess (readAt 0x80) s = s.respond false w ∧
      w.extractLsb' 0 4 = s.maddr.slot ∧ w.extractLsb' 4 4 = 0 ∧ w.extractLsb' 8 20 = s.maddr.word ∧
      w.extractLsb' 28 4 = 0 ∧ w.extractLsb' 32 20 = s.maddr.row ∧ w.extractLsb' 52 12 = 0) ∧
    busAccess (writeAt 0x98 v) s = { s with caddr := v.extractLsb' 0 32 }.respondFree true ∧
    busAccess (readAt 0x98) s = s.respond false (BitVec.ofNat 64 s.caddr.toNat) ∧
    busAccess (writeAt 0xB0 v) s = { s with xaddr := v.extractLsb' 0 20 }.respondFree true ∧
    busAccess (readAt 0xB0) s = s.respond false (BitVec.ofNat 64 s.xaddr.toNat)

/-- Events that meet at one clock edge while a command runs (60_exceptions.md section 3): a reset discards
the rest; a CMD write is dropped; a completion wins over a clear of DONE; an abort request is recorded
before the engine's step. -/
def Obligations.EventsAtOneEdgeAreOrdered : Prop :=
  ∀ (s t : State) (rest : List Edge), s.engine = .busy →
    (∀ (a : Option HostAccess) (b : Bool), s.inputs = ⟨false, a, b⟩ :: rest → step s = .next t →
      t.engine = .idle ∧ t.done = false ∧ t.err = .none ∧ (∀ d, t.slot d = none) ∧ t.irq = false ∧
      (a ≠ none → ∃ v, t.lastResponse = some { ack := false, err := false, rdata := v })) ∧
    (∀ (a : HostAccess) (b : Bool), a.isSoftReset = true → s.inputs = ⟨true, some a, b⟩ :: rest →
      step s = .next t → t.engine = .idle ∧ t.done = false ∧ t.err = .none ∧ ∀ d, t.slot d = none) ∧
    (∀ x : Word, s.inputs = ⟨true, some (writeAt 0x28 x), true⟩ :: rest → step s = .next t →
      t.cmd = s.cmd ∧ t.cmdovr = true ∧ (t.engine = .idle → t.done = true)) ∧
    (∀ v : Word, s.inputs = ⟨true, some (writeAt 0x20 v), true⟩ :: rest → step s = .next t →
      t.engine = .idle → t.done = true) ∧
    (∀ v : Word, v.getLsbD 2 = false → v.getLsbD 1 = true →
      s.inputs = ⟨true, some (writeAt 0x18 v), true⟩ :: rest → step s = .next t → t.abortReq = true)

/-! ### Invariants and reset -/

/-- Every step keeps a safe state safe: every matrix fits its slot, CNT is consistent, XIDX holds distinct
columns, the scratch is one its command can reach (so 43_bitflip.md's `syn = s0 ⊕ H · (u‖v)` holds), an
idle engine keeps no scratch, and DONE and ERR read 0 while BUSY. That ISD's result always fits rests on
log 16. -/
def Obligations.EveryStepKeepsTheSafeStates : Prop :=
  ∀ s t : State, s.Safe → step s = .next t → t.Safe

/-- The reset state is safe. -/
def Obligations.ResetIsSafe : Prop := State.reset.Safe

/-- 10_state.md R72: a hardware reset and a soft reset leave the reset state, here with any parameters and
with the model's own four fields kept; what it holds; and R45 to R47, the constants, for any parameters and by default. -/
def Obligations.ResetValues : Prop :=
  State.reset = State.afterReset Params.default ∧
  (∀ (s : State) (b : Bool) (rest : List Edge), s.inputs = ⟨false, none, b⟩ :: rest →
    step s = .next { State.afterReset s.params with
      inputs := rest, drawInputs := s.drawInputs, lastResponse := s.lastResponse, freeCount := s.freeCount }) ∧
  (∀ s : State, busAccess (writeAt 0x18 4) s = { State.afterReset s.params with
      inputs := s.inputs, drawInputs := s.drawInputs, lastResponse := s.lastResponse,
      freeCount := s.freeCount }.respondFree true) ∧
  (∀ s : State, ∃ a b c : Word, busAccess (readAt 0x00) s = s.respond false a ∧
    busAccess (readAt 0x08) s = s.respond false b ∧ busAccess (readAt 0x10) s = s.respond false c ∧
    a.extractLsb' 0 32 = 0x4D324647 ∧ a.extractLsb' 32 8 = 0x01 ∧
    a.extractLsb' 40 8 = BitVec.ofNat 8 s.params.W ∧ a.extractLsb' 48 8 = 16 ∧ a.extractLsb' 56 8 = 0 ∧
    b.extractLsb' 0 32 = s.params.slotWords ∧ b.extractLsb' 32 20 = s.params.maxDim ∧ b.extractLsb' 52 12 = 0 ∧
    c.extractLsb' 0 32 = s.params.countCap ∧ c.extractLsb' 32 8 = 32 ∧ c.extractLsb' 40 24 = 0) ∧
  busAccess (readAt 0x00) State.reset = State.reset.respond false 0x001040014D324647 ∧
  busAccess (readAt 0x08) State.reset = State.reset.respond false 0x00001FFF00100000 ∧
  busAccess (readAt 0x10) State.reset = State.reset.respond false 0x0000002000004000 ∧
  ∀ p : Params, let s := State.afterReset p
    (∀ d, s.slot d = none) ∧ s.cnt = none ∧ s.xidx = none ∧ s.engine = .idle ∧ s.cmd = 0 ∧
    s.abortReq = false ∧ s.prng = Config.seedFn p.seedReset ∧ s.seed = p.seedReset ∧ s.irq = false ∧
    s.scratch = .none ∧ s.ctrlWord = 0 ∧ s.statusWord = 0 ∧ s.res = 0 ∧ s.errinfo = 0 ∧ s.isdMax = 0 ∧
    s.isdTrials = 0 ∧ s.isdSing = 0 ∧ s.isdDthr = 0 ∧ s.isdDcnt = 0 ∧ s.bfMax = 0 ∧ s.bfIters = 0 ∧
    s.maddr.toWord = 0 ∧ s.mdimWord = 0 ∧ s.caddr = 0 ∧ s.cdimWord = 0 ∧ s.xaddr = 0 ∧ s.xlenWord = 0 ∧
    readMdata s = (0, { s with winerr := true }) ∧ readCdata s = (0, { s with winerr := true }) ∧
    readXdata s = (0, { s with winerr := true })
end

