-- ==== Sys2Proof/Laws/Decode.lean ====
section
/-! SUPPORT. The command word: its fields and the word determine each other, and the mask of a row says
which of its fields are 0. -/

namespace Sys2Proof

/-- The bits of a word built from fields, field by field (30_encoding.md R121). -/
theorem getLsbD_toWord (f : Fields) (i : Nat) :
    f.toWord.getLsbD i =
      if i < 8 then f.op.getLsbD i
      else if i < 12 then f.md.getLsbD (i - 8)
      else if i < 16 then f.ms1.getLsbD (i - 12)
      else if i < 20 then f.ms2.getLsbD (i - 16)
      else if i < 24 then f.ms3.getLsbD (i - 20)
      else if i < 44 then f.immA.getLsbD (i - 24)
      else f.immB.getLsbD (i - 44) := by
  unfold Fields.toWord
  simp only [BitVec.getLsbD_append]
  split_ifs <;> first | rfl | omega

/-- The fields of a word built from fields. -/
@[simp] theorem ofWord_toWord (f : Fields) : Fields.ofWord f.toWord = f := by
  obtain ⟨op, md, ms1, ms2, ms3, immA, immB⟩ := f
  simp only [Fields.ofWord, Fields.mk.injEq]
  refine ⟨?_, ?_, ?_, ?_, ?_, ?_, ?_⟩ <;>
  · refine BitVec.eq_of_getLsbD_eq fun i hi => ?_
    rw [BitVec.getLsbD_extractLsb', getLsbD_toWord]
    simp only [hi, decide_true, Bool.true_and]
    split_ifs <;> first | omega | (congr 1; omega)

/-- The word built from a word's fields. -/
@[simp] theorem toWord_ofWord (w : Word) : (Fields.ofWord w).toWord = w := by
  refine BitVec.eq_of_getLsbD_eq fun i hi => ?_
  rw [getLsbD_toWord]
  simp only [Fields.ofWord, BitVec.getLsbD_extractLsb']
  split_ifs <;> (rw [decide_eq_true (by omega), Bool.true_and]; congr 1; omega)

/-- A masked word, field by field. -/
theorem toWord_and_toWord (f g : Fields) :
    f.toWord &&& g.toWord = Fields.toWord
      { op := f.op &&& g.op, md := f.md &&& g.md, ms1 := f.ms1 &&& g.ms1, ms2 := f.ms2 &&& g.ms2
        ms3 := f.ms3 &&& g.ms3, immA := f.immA &&& g.immA, immB := f.immB &&& g.immB } := by
  refine BitVec.eq_of_getLsbD_eq fun i _ => ?_
  rw [BitVec.getLsbD_and, getLsbD_toWord, getLsbD_toWord, getLsbD_toWord]
  split_ifs <;> rw [BitVec.getLsbD_and]

/-- Two words are equal exactly when their fields are. -/
theorem toWord_inj {f g : Fields} : f.toWord = g.toWord ↔ f = g :=
  ⟨fun h => by rw [← ofWord_toWord f, h, ofWord_toWord], fun h => h ▸ rfl⟩

/-- A slot number survives its 4-bit field. -/
@[simp] theorem slotOf_slotBits (d : SlotId) : slotOf (slotBits d) = d := by
  apply Fin.ext
  simp only [slotOf, slotBits, BitVec.toNat_ofNat]
  omega

/-- An immediate that fits survives its 20-bit field. -/
theorem immOf_immBits {n : Nat} (h : fitsImm20 n = true) : immOf (immBits n) = n := by
  have : n < 2 ^ 20 := by simpa [fitsImm20] using h
  simp only [immOf, immBits, BitVec.toNat_ofNat]
  omega

end Sys2Proof
end

