-- ==== Sys2Proof/Laws/Matrix.lean ====
section
/-! SUPPORT. Matrices: every operation's shape and bits, and equality bit by bit. -/

namespace Sys2Proof.Machine

/-- Column j of a row built from a function. -/
@[simp] theorem getMsbD_bitRow (c : Nat) (g : Nat → Bool) (j : Nat) :
    (bitRow c g).getMsbD j = (decide (j < c) && g j) := by
  induction c with
  | zero => simp [bitRow]
  | succ c ih =>
    rw [bitRow, BitVec.getMsbD_concat, ih]
    rcases lt_trichotomy j c with h | rfl | h
    · simp [h, Nat.lt_succ_of_lt h]
    · simp
    · simp [show ¬ j < c by omega, show ¬ j = c by omega, show ¬ j < c + 1 by omega]

@[simp] theorem BitMatrix.rows_ofFn (r c : Nat) (f : Nat → Nat → Bool) : (BitMatrix.ofFn r c f).rows = r := by
  simp [BitMatrix.ofFn, BitMatrix.rows]

@[simp] theorem BitMatrix.cols_ofFn (r c : Nat) (f : Nat → Nat → Bool) : (BitMatrix.ofFn r c f).cols = c := rfl

/-- The bits of a matrix given by its rows. -/
theorem BitMatrix.get_mk (c : Nat) (l : List (BitVec c)) (i j : Nat) :
    (BitMatrix.mk c l).get i j = (l[i]?.getD 0).getMsbD j := by
  rw [← List.getD_eq_getElem?_getD]; rfl

/-- The bits of a matrix built from a function. -/
@[simp] theorem BitMatrix.get_ofFn (r c : Nat) (f : Nat → Nat → Bool) (i j : Nat) :
    (BitMatrix.ofFn r c f).get i j = (decide (i < r) && (decide (j < c) && f i j)) := by
  rw [BitMatrix.ofFn, BitMatrix.get_mk]
  by_cases h : i < r <;> simp [h]

/-- A matrix has no bit outside its shape. -/
theorem BitMatrix.get_eq_false_of_rows_le {M : BitMatrix} {i j : Nat} (h : M.rows ≤ i) : M.get i j = false := by
  have : M.data[i]? = none := List.getElem?_eq_none h
  simp [BitMatrix.get, BitMatrix.row, List.getD, this]

theorem BitMatrix.get_eq_false_of_cols_le {M : BitMatrix} {i j : Nat} (h : M.cols ≤ j) : M.get i j = false := by
  simp [BitMatrix.get, BitVec.getMsbD, show ¬ j < M.cols by omega]

/-- Two matrices with the same shape and the same bits are equal (00_scope.md R14). -/
theorem BitMatrix.ext_get {M N : BitMatrix} (hr : M.rows = N.rows) (hc : M.cols = N.cols)
    (h : ∀ i j, i < M.rows → j < M.cols → M.get i j = N.get i j) : M = N := by
  obtain ⟨c, l⟩ := M
  obtain ⟨c', l'⟩ := N
  obtain rfl : c = c' := hc
  congr 1
  refine List.ext_getElem hr fun i h1 h2 => ?_
  refine BitVec.eq_of_getMsbD_eq fun j hj => ?_
  have := h i j h1 hj
  simpa [BitMatrix.get, BitMatrix.row, List.getD, h1, h2] using this

/-- Rebuilding a matrix from its bits. -/
@[simp] theorem BitMatrix.ofFn_get (M : BitMatrix) : BitMatrix.ofFn M.rows M.cols M.get = M :=
  BitMatrix.ext_get (by simp) (by simp) fun i j hi hj => by simp_all

theorem natSum_congr {n : Nat} {f g : Nat → Nat} (h : ∀ k < n, f k = g k) : natSum n f = natSum n g := by
  induction n with
  | zero => rfl
  | succ n ih => simp [natSum, ih fun k hk => h k (by omega), h n (by omega)]

theorem xorSum_congr {n : Nat} {f g : Nat → Bool} (h : ∀ k < n, f k = g k) : xorSum n f = xorSum n g := by
  induction n with
  | zero => rfl
  | succ n ih => simp [xorSum, ih fun k hk => h k (by omega), h n (by omega)]

/-- The engine's sum is Mathlib's. -/
theorem natSum_eq_sum (n : Nat) (f : Nat → Nat) : natSum n f = ∑ k ∈ Finset.range n, f k := by
  induction n with
  | zero => rfl
  | succ n ih => rw [natSum, ih, Finset.sum_range_succ]

/-- The XOR of bits is their sum modulo 2. -/
theorem xorSum_eq_natSum_mod (n : Nat) (f : Nat → Bool) :
    (xorSum n f).toNat = natSum n (fun k => (f k).toNat) % 2 := by
  induction n with
  | zero => rfl
  | succ n ih =>
    rw [xorSum, natSum, Nat.add_mod, ← ih]
    cases xorSum n f <;> cases f n <;> rfl

theorem natSum_eq_zero {n : Nat} {f : Nat → Nat} : natSum n f = 0 ↔ ∀ k < n, f k = 0 := by
  simp [natSum_eq_sum]

/-- A matrix has weight 0 exactly when every bit is 0. -/
theorem BitMatrix.hw_eq_zero {M : BitMatrix} :
    M.hw = 0 ↔ ∀ i < M.rows, ∀ j < M.cols, M.get i j = false := by
  simp [BitMatrix.hw, natSum_eq_zero]

@[simp] theorem BitMatrix.rows_zero (r c : Nat) : (BitMatrix.zero r c).rows = r := by
  simp [BitMatrix.zero, BitMatrix.rows]

@[simp] theorem BitMatrix.cols_zero (r c : Nat) : (BitMatrix.zero r c).cols = c := rfl

@[simp] theorem BitMatrix.get_zero (r c i j : Nat) : (BitMatrix.zero r c).get i j = false := by
  rw [BitMatrix.zero, BitMatrix.get_mk]
  by_cases h : i < r <;> simp [h]

/-- Replacing one row: its bits become the new row's, no other row changes. -/
theorem BitMatrix.get_set_row (M : BitMatrix) (a : Nat) (x : BitVec M.cols) (i j : Nat) :
    (BitMatrix.mk M.cols (M.data.set a x)).get i j =
      if i = a ∧ a < M.rows then x.getMsbD j else M.get i j := by
  by_cases h : i = a
  · subst h
    by_cases hi : i < M.rows
    · have : i < M.data.length := hi
      simp [BitMatrix.get, BitMatrix.row, List.getD, this, hi]
    · have : ¬ i < M.data.length := hi
      simp [BitMatrix.get, BitMatrix.row, List.getD, this, hi]
  · simp [BitMatrix.get, BitMatrix.row, List.getD, h, show ¬ a = i from fun e => h e.symm]

@[simp] theorem BitMatrix.rows_set_row (M : BitMatrix) (a : Nat) (x : BitVec M.cols) :
    (BitMatrix.mk M.cols (M.data.set a x)).rows = M.rows := by
  simp [BitMatrix.rows]

@[simp] theorem BitMatrix.rows_setBit (M : BitMatrix) (i j : Nat) (b : Bool) : (M.setBit i j b).rows = M.rows := by
  simp [BitMatrix.setBit]

@[simp] theorem BitMatrix.cols_setBit (M : BitMatrix) (i j : Nat) (b : Bool) : (M.setBit i j b).cols = M.cols := rfl

/-- SETBIT's effect on every bit (40_matrix_basic.md R157). -/
theorem BitMatrix.get_setBit (M : BitMatrix) (a c : Nat) (b : Bool) (i j : Nat) (ha : a < M.rows) (hc : c < M.cols) :
    (M.setBit a c b).get i j = if i = a ∧ j = c then b else M.get i j := by
  rw [BitMatrix.setBit, BitMatrix.get_set_row]
  by_cases hi : i = a
  · subst hi
    by_cases hj : j < M.cols
    · simp [ha, hj]
    · have := BitMatrix.get_eq_false_of_cols_le (M := M) (i := i) (j := j) (by omega)
      simp [ha, hj, show ¬ j = c by omega, this]
  · simp [hi]

@[simp] theorem BitMatrix.rows_rowXor (M : BitMatrix) (a b : Nat) : (M.rowXor a b).rows = M.rows := by
  simp [BitMatrix.rowXor]

@[simp] theorem BitMatrix.cols_rowXor (M : BitMatrix) (a b : Nat) : (M.rowXor a b).cols = M.cols := rfl

/-- ROWXOR's effect on every bit (40_matrix_basic.md R159). -/
theorem BitMatrix.get_rowXor (M : BitMatrix) (a b i j : Nat) (hb : b < M.rows) :
    (M.rowXor a b).get i j = if i = b then Bool.xor (M.get b j) (M.get a j) else M.get i j := by
  rw [BitMatrix.rowXor, BitMatrix.get_set_row]
  by_cases hi : i = b
  · simp [hi, hb, BitMatrix.get]
  · simp [hi]

@[simp] theorem BitMatrix.rows_rowSwap (M : BitMatrix) (a b : Nat) : (M.rowSwap a b).rows = M.rows := by
  simp [BitMatrix.rowSwap, BitMatrix.rows]

@[simp] theorem BitMatrix.cols_rowSwap (M : BitMatrix) (a b : Nat) : (M.rowSwap a b).cols = M.cols := rfl

/-- ROWSWAP's effect on every bit (40_matrix_basic.md R160). -/
theorem BitMatrix.get_rowSwap (M : BitMatrix) (a b i j : Nat) (ha : a < M.rows) (hb : b < M.rows) :
    (M.rowSwap a b).get i j = if i = a then M.get b j else if i = b then M.get a j else M.get i j := by
  have h := BitMatrix.get_set_row ⟨M.cols, M.data.set a (M.row b)⟩ b (M.row a) i j
  rw [BitMatrix.rows_set_row] at h
  rw [BitMatrix.rowSwap]
  refine h.trans ?_
  rw [BitMatrix.get_set_row]
  by_cases hib : i = b
  · subst hib
    by_cases hia : i = a
    · subst hia
      simp [hb, BitMatrix.get]
    · simp [hb, hia, BitMatrix.get]
  · by_cases hia : i = a
    · subst hia
      simp [hib, ha, BitMatrix.get]
    · simp [hib, hia]

@[simp] theorem BitMatrix.rows_identity (n : Nat) : (BitMatrix.identity n).rows = n := by simp [BitMatrix.identity]
@[simp] theorem BitMatrix.cols_identity (n : Nat) : (BitMatrix.identity n).cols = n := rfl

@[simp] theorem BitMatrix.rows_selectCols (M : BitMatrix) (idx : List Nat) : (M.selectCols idx).rows = M.rows := by
  simp [BitMatrix.selectCols]
@[simp] theorem BitMatrix.cols_selectCols (M : BitMatrix) (idx : List Nat) :
    (M.selectCols idx).cols = idx.length := rfl

@[simp] theorem BitMatrix.rows_transpose (M : BitMatrix) : M.transpose.rows = M.cols := by simp [BitMatrix.transpose]
@[simp] theorem BitMatrix.cols_transpose (M : BitMatrix) : M.transpose.cols = M.rows := rfl

@[simp] theorem BitMatrix.rows_concat (A B : BitMatrix) : (A.concat B).rows = A.rows := by simp [BitMatrix.concat]
@[simp] theorem BitMatrix.cols_concat (A B : BitMatrix) : (A.concat B).cols = A.cols + B.cols := rfl

@[simp] theorem BitMatrix.rows_add (A B : BitMatrix) : (A.add B).rows = A.rows := by simp [BitMatrix.add]
@[simp] theorem BitMatrix.cols_add (A B : BitMatrix) : (A.add B).cols = A.cols := rfl

@[simp] theorem BitMatrix.rows_mul (A B : BitMatrix) : (A.mul B).rows = A.rows := by simp [BitMatrix.mul]
@[simp] theorem BitMatrix.cols_mul (A B : BitMatrix) : (A.mul B).cols = B.cols := rfl

@[simp] theorem BitMatrix.rows_rot (M : BitMatrix) (s : Nat) : (M.rot s).rows = M.rows := by
  unfold BitMatrix.rot; split <;> simp
@[simp] theorem BitMatrix.cols_rot (M : BitMatrix) (s : Nat) : (M.rot s).cols = M.cols := by
  unfold BitMatrix.rot; split <;> simp

@[simp] theorem BitMatrix.rows_stack (u v : BitMatrix) : (u.stack v).rows = u.rows + v.rows := by
  simp [BitMatrix.stack]
@[simp] theorem BitMatrix.cols_stack (u v : BitMatrix) : (u.stack v).cols = 1 := rfl

@[simp] theorem BitMatrix.rows_scatter (n : Nat) (idx : List Nat) (e : BitMatrix) :
    (BitMatrix.scatter n idx e).rows = n := by simp [BitMatrix.scatter]
@[simp] theorem BitMatrix.cols_scatter (n : Nat) (idx : List Nat) (e : BitMatrix) :
    (BitMatrix.scatter n idx e).cols = 1 := rfl

@[simp] theorem BitMatrix.length_counts (A B : BitMatrix) : (A.counts B).length = A.rows * B.cols := by
  simp [BitMatrix.counts]

/-- Elimination keeps the number of rows. -/
theorem length_addRowInto {m n : Nat} (p : Nat → Bool) (i : Nat) (R : Aug m n) :
    (addRowInto p i R).length = R.length := by simp [addRowInto]

theorem length_swapRows {m n : Nat} (R : Aug m n) (i p : Nat) : (swapRows R i p).length = R.length := by
  simp [swapRows]

theorem length_eliminate {m n : Nat} : ∀ (is : List Nat) (R R' : Aug m n),
    eliminate is R = .ok R' → R'.length = R.length
  | [], R, R', h => by simp [eliminate] at h; simp [h]
  | i :: is, R, R', h => by
    unfold eliminate at h
    split at h
    · simp at h
    · rw [length_eliminate is _ _ h, length_addRowInto, length_swapRows]

theorem length_backSubstitute {m n : Nat} : ∀ (is : List Nat) (R : Aug m n),
    (backSubstitute is R).length = R.length
  | [], _ => rfl
  | i :: is, R => by rw [backSubstitute, length_backSubstitute is, length_addRowInto]

@[simp] theorem length_augmented (M : BitMatrix) : M.augmented.length = M.rows := by
  simp [BitMatrix.augmented, identityRows, BitMatrix.rows]

/-- The inverse has M.rows rows and columns. -/
theorem BitMatrix.shape_of_invert {M X : BitMatrix} (h : M.invert = .ok X) :
    X.rows = M.rows ∧ X.cols = M.rows := by
  unfold BitMatrix.invert at h
  split at h
  · simp at h
  · rename_i R hR
    split at h
    · simp only [Except.ok.injEq] at h
      subst h
      refine ⟨?_, rfl⟩
      have hl := length_eliminate _ _ _ hR
      rw [length_augmented] at hl
      calc (List.map Prod.snd (backSubstitute (List.range M.rows).reverse R)).length
          = R.length := by rw [List.length_map, length_backSubstitute]
        _ = M.rows := hl
    · simp at h

/-- The width of a word is never 0. -/
theorem W_pos (p : Params) : 0 < p.W := by
  unfold Params.W WordBits.bits
  cases p.wordBits <;> decide

theorem W_le_64 (p : Params) : p.W ≤ 64 := by
  unfold Params.W WordBits.bits
  cases p.wordBits <;> decide

/-- One column needs one word. -/
@[simp] theorem nwords_one (p : Params) : nwords p 1 = 1 := by
  have := W_pos p
  rw [nwords, show 1 + p.W - 1 = p.W by omega, Nat.div_self this]

/-- What the capacity test says (10_state.md R32). -/
@[simp] theorem fitsSlot_iff (p : Params) (r c : Nat) :
    fitsSlot p r c = true ↔
      r ≤ p.maxDim.toNat ∧ c ≤ p.maxDim.toNat ∧ r * nwords p c ≤ p.slotWords.toNat := by
  simp [fitsSlot, fitsWords, and_assoc]

/-- Fewer columns need no more words. -/
theorem nwords_mono (p : Params) {a b : Nat} (h : a ≤ b) : nwords p a ≤ nwords p b :=
  Nat.div_le_div_right (by omega)

end Sys2Proof.Machine
end

