-- ==== Sys2Proof/Laws/State.lean ====
section
/-! SUPPORT. One lemma per field of State per named update: what the update makes of the field. -/

namespace Sys2Proof.Machine

@[simp] theorem State.setSlot_params (d : SlotId) (M : BitMatrix) (s : State) :
    (s.setSlot d M).params = s.params := rfl
@[simp] theorem State.setSlot_slots (d : SlotId) (M : BitMatrix) (s : State) :
    (s.setSlot d M).slots = s.slots.set d.val (some M) := rfl
@[simp] theorem State.setSlot_cnt (d : SlotId) (M : BitMatrix) (s : State) :
    (s.setSlot d M).cnt = s.cnt := rfl
@[simp] theorem State.setSlot_xidx (d : SlotId) (M : BitMatrix) (s : State) :
    (s.setSlot d M).xidx = s.xidx := rfl
@[simp] theorem State.setSlot_engine (d : SlotId) (M : BitMatrix) (s : State) :
    (s.setSlot d M).engine = s.engine := rfl
@[simp] theorem State.setSlot_cmd (d : SlotId) (M : BitMatrix) (s : State) :
    (s.setSlot d M).cmd = s.cmd := rfl
@[simp] theorem State.setSlot_abortReq (d : SlotId) (M : BitMatrix) (s : State) :
    (s.setSlot d M).abortReq = s.abortReq := rfl
@[simp] theorem State.setSlot_scratch (d : SlotId) (M : BitMatrix) (s : State) :
    (s.setSlot d M).scratch = s.scratch := rfl
@[simp] theorem State.setSlot_prng (d : SlotId) (M : BitMatrix) (s : State) :
    (s.setSlot d M).prng = s.prng := rfl
@[simp] theorem State.setSlot_ie (d : SlotId) (M : BitMatrix) (s : State) : (s.setSlot d M).ie = s.ie := rfl
@[simp] theorem State.setSlot_done (d : SlotId) (M : BitMatrix) (s : State) :
    (s.setSlot d M).done = s.done := rfl
@[simp] theorem State.setSlot_flag (d : SlotId) (M : BitMatrix) (s : State) :
    (s.setSlot d M).flag = s.flag := rfl
@[simp] theorem State.setSlot_cmdovr (d : SlotId) (M : BitMatrix) (s : State) :
    (s.setSlot d M).cmdovr = s.cmdovr := rfl
@[simp] theorem State.setSlot_haz (d : SlotId) (M : BitMatrix) (s : State) :
    (s.setSlot d M).haz = s.haz := rfl
@[simp] theorem State.setSlot_winerr (d : SlotId) (M : BitMatrix) (s : State) :
    (s.setSlot d M).winerr = s.winerr := rfl
@[simp] theorem State.setSlot_err (d : SlotId) (M : BitMatrix) (s : State) :
    (s.setSlot d M).err = s.err := rfl
@[simp] theorem State.setSlot_lastop (d : SlotId) (M : BitMatrix) (s : State) :
    (s.setSlot d M).lastop = s.lastop := rfl
@[simp] theorem State.setSlot_res (d : SlotId) (M : BitMatrix) (s : State) :
    (s.setSlot d M).res = s.res := rfl
@[simp] theorem State.setSlot_errinfo (d : SlotId) (M : BitMatrix) (s : State) :
    (s.setSlot d M).errinfo = s.errinfo := rfl
@[simp] theorem State.setSlot_seed (d : SlotId) (M : BitMatrix) (s : State) :
    (s.setSlot d M).seed = s.seed := rfl
@[simp] theorem State.setSlot_isdMax (d : SlotId) (M : BitMatrix) (s : State) :
    (s.setSlot d M).isdMax = s.isdMax := rfl
@[simp] theorem State.setSlot_isdTrials (d : SlotId) (M : BitMatrix) (s : State) :
    (s.setSlot d M).isdTrials = s.isdTrials := rfl
@[simp] theorem State.setSlot_isdSing (d : SlotId) (M : BitMatrix) (s : State) :
    (s.setSlot d M).isdSing = s.isdSing := rfl
@[simp] theorem State.setSlot_isdDthr (d : SlotId) (M : BitMatrix) (s : State) :
    (s.setSlot d M).isdDthr = s.isdDthr := rfl
@[simp] theorem State.setSlot_isdDcnt (d : SlotId) (M : BitMatrix) (s : State) :
    (s.setSlot d M).isdDcnt = s.isdDcnt := rfl
@[simp] theorem State.setSlot_bfMax (d : SlotId) (M : BitMatrix) (s : State) :
    (s.setSlot d M).bfMax = s.bfMax := rfl
@[simp] theorem State.setSlot_bfIters (d : SlotId) (M : BitMatrix) (s : State) :
    (s.setSlot d M).bfIters = s.bfIters := rfl
@[simp] theorem State.setSlot_maddr (d : SlotId) (M : BitMatrix) (s : State) :
    (s.setSlot d M).maddr = s.maddr := rfl
@[simp] theorem State.setSlot_caddr (d : SlotId) (M : BitMatrix) (s : State) :
    (s.setSlot d M).caddr = s.caddr := rfl
@[simp] theorem State.setSlot_xaddr (d : SlotId) (M : BitMatrix) (s : State) :
    (s.setSlot d M).xaddr = s.xaddr := rfl
@[simp] theorem State.setSlot_inputs (d : SlotId) (M : BitMatrix) (s : State) :
    (s.setSlot d M).inputs = s.inputs := rfl
@[simp] theorem State.setSlot_drawInputs (d : SlotId) (M : BitMatrix) (s : State) :
    (s.setSlot d M).drawInputs = s.drawInputs := rfl
@[simp] theorem State.setSlot_lastResponse (d : SlotId) (M : BitMatrix) (s : State) :
    (s.setSlot d M).lastResponse = s.lastResponse := rfl
@[simp] theorem State.setSlot_freeCount (d : SlotId) (M : BitMatrix) (s : State) :
    (s.setSlot d M).freeCount = s.freeCount := rfl

@[simp] theorem State.setCnt_params (c : CountBuffer) (s : State) : (s.setCnt c).params = s.params := rfl
@[simp] theorem State.setCnt_slots (c : CountBuffer) (s : State) : (s.setCnt c).slots = s.slots := rfl
@[simp] theorem State.setCnt_cnt (c : CountBuffer) (s : State) : (s.setCnt c).cnt = some c := rfl
@[simp] theorem State.setCnt_xidx (c : CountBuffer) (s : State) : (s.setCnt c).xidx = s.xidx := rfl
@[simp] theorem State.setCnt_engine (c : CountBuffer) (s : State) : (s.setCnt c).engine = s.engine := rfl
@[simp] theorem State.setCnt_cmd (c : CountBuffer) (s : State) : (s.setCnt c).cmd = s.cmd := rfl
@[simp] theorem State.setCnt_abortReq (c : CountBuffer) (s : State) :
    (s.setCnt c).abortReq = s.abortReq := rfl
@[simp] theorem State.setCnt_scratch (c : CountBuffer) (s : State) : (s.setCnt c).scratch = s.scratch := rfl
@[simp] theorem State.setCnt_prng (c : CountBuffer) (s : State) : (s.setCnt c).prng = s.prng := rfl
@[simp] theorem State.setCnt_ie (c : CountBuffer) (s : State) : (s.setCnt c).ie = s.ie := rfl
@[simp] theorem State.setCnt_done (c : CountBuffer) (s : State) : (s.setCnt c).done = s.done := rfl
@[simp] theorem State.setCnt_flag (c : CountBuffer) (s : State) : (s.setCnt c).flag = s.flag := rfl
@[simp] theorem State.setCnt_cmdovr (c : CountBuffer) (s : State) : (s.setCnt c).cmdovr = s.cmdovr := rfl
@[simp] theorem State.setCnt_haz (c : CountBuffer) (s : State) : (s.setCnt c).haz = s.haz := rfl
@[simp] theorem State.setCnt_winerr (c : CountBuffer) (s : State) : (s.setCnt c).winerr = s.winerr := rfl
@[simp] theorem State.setCnt_err (c : CountBuffer) (s : State) : (s.setCnt c).err = s.err := rfl
@[simp] theorem State.setCnt_lastop (c : CountBuffer) (s : State) : (s.setCnt c).lastop = s.lastop := rfl
@[simp] theorem State.setCnt_res (c : CountBuffer) (s : State) : (s.setCnt c).res = s.res := rfl
@[simp] theorem State.setCnt_errinfo (c : CountBuffer) (s : State) : (s.setCnt c).errinfo = s.errinfo := rfl
@[simp] theorem State.setCnt_seed (c : CountBuffer) (s : State) : (s.setCnt c).seed = s.seed := rfl
@[simp] theorem State.setCnt_isdMax (c : CountBuffer) (s : State) : (s.setCnt c).isdMax = s.isdMax := rfl
@[simp] theorem State.setCnt_isdTrials (c : CountBuffer) (s : State) :
    (s.setCnt c).isdTrials = s.isdTrials := rfl
@[simp] theorem State.setCnt_isdSing (c : CountBuffer) (s : State) : (s.setCnt c).isdSing = s.isdSing := rfl
@[simp] theorem State.setCnt_isdDthr (c : CountBuffer) (s : State) : (s.setCnt c).isdDthr = s.isdDthr := rfl
@[simp] theorem State.setCnt_isdDcnt (c : CountBuffer) (s : State) : (s.setCnt c).isdDcnt = s.isdDcnt := rfl
@[simp] theorem State.setCnt_bfMax (c : CountBuffer) (s : State) : (s.setCnt c).bfMax = s.bfMax := rfl
@[simp] theorem State.setCnt_bfIters (c : CountBuffer) (s : State) : (s.setCnt c).bfIters = s.bfIters := rfl
@[simp] theorem State.setCnt_maddr (c : CountBuffer) (s : State) : (s.setCnt c).maddr = s.maddr := rfl
@[simp] theorem State.setCnt_caddr (c : CountBuffer) (s : State) : (s.setCnt c).caddr = s.caddr := rfl
@[simp] theorem State.setCnt_xaddr (c : CountBuffer) (s : State) : (s.setCnt c).xaddr = s.xaddr := rfl
@[simp] theorem State.setCnt_inputs (c : CountBuffer) (s : State) : (s.setCnt c).inputs = s.inputs := rfl
@[simp] theorem State.setCnt_drawInputs (c : CountBuffer) (s : State) :
    (s.setCnt c).drawInputs = s.drawInputs := rfl
@[simp] theorem State.setCnt_lastResponse (c : CountBuffer) (s : State) :
    (s.setCnt c).lastResponse = s.lastResponse := rfl
@[simp] theorem State.setCnt_freeCount (c : CountBuffer) (s : State) :
    (s.setCnt c).freeCount = s.freeCount := rfl

@[simp] theorem State.setXidx_params (idx : List Nat) (s : State) : (s.setXidx idx).params = s.params := rfl
@[simp] theorem State.setXidx_slots (idx : List Nat) (s : State) : (s.setXidx idx).slots = s.slots := rfl
@[simp] theorem State.setXidx_cnt (idx : List Nat) (s : State) : (s.setXidx idx).cnt = s.cnt := rfl
@[simp] theorem State.setXidx_xidx (idx : List Nat) (s : State) :
    (s.setXidx idx).xidx = some (idx.map (BitVec.ofNat 20)) := rfl
@[simp] theorem State.setXidx_engine (idx : List Nat) (s : State) : (s.setXidx idx).engine = s.engine := rfl
@[simp] theorem State.setXidx_cmd (idx : List Nat) (s : State) : (s.setXidx idx).cmd = s.cmd := rfl
@[simp] theorem State.setXidx_abortReq (idx : List Nat) (s : State) :
    (s.setXidx idx).abortReq = s.abortReq := rfl
@[simp] theorem State.setXidx_scratch (idx : List Nat) (s : State) :
    (s.setXidx idx).scratch = s.scratch := rfl
@[simp] theorem State.setXidx_prng (idx : List Nat) (s : State) : (s.setXidx idx).prng = s.prng := rfl
@[simp] theorem State.setXidx_ie (idx : List Nat) (s : State) : (s.setXidx idx).ie = s.ie := rfl
@[simp] theorem State.setXidx_done (idx : List Nat) (s : State) : (s.setXidx idx).done = s.done := rfl
@[simp] theorem State.setXidx_flag (idx : List Nat) (s : State) : (s.setXidx idx).flag = s.flag := rfl
@[simp] theorem State.setXidx_cmdovr (idx : List Nat) (s : State) : (s.setXidx idx).cmdovr = s.cmdovr := rfl
@[simp] theorem State.setXidx_haz (idx : List Nat) (s : State) : (s.setXidx idx).haz = s.haz := rfl
@[simp] theorem State.setXidx_winerr (idx : List Nat) (s : State) : (s.setXidx idx).winerr = s.winerr := rfl
@[simp] theorem State.setXidx_err (idx : List Nat) (s : State) : (s.setXidx idx).err = s.err := rfl
@[simp] theorem State.setXidx_lastop (idx : List Nat) (s : State) : (s.setXidx idx).lastop = s.lastop := rfl
@[simp] theorem State.setXidx_res (idx : List Nat) (s : State) : (s.setXidx idx).res = s.res := rfl
@[simp] theorem State.setXidx_errinfo (idx : List Nat) (s : State) :
    (s.setXidx idx).errinfo = s.errinfo := rfl
@[simp] theorem State.setXidx_seed (idx : List Nat) (s : State) : (s.setXidx idx).seed = s.seed := rfl
@[simp] theorem State.setXidx_isdMax (idx : List Nat) (s : State) : (s.setXidx idx).isdMax = s.isdMax := rfl
@[simp] theorem State.setXidx_isdTrials (idx : List Nat) (s : State) :
    (s.setXidx idx).isdTrials = s.isdTrials := rfl
@[simp] theorem State.setXidx_isdSing (idx : List Nat) (s : State) :
    (s.setXidx idx).isdSing = s.isdSing := rfl
@[simp] theorem State.setXidx_isdDthr (idx : List Nat) (s : State) :
    (s.setXidx idx).isdDthr = s.isdDthr := rfl
@[simp] theorem State.setXidx_isdDcnt (idx : List Nat) (s : State) :
    (s.setXidx idx).isdDcnt = s.isdDcnt := rfl
@[simp] theorem State.setXidx_bfMax (idx : List Nat) (s : State) : (s.setXidx idx).bfMax = s.bfMax := rfl
@[simp] theorem State.setXidx_bfIters (idx : List Nat) (s : State) :
    (s.setXidx idx).bfIters = s.bfIters := rfl
@[simp] theorem State.setXidx_maddr (idx : List Nat) (s : State) : (s.setXidx idx).maddr = s.maddr := rfl
@[simp] theorem State.setXidx_caddr (idx : List Nat) (s : State) : (s.setXidx idx).caddr = s.caddr := rfl
@[simp] theorem State.setXidx_xaddr (idx : List Nat) (s : State) : (s.setXidx idx).xaddr = s.xaddr := rfl
@[simp] theorem State.setXidx_inputs (idx : List Nat) (s : State) : (s.setXidx idx).inputs = s.inputs := rfl
@[simp] theorem State.setXidx_drawInputs (idx : List Nat) (s : State) :
    (s.setXidx idx).drawInputs = s.drawInputs := rfl
@[simp] theorem State.setXidx_lastResponse (idx : List Nat) (s : State) :
    (s.setXidx idx).lastResponse = s.lastResponse := rfl
@[simp] theorem State.setXidx_freeCount (idx : List Nat) (s : State) :
    (s.setXidx idx).freeCount = s.freeCount := rfl

@[simp] theorem State.setScratch_params (sc : Scratch) (s : State) :
    (s.setScratch sc).params = s.params := rfl
@[simp] theorem State.setScratch_slots (sc : Scratch) (s : State) : (s.setScratch sc).slots = s.slots := rfl
@[simp] theorem State.setScratch_cnt (sc : Scratch) (s : State) : (s.setScratch sc).cnt = s.cnt := rfl
@[simp] theorem State.setScratch_xidx (sc : Scratch) (s : State) : (s.setScratch sc).xidx = s.xidx := rfl
@[simp] theorem State.setScratch_engine (sc : Scratch) (s : State) :
    (s.setScratch sc).engine = s.engine := rfl
@[simp] theorem State.setScratch_cmd (sc : Scratch) (s : State) : (s.setScratch sc).cmd = s.cmd := rfl
@[simp] theorem State.setScratch_abortReq (sc : Scratch) (s : State) :
    (s.setScratch sc).abortReq = s.abortReq := rfl
@[simp] theorem State.setScratch_scratch (sc : Scratch) (s : State) : (s.setScratch sc).scratch = sc := rfl
@[simp] theorem State.setScratch_prng (sc : Scratch) (s : State) : (s.setScratch sc).prng = s.prng := rfl
@[simp] theorem State.setScratch_ie (sc : Scratch) (s : State) : (s.setScratch sc).ie = s.ie := rfl
@[simp] theorem State.setScratch_done (sc : Scratch) (s : State) : (s.setScratch sc).done = s.done := rfl
@[simp] theorem State.setScratch_flag (sc : Scratch) (s : State) : (s.setScratch sc).flag = s.flag := rfl
@[simp] theorem State.setScratch_cmdovr (sc : Scratch) (s : State) :
    (s.setScratch sc).cmdovr = s.cmdovr := rfl
@[simp] theorem State.setScratch_haz (sc : Scratch) (s : State) : (s.setScratch sc).haz = s.haz := rfl
@[simp] theorem State.setScratch_winerr (sc : Scratch) (s : State) :
    (s.setScratch sc).winerr = s.winerr := rfl
@[simp] theorem State.setScratch_err (sc : Scratch) (s : State) : (s.setScratch sc).err = s.err := rfl
@[simp] theorem State.setScratch_lastop (sc : Scratch) (s : State) :
    (s.setScratch sc).lastop = s.lastop := rfl
@[simp] theorem State.setScratch_res (sc : Scratch) (s : State) : (s.setScratch sc).res = s.res := rfl
@[simp] theorem State.setScratch_errinfo (sc : Scratch) (s : State) :
    (s.setScratch sc).errinfo = s.errinfo := rfl
@[simp] theorem State.setScratch_seed (sc : Scratch) (s : State) : (s.setScratch sc).seed = s.seed := rfl
@[simp] theorem State.setScratch_isdMax (sc : Scratch) (s : State) :
    (s.setScratch sc).isdMax = s.isdMax := rfl
@[simp] theorem State.setScratch_isdTrials (sc : Scratch) (s : State) :
    (s.setScratch sc).isdTrials = s.isdTrials := rfl
@[simp] theorem State.setScratch_isdSing (sc : Scratch) (s : State) :
    (s.setScratch sc).isdSing = s.isdSing := rfl
@[simp] theorem State.setScratch_isdDthr (sc : Scratch) (s : State) :
    (s.setScratch sc).isdDthr = s.isdDthr := rfl
@[simp] theorem State.setScratch_isdDcnt (sc : Scratch) (s : State) :
    (s.setScratch sc).isdDcnt = s.isdDcnt := rfl
@[simp] theorem State.setScratch_bfMax (sc : Scratch) (s : State) : (s.setScratch sc).bfMax = s.bfMax := rfl
@[simp] theorem State.setScratch_bfIters (sc : Scratch) (s : State) :
    (s.setScratch sc).bfIters = s.bfIters := rfl
@[simp] theorem State.setScratch_maddr (sc : Scratch) (s : State) : (s.setScratch sc).maddr = s.maddr := rfl
@[simp] theorem State.setScratch_caddr (sc : Scratch) (s : State) : (s.setScratch sc).caddr = s.caddr := rfl
@[simp] theorem State.setScratch_xaddr (sc : Scratch) (s : State) : (s.setScratch sc).xaddr = s.xaddr := rfl
@[simp] theorem State.setScratch_inputs (sc : Scratch) (s : State) :
    (s.setScratch sc).inputs = s.inputs := rfl
@[simp] theorem State.setScratch_drawInputs (sc : Scratch) (s : State) :
    (s.setScratch sc).drawInputs = s.drawInputs := rfl
@[simp] theorem State.setScratch_lastResponse (sc : Scratch) (s : State) :
    (s.setScratch sc).lastResponse = s.lastResponse := rfl
@[simp] theorem State.setScratch_freeCount (sc : Scratch) (s : State) :
    (s.setScratch sc).freeCount = s.freeCount := rfl

@[simp] theorem State.setRes_params (r : Nat) (s : State) : (s.setRes r).params = s.params := rfl
@[simp] theorem State.setRes_slots (r : Nat) (s : State) : (s.setRes r).slots = s.slots := rfl
@[simp] theorem State.setRes_cnt (r : Nat) (s : State) : (s.setRes r).cnt = s.cnt := rfl
@[simp] theorem State.setRes_xidx (r : Nat) (s : State) : (s.setRes r).xidx = s.xidx := rfl
@[simp] theorem State.setRes_engine (r : Nat) (s : State) : (s.setRes r).engine = s.engine := rfl
@[simp] theorem State.setRes_cmd (r : Nat) (s : State) : (s.setRes r).cmd = s.cmd := rfl
@[simp] theorem State.setRes_abortReq (r : Nat) (s : State) : (s.setRes r).abortReq = s.abortReq := rfl
@[simp] theorem State.setRes_scratch (r : Nat) (s : State) : (s.setRes r).scratch = s.scratch := rfl
@[simp] theorem State.setRes_prng (r : Nat) (s : State) : (s.setRes r).prng = s.prng := rfl
@[simp] theorem State.setRes_ie (r : Nat) (s : State) : (s.setRes r).ie = s.ie := rfl
@[simp] theorem State.setRes_done (r : Nat) (s : State) : (s.setRes r).done = s.done := rfl
@[simp] theorem State.setRes_flag (r : Nat) (s : State) : (s.setRes r).flag = s.flag := rfl
@[simp] theorem State.setRes_cmdovr (r : Nat) (s : State) : (s.setRes r).cmdovr = s.cmdovr := rfl
@[simp] theorem State.setRes_haz (r : Nat) (s : State) : (s.setRes r).haz = s.haz := rfl
@[simp] theorem State.setRes_winerr (r : Nat) (s : State) : (s.setRes r).winerr = s.winerr := rfl
@[simp] theorem State.setRes_err (r : Nat) (s : State) : (s.setRes r).err = s.err := rfl
@[simp] theorem State.setRes_lastop (r : Nat) (s : State) : (s.setRes r).lastop = s.lastop := rfl
@[simp] theorem State.setRes_res (r : Nat) (s : State) : (s.setRes r).res = zext64 r := rfl
@[simp] theorem State.setRes_errinfo (r : Nat) (s : State) : (s.setRes r).errinfo = s.errinfo := rfl
@[simp] theorem State.setRes_seed (r : Nat) (s : State) : (s.setRes r).seed = s.seed := rfl
@[simp] theorem State.setRes_isdMax (r : Nat) (s : State) : (s.setRes r).isdMax = s.isdMax := rfl
@[simp] theorem State.setRes_isdTrials (r : Nat) (s : State) : (s.setRes r).isdTrials = s.isdTrials := rfl
@[simp] theorem State.setRes_isdSing (r : Nat) (s : State) : (s.setRes r).isdSing = s.isdSing := rfl
@[simp] theorem State.setRes_isdDthr (r : Nat) (s : State) : (s.setRes r).isdDthr = s.isdDthr := rfl
@[simp] theorem State.setRes_isdDcnt (r : Nat) (s : State) : (s.setRes r).isdDcnt = s.isdDcnt := rfl
@[simp] theorem State.setRes_bfMax (r : Nat) (s : State) : (s.setRes r).bfMax = s.bfMax := rfl
@[simp] theorem State.setRes_bfIters (r : Nat) (s : State) : (s.setRes r).bfIters = s.bfIters := rfl
@[simp] theorem State.setRes_maddr (r : Nat) (s : State) : (s.setRes r).maddr = s.maddr := rfl
@[simp] theorem State.setRes_caddr (r : Nat) (s : State) : (s.setRes r).caddr = s.caddr := rfl
@[simp] theorem State.setRes_xaddr (r : Nat) (s : State) : (s.setRes r).xaddr = s.xaddr := rfl
@[simp] theorem State.setRes_inputs (r : Nat) (s : State) : (s.setRes r).inputs = s.inputs := rfl
@[simp] theorem State.setRes_drawInputs (r : Nat) (s : State) : (s.setRes r).drawInputs = s.drawInputs := rfl
@[simp] theorem State.setRes_lastResponse (r : Nat) (s : State) :
    (s.setRes r).lastResponse = s.lastResponse := rfl
@[simp] theorem State.setRes_freeCount (r : Nat) (s : State) : (s.setRes r).freeCount = s.freeCount := rfl

@[simp] theorem State.setResFlag_params (r : Nat) (b : Bool) (s : State) :
    (s.setResFlag r b).params = s.params := rfl
@[simp] theorem State.setResFlag_slots (r : Nat) (b : Bool) (s : State) :
    (s.setResFlag r b).slots = s.slots := rfl
@[simp] theorem State.setResFlag_cnt (r : Nat) (b : Bool) (s : State) : (s.setResFlag r b).cnt = s.cnt := rfl
@[simp] theorem State.setResFlag_xidx (r : Nat) (b : Bool) (s : State) :
    (s.setResFlag r b).xidx = s.xidx := rfl
@[simp] theorem State.setResFlag_engine (r : Nat) (b : Bool) (s : State) :
    (s.setResFlag r b).engine = s.engine := rfl
@[simp] theorem State.setResFlag_cmd (r : Nat) (b : Bool) (s : State) : (s.setResFlag r b).cmd = s.cmd := rfl
@[simp] theorem State.setResFlag_abortReq (r : Nat) (b : Bool) (s : State) :
    (s.setResFlag r b).abortReq = s.abortReq := rfl
@[simp] theorem State.setResFlag_scratch (r : Nat) (b : Bool) (s : State) :
    (s.setResFlag r b).scratch = s.scratch := rfl
@[simp] theorem State.setResFlag_prng (r : Nat) (b : Bool) (s : State) :
    (s.setResFlag r b).prng = s.prng := rfl
@[simp] theorem State.setResFlag_ie (r : Nat) (b : Bool) (s : State) : (s.setResFlag r b).ie = s.ie := rfl
@[simp] theorem State.setResFlag_done (r : Nat) (b : Bool) (s : State) :
    (s.setResFlag r b).done = s.done := rfl
@[simp] theorem State.setResFlag_flag (r : Nat) (b : Bool) (s : State) : (s.setResFlag r b).flag = b := rfl
@[simp] theorem State.setResFlag_cmdovr (r : Nat) (b : Bool) (s : State) :
    (s.setResFlag r b).cmdovr = s.cmdovr := rfl
@[simp] theorem State.setResFlag_haz (r : Nat) (b : Bool) (s : State) : (s.setResFlag r b).haz = s.haz := rfl
@[simp] theorem State.setResFlag_winerr (r : Nat) (b : Bool) (s : State) :
    (s.setResFlag r b).winerr = s.winerr := rfl
@[simp] theorem State.setResFlag_err (r : Nat) (b : Bool) (s : State) : (s.setResFlag r b).err = s.err := rfl
@[simp] theorem State.setResFlag_lastop (r : Nat) (b : Bool) (s : State) :
    (s.setResFlag r b).lastop = s.lastop := rfl
@[simp] theorem State.setResFlag_res (r : Nat) (b : Bool) (s : State) :
    (s.setResFlag r b).res = zext64 r := rfl
@[simp] theorem State.setResFlag_errinfo (r : Nat) (b : Bool) (s : State) :
    (s.setResFlag r b).errinfo = s.errinfo := rfl
@[simp] theorem State.setResFlag_seed (r : Nat) (b : Bool) (s : State) :
    (s.setResFlag r b).seed = s.seed := rfl
@[simp] theorem State.setResFlag_isdMax (r : Nat) (b : Bool) (s : State) :
    (s.setResFlag r b).isdMax = s.isdMax := rfl
@[simp] theorem State.setResFlag_isdTrials (r : Nat) (b : Bool) (s : State) :
    (s.setResFlag r b).isdTrials = s.isdTrials := rfl
@[simp] theorem State.setResFlag_isdSing (r : Nat) (b : Bool) (s : State) :
    (s.setResFlag r b).isdSing = s.isdSing := rfl
@[simp] theorem State.setResFlag_isdDthr (r : Nat) (b : Bool) (s : State) :
    (s.setResFlag r b).isdDthr = s.isdDthr := rfl
@[simp] theorem State.setResFlag_isdDcnt (r : Nat) (b : Bool) (s : State) :
    (s.setResFlag r b).isdDcnt = s.isdDcnt := rfl
@[simp] theorem State.setResFlag_bfMax (r : Nat) (b : Bool) (s : State) :
    (s.setResFlag r b).bfMax = s.bfMax := rfl
@[simp] theorem State.setResFlag_bfIters (r : Nat) (b : Bool) (s : State) :
    (s.setResFlag r b).bfIters = s.bfIters := rfl
@[simp] theorem State.setResFlag_maddr (r : Nat) (b : Bool) (s : State) :
    (s.setResFlag r b).maddr = s.maddr := rfl
@[simp] theorem State.setResFlag_caddr (r : Nat) (b : Bool) (s : State) :
    (s.setResFlag r b).caddr = s.caddr := rfl
@[simp] theorem State.setResFlag_xaddr (r : Nat) (b : Bool) (s : State) :
    (s.setResFlag r b).xaddr = s.xaddr := rfl
@[simp] theorem State.setResFlag_inputs (r : Nat) (b : Bool) (s : State) :
    (s.setResFlag r b).inputs = s.inputs := rfl
@[simp] theorem State.setResFlag_drawInputs (r : Nat) (b : Bool) (s : State) :
    (s.setResFlag r b).drawInputs = s.drawInputs := rfl
@[simp] theorem State.setResFlag_lastResponse (r : Nat) (b : Bool) (s : State) :
    (s.setResFlag r b).lastResponse = s.lastResponse := rfl
@[simp] theorem State.setResFlag_freeCount (r : Nat) (b : Bool) (s : State) :
    (s.setResFlag r b).freeCount = s.freeCount := rfl

@[simp] theorem State.setIsdCounters_params (sc : IsdScratch) (s : State) :
    (s.setIsdCounters sc).params = s.params := rfl
@[simp] theorem State.setIsdCounters_slots (sc : IsdScratch) (s : State) :
    (s.setIsdCounters sc).slots = s.slots := rfl
@[simp] theorem State.setIsdCounters_cnt (sc : IsdScratch) (s : State) :
    (s.setIsdCounters sc).cnt = s.cnt := rfl
@[simp] theorem State.setIsdCounters_xidx (sc : IsdScratch) (s : State) :
    (s.setIsdCounters sc).xidx = s.xidx := rfl
@[simp] theorem State.setIsdCounters_engine (sc : IsdScratch) (s : State) :
    (s.setIsdCounters sc).engine = s.engine := rfl
@[simp] theorem State.setIsdCounters_cmd (sc : IsdScratch) (s : State) :
    (s.setIsdCounters sc).cmd = s.cmd := rfl
@[simp] theorem State.setIsdCounters_abortReq (sc : IsdScratch) (s : State) :
    (s.setIsdCounters sc).abortReq = s.abortReq := rfl
@[simp] theorem State.setIsdCounters_scratch (sc : IsdScratch) (s : State) :
    (s.setIsdCounters sc).scratch = s.scratch := rfl
@[simp] theorem State.setIsdCounters_prng (sc : IsdScratch) (s : State) :
    (s.setIsdCounters sc).prng = s.prng := rfl
@[simp] theorem State.setIsdCounters_ie (sc : IsdScratch) (s : State) : (s.setIsdCounters sc).ie = s.ie := rfl
@[simp] theorem State.setIsdCounters_done (sc : IsdScratch) (s : State) :
    (s.setIsdCounters sc).done = s.done := rfl
@[simp] theorem State.setIsdCounters_flag (sc : IsdScratch) (s : State) :
    (s.setIsdCounters sc).flag = s.flag := rfl
@[simp] theorem State.setIsdCounters_cmdovr (sc : IsdScratch) (s : State) :
    (s.setIsdCounters sc).cmdovr = s.cmdovr := rfl
@[simp] theorem State.setIsdCounters_haz (sc : IsdScratch) (s : State) :
    (s.setIsdCounters sc).haz = s.haz := rfl
@[simp] theorem State.setIsdCounters_winerr (sc : IsdScratch) (s : State) :
    (s.setIsdCounters sc).winerr = s.winerr := rfl
@[simp] theorem State.setIsdCounters_err (sc : IsdScratch) (s : State) :
    (s.setIsdCounters sc).err = s.err := rfl
@[simp] theorem State.setIsdCounters_lastop (sc : IsdScratch) (s : State) :
    (s.setIsdCounters sc).lastop = s.lastop := rfl
@[simp] theorem State.setIsdCounters_res (sc : IsdScratch) (s : State) :
    (s.setIsdCounters sc).res = s.res := rfl
@[simp] theorem State.setIsdCounters_errinfo (sc : IsdScratch) (s : State) :
    (s.setIsdCounters sc).errinfo = s.errinfo := rfl
@[simp] theorem State.setIsdCounters_seed (sc : IsdScratch) (s : State) :
    (s.setIsdCounters sc).seed = s.seed := rfl
@[simp] theorem State.setIsdCounters_isdMax (sc : IsdScratch) (s : State) :
    (s.setIsdCounters sc).isdMax = s.isdMax := rfl
@[simp] theorem State.setIsdCounters_isdTrials (sc : IsdScratch) (s : State) :
    (s.setIsdCounters sc).isdTrials = sc.trials := rfl
@[simp] theorem State.setIsdCounters_isdSing (sc : IsdScratch) (s : State) :
    (s.setIsdCounters sc).isdSing = sc.sing := rfl
@[simp] theorem State.setIsdCounters_isdDthr (sc : IsdScratch) (s : State) :
    (s.setIsdCounters sc).isdDthr = s.isdDthr := rfl
@[simp] theorem State.setIsdCounters_isdDcnt (sc : IsdScratch) (s : State) :
    (s.setIsdCounters sc).isdDcnt = sc.dcnt := rfl
@[simp] theorem State.setIsdCounters_bfMax (sc : IsdScratch) (s : State) :
    (s.setIsdCounters sc).bfMax = s.bfMax := rfl
@[simp] theorem State.setIsdCounters_bfIters (sc : IsdScratch) (s : State) :
    (s.setIsdCounters sc).bfIters = s.bfIters := rfl
@[simp] theorem State.setIsdCounters_maddr (sc : IsdScratch) (s : State) :
    (s.setIsdCounters sc).maddr = s.maddr := rfl
@[simp] theorem State.setIsdCounters_caddr (sc : IsdScratch) (s : State) :
    (s.setIsdCounters sc).caddr = s.caddr := rfl
@[simp] theorem State.setIsdCounters_xaddr (sc : IsdScratch) (s : State) :
    (s.setIsdCounters sc).xaddr = s.xaddr := rfl
@[simp] theorem State.setIsdCounters_inputs (sc : IsdScratch) (s : State) :
    (s.setIsdCounters sc).inputs = s.inputs := rfl
@[simp] theorem State.setIsdCounters_drawInputs (sc : IsdScratch) (s : State) :
    (s.setIsdCounters sc).drawInputs = s.drawInputs := rfl
@[simp] theorem State.setIsdCounters_lastResponse (sc : IsdScratch) (s : State) :
    (s.setIsdCounters sc).lastResponse = s.lastResponse := rfl
@[simp] theorem State.setIsdCounters_freeCount (sc : IsdScratch) (s : State) :
    (s.setIsdCounters sc).freeCount = s.freeCount := rfl

@[simp] theorem State.setBfIters_params (it : Word) (s : State) : (s.setBfIters it).params = s.params := rfl
@[simp] theorem State.setBfIters_slots (it : Word) (s : State) : (s.setBfIters it).slots = s.slots := rfl
@[simp] theorem State.setBfIters_cnt (it : Word) (s : State) : (s.setBfIters it).cnt = s.cnt := rfl
@[simp] theorem State.setBfIters_xidx (it : Word) (s : State) : (s.setBfIters it).xidx = s.xidx := rfl
@[simp] theorem State.setBfIters_engine (it : Word) (s : State) : (s.setBfIters it).engine = s.engine := rfl
@[simp] theorem State.setBfIters_cmd (it : Word) (s : State) : (s.setBfIters it).cmd = s.cmd := rfl
@[simp] theorem State.setBfIters_abortReq (it : Word) (s : State) :
    (s.setBfIters it).abortReq = s.abortReq := rfl
@[simp] theorem State.setBfIters_scratch (it : Word) (s : State) :
    (s.setBfIters it).scratch = s.scratch := rfl
@[simp] theorem State.setBfIters_prng (it : Word) (s : State) : (s.setBfIters it).prng = s.prng := rfl
@[simp] theorem State.setBfIters_ie (it : Word) (s : State) : (s.setBfIters it).ie = s.ie := rfl
@[simp] theorem State.setBfIters_done (it : Word) (s : State) : (s.setBfIters it).done = s.done := rfl
@[simp] theorem State.setBfIters_flag (it : Word) (s : State) : (s.setBfIters it).flag = s.flag := rfl
@[simp] theorem State.setBfIters_cmdovr (it : Word) (s : State) : (s.setBfIters it).cmdovr = s.cmdovr := rfl
@[simp] theorem State.setBfIters_haz (it : Word) (s : State) : (s.setBfIters it).haz = s.haz := rfl
@[simp] theorem State.setBfIters_winerr (it : Word) (s : State) : (s.setBfIters it).winerr = s.winerr := rfl
@[simp] theorem State.setBfIters_err (it : Word) (s : State) : (s.setBfIters it).err = s.err := rfl
@[simp] theorem State.setBfIters_lastop (it : Word) (s : State) : (s.setBfIters it).lastop = s.lastop := rfl
@[simp] theorem State.setBfIters_res (it : Word) (s : State) : (s.setBfIters it).res = s.res := rfl
@[simp] theorem State.setBfIters_errinfo (it : Word) (s : State) :
    (s.setBfIters it).errinfo = s.errinfo := rfl
@[simp] theorem State.setBfIters_seed (it : Word) (s : State) : (s.setBfIters it).seed = s.seed := rfl
@[simp] theorem State.setBfIters_isdMax (it : Word) (s : State) : (s.setBfIters it).isdMax = s.isdMax := rfl
@[simp] theorem State.setBfIters_isdTrials (it : Word) (s : State) :
    (s.setBfIters it).isdTrials = s.isdTrials := rfl
@[simp] theorem State.setBfIters_isdSing (it : Word) (s : State) :
    (s.setBfIters it).isdSing = s.isdSing := rfl
@[simp] theorem State.setBfIters_isdDthr (it : Word) (s : State) :
    (s.setBfIters it).isdDthr = s.isdDthr := rfl
@[simp] theorem State.setBfIters_isdDcnt (it : Word) (s : State) :
    (s.setBfIters it).isdDcnt = s.isdDcnt := rfl
@[simp] theorem State.setBfIters_bfMax (it : Word) (s : State) : (s.setBfIters it).bfMax = s.bfMax := rfl
@[simp] theorem State.setBfIters_bfIters (it : Word) (s : State) : (s.setBfIters it).bfIters = it := rfl
@[simp] theorem State.setBfIters_maddr (it : Word) (s : State) : (s.setBfIters it).maddr = s.maddr := rfl
@[simp] theorem State.setBfIters_caddr (it : Word) (s : State) : (s.setBfIters it).caddr = s.caddr := rfl
@[simp] theorem State.setBfIters_xaddr (it : Word) (s : State) : (s.setBfIters it).xaddr = s.xaddr := rfl
@[simp] theorem State.setBfIters_inputs (it : Word) (s : State) : (s.setBfIters it).inputs = s.inputs := rfl
@[simp] theorem State.setBfIters_drawInputs (it : Word) (s : State) :
    (s.setBfIters it).drawInputs = s.drawInputs := rfl
@[simp] theorem State.setBfIters_lastResponse (it : Word) (s : State) :
    (s.setBfIters it).lastResponse = s.lastResponse := rfl
@[simp] theorem State.setBfIters_freeCount (it : Word) (s : State) :
    (s.setBfIters it).freeCount = s.freeCount := rfl

@[simp] theorem State.reseed_params (v : Word) (s : State) : (s.reseed v).params = s.params := rfl
@[simp] theorem State.reseed_slots (v : Word) (s : State) : (s.reseed v).slots = s.slots := rfl
@[simp] theorem State.reseed_cnt (v : Word) (s : State) : (s.reseed v).cnt = s.cnt := rfl
@[simp] theorem State.reseed_xidx (v : Word) (s : State) : (s.reseed v).xidx = s.xidx := rfl
@[simp] theorem State.reseed_engine (v : Word) (s : State) : (s.reseed v).engine = s.engine := rfl
@[simp] theorem State.reseed_cmd (v : Word) (s : State) : (s.reseed v).cmd = s.cmd := rfl
@[simp] theorem State.reseed_abortReq (v : Word) (s : State) : (s.reseed v).abortReq = s.abortReq := rfl
@[simp] theorem State.reseed_scratch (v : Word) (s : State) : (s.reseed v).scratch = s.scratch := rfl
@[simp] theorem State.reseed_prng (v : Word) (s : State) : (s.reseed v).prng = Config.seedFn v := rfl
@[simp] theorem State.reseed_ie (v : Word) (s : State) : (s.reseed v).ie = s.ie := rfl
@[simp] theorem State.reseed_done (v : Word) (s : State) : (s.reseed v).done = s.done := rfl
@[simp] theorem State.reseed_flag (v : Word) (s : State) : (s.reseed v).flag = s.flag := rfl
@[simp] theorem State.reseed_cmdovr (v : Word) (s : State) : (s.reseed v).cmdovr = s.cmdovr := rfl
@[simp] theorem State.reseed_haz (v : Word) (s : State) : (s.reseed v).haz = s.haz := rfl
@[simp] theorem State.reseed_winerr (v : Word) (s : State) : (s.reseed v).winerr = s.winerr := rfl
@[simp] theorem State.reseed_err (v : Word) (s : State) : (s.reseed v).err = s.err := rfl
@[simp] theorem State.reseed_lastop (v : Word) (s : State) : (s.reseed v).lastop = s.lastop := rfl
@[simp] theorem State.reseed_res (v : Word) (s : State) : (s.reseed v).res = s.res := rfl
@[simp] theorem State.reseed_errinfo (v : Word) (s : State) : (s.reseed v).errinfo = s.errinfo := rfl
@[simp] theorem State.reseed_seed (v : Word) (s : State) : (s.reseed v).seed = v := rfl
@[simp] theorem State.reseed_isdMax (v : Word) (s : State) : (s.reseed v).isdMax = s.isdMax := rfl
@[simp] theorem State.reseed_isdTrials (v : Word) (s : State) : (s.reseed v).isdTrials = s.isdTrials := rfl
@[simp] theorem State.reseed_isdSing (v : Word) (s : State) : (s.reseed v).isdSing = s.isdSing := rfl
@[simp] theorem State.reseed_isdDthr (v : Word) (s : State) : (s.reseed v).isdDthr = s.isdDthr := rfl
@[simp] theorem State.reseed_isdDcnt (v : Word) (s : State) : (s.reseed v).isdDcnt = s.isdDcnt := rfl
@[simp] theorem State.reseed_bfMax (v : Word) (s : State) : (s.reseed v).bfMax = s.bfMax := rfl
@[simp] theorem State.reseed_bfIters (v : Word) (s : State) : (s.reseed v).bfIters = s.bfIters := rfl
@[simp] theorem State.reseed_maddr (v : Word) (s : State) : (s.reseed v).maddr = s.maddr := rfl
@[simp] theorem State.reseed_caddr (v : Word) (s : State) : (s.reseed v).caddr = s.caddr := rfl
@[simp] theorem State.reseed_xaddr (v : Word) (s : State) : (s.reseed v).xaddr = s.xaddr := rfl
@[simp] theorem State.reseed_inputs (v : Word) (s : State) : (s.reseed v).inputs = s.inputs := rfl
@[simp] theorem State.reseed_drawInputs (v : Word) (s : State) : (s.reseed v).drawInputs = s.drawInputs := rfl
@[simp] theorem State.reseed_lastResponse (v : Word) (s : State) :
    (s.reseed v).lastResponse = s.lastResponse := rfl
@[simp] theorem State.reseed_freeCount (v : Word) (s : State) : (s.reseed v).freeCount = s.freeCount := rfl

@[simp] theorem State.accept_params (x : Word) (s : State) : (s.accept x).params = s.params := rfl
@[simp] theorem State.accept_slots (x : Word) (s : State) : (s.accept x).slots = s.slots := rfl
@[simp] theorem State.accept_cnt (x : Word) (s : State) : (s.accept x).cnt = s.cnt := rfl
@[simp] theorem State.accept_xidx (x : Word) (s : State) : (s.accept x).xidx = s.xidx := rfl
@[simp] theorem State.accept_engine (x : Word) (s : State) : (s.accept x).engine = .busy := rfl
@[simp] theorem State.accept_cmd (x : Word) (s : State) : (s.accept x).cmd = x := rfl
@[simp] theorem State.accept_abortReq (x : Word) (s : State) : (s.accept x).abortReq = false := rfl
@[simp] theorem State.accept_scratch (x : Word) (s : State) : (s.accept x).scratch = .none := rfl
@[simp] theorem State.accept_prng (x : Word) (s : State) : (s.accept x).prng = s.prng := rfl
@[simp] theorem State.accept_ie (x : Word) (s : State) : (s.accept x).ie = s.ie := rfl
@[simp] theorem State.accept_done (x : Word) (s : State) : (s.accept x).done = false := rfl
@[simp] theorem State.accept_flag (x : Word) (s : State) : (s.accept x).flag = s.flag := rfl
@[simp] theorem State.accept_cmdovr (x : Word) (s : State) : (s.accept x).cmdovr = s.cmdovr := rfl
@[simp] theorem State.accept_haz (x : Word) (s : State) : (s.accept x).haz = s.haz := rfl
@[simp] theorem State.accept_winerr (x : Word) (s : State) : (s.accept x).winerr = s.winerr := rfl
@[simp] theorem State.accept_err (x : Word) (s : State) : (s.accept x).err = .none := rfl
@[simp] theorem State.accept_lastop (x : Word) (s : State) : (s.accept x).lastop = x.extractLsb' 0 8 := rfl
@[simp] theorem State.accept_res (x : Word) (s : State) : (s.accept x).res = s.res := rfl
@[simp] theorem State.accept_errinfo (x : Word) (s : State) : (s.accept x).errinfo = s.errinfo := rfl
@[simp] theorem State.accept_seed (x : Word) (s : State) : (s.accept x).seed = s.seed := rfl
@[simp] theorem State.accept_isdMax (x : Word) (s : State) : (s.accept x).isdMax = s.isdMax := rfl
@[simp] theorem State.accept_isdTrials (x : Word) (s : State) : (s.accept x).isdTrials = s.isdTrials := rfl
@[simp] theorem State.accept_isdSing (x : Word) (s : State) : (s.accept x).isdSing = s.isdSing := rfl
@[simp] theorem State.accept_isdDthr (x : Word) (s : State) : (s.accept x).isdDthr = s.isdDthr := rfl
@[simp] theorem State.accept_isdDcnt (x : Word) (s : State) : (s.accept x).isdDcnt = s.isdDcnt := rfl
@[simp] theorem State.accept_bfMax (x : Word) (s : State) : (s.accept x).bfMax = s.bfMax := rfl
@[simp] theorem State.accept_bfIters (x : Word) (s : State) : (s.accept x).bfIters = s.bfIters := rfl
@[simp] theorem State.accept_maddr (x : Word) (s : State) : (s.accept x).maddr = s.maddr := rfl
@[simp] theorem State.accept_caddr (x : Word) (s : State) : (s.accept x).caddr = s.caddr := rfl
@[simp] theorem State.accept_xaddr (x : Word) (s : State) : (s.accept x).xaddr = s.xaddr := rfl
@[simp] theorem State.accept_inputs (x : Word) (s : State) : (s.accept x).inputs = s.inputs := rfl
@[simp] theorem State.accept_drawInputs (x : Word) (s : State) : (s.accept x).drawInputs = s.drawInputs := rfl
@[simp] theorem State.accept_lastResponse (x : Word) (s : State) :
    (s.accept x).lastResponse = s.lastResponse := rfl
@[simp] theorem State.accept_freeCount (x : Word) (s : State) : (s.accept x).freeCount = s.freeCount := rfl

@[simp] theorem State.finish_params (e : ErrCode) (n : Nat) (s : State) :
    (s.finish e n).params = s.params := rfl
@[simp] theorem State.finish_slots (e : ErrCode) (n : Nat) (s : State) : (s.finish e n).slots = s.slots := rfl
@[simp] theorem State.finish_cnt (e : ErrCode) (n : Nat) (s : State) : (s.finish e n).cnt = s.cnt := rfl
@[simp] theorem State.finish_xidx (e : ErrCode) (n : Nat) (s : State) : (s.finish e n).xidx = s.xidx := rfl
@[simp] theorem State.finish_engine (e : ErrCode) (n : Nat) (s : State) : (s.finish e n).engine = .idle := rfl
@[simp] theorem State.finish_cmd (e : ErrCode) (n : Nat) (s : State) : (s.finish e n).cmd = s.cmd := rfl
@[simp] theorem State.finish_abortReq (e : ErrCode) (n : Nat) (s : State) :
    (s.finish e n).abortReq = s.abortReq := rfl
@[simp] theorem State.finish_scratch (e : ErrCode) (n : Nat) (s : State) :
    (s.finish e n).scratch = .none := rfl
@[simp] theorem State.finish_prng (e : ErrCode) (n : Nat) (s : State) : (s.finish e n).prng = s.prng := rfl
@[simp] theorem State.finish_ie (e : ErrCode) (n : Nat) (s : State) : (s.finish e n).ie = s.ie := rfl
@[simp] theorem State.finish_done (e : ErrCode) (n : Nat) (s : State) : (s.finish e n).done = true := rfl
@[simp] theorem State.finish_flag (e : ErrCode) (n : Nat) (s : State) : (s.finish e n).flag = s.flag := rfl
@[simp] theorem State.finish_cmdovr (e : ErrCode) (n : Nat) (s : State) :
    (s.finish e n).cmdovr = s.cmdovr := rfl
@[simp] theorem State.finish_haz (e : ErrCode) (n : Nat) (s : State) : (s.finish e n).haz = s.haz := rfl
@[simp] theorem State.finish_winerr (e : ErrCode) (n : Nat) (s : State) :
    (s.finish e n).winerr = s.winerr := rfl
@[simp] theorem State.finish_err (e : ErrCode) (n : Nat) (s : State) : (s.finish e n).err = e := rfl
@[simp] theorem State.finish_lastop (e : ErrCode) (n : Nat) (s : State) :
    (s.finish e n).lastop = s.lastop := rfl
@[simp] theorem State.finish_res (e : ErrCode) (n : Nat) (s : State) : (s.finish e n).res = s.res := rfl
@[simp] theorem State.finish_errinfo (e : ErrCode) (n : Nat) (s : State) :
    (s.finish e n).errinfo = zext64 n := rfl
@[simp] theorem State.finish_seed (e : ErrCode) (n : Nat) (s : State) : (s.finish e n).seed = s.seed := rfl
@[simp] theorem State.finish_isdMax (e : ErrCode) (n : Nat) (s : State) :
    (s.finish e n).isdMax = s.isdMax := rfl
@[simp] theorem State.finish_isdTrials (e : ErrCode) (n : Nat) (s : State) :
    (s.finish e n).isdTrials = s.isdTrials := rfl
@[simp] theorem State.finish_isdSing (e : ErrCode) (n : Nat) (s : State) :
    (s.finish e n).isdSing = s.isdSing := rfl
@[simp] theorem State.finish_isdDthr (e : ErrCode) (n : Nat) (s : State) :
    (s.finish e n).isdDthr = s.isdDthr := rfl
@[simp] theorem State.finish_isdDcnt (e : ErrCode) (n : Nat) (s : State) :
    (s.finish e n).isdDcnt = s.isdDcnt := rfl
@[simp] theorem State.finish_bfMax (e : ErrCode) (n : Nat) (s : State) : (s.finish e n).bfMax = s.bfMax := rfl
@[simp] theorem State.finish_bfIters (e : ErrCode) (n : Nat) (s : State) :
    (s.finish e n).bfIters = s.bfIters := rfl
@[simp] theorem State.finish_maddr (e : ErrCode) (n : Nat) (s : State) : (s.finish e n).maddr = s.maddr := rfl
@[simp] theorem State.finish_caddr (e : ErrCode) (n : Nat) (s : State) : (s.finish e n).caddr = s.caddr := rfl
@[simp] theorem State.finish_xaddr (e : ErrCode) (n : Nat) (s : State) : (s.finish e n).xaddr = s.xaddr := rfl
@[simp] theorem State.finish_inputs (e : ErrCode) (n : Nat) (s : State) :
    (s.finish e n).inputs = s.inputs := rfl
@[simp] theorem State.finish_drawInputs (e : ErrCode) (n : Nat) (s : State) :
    (s.finish e n).drawInputs = s.drawInputs := rfl
@[simp] theorem State.finish_lastResponse (e : ErrCode) (n : Nat) (s : State) :
    (s.finish e n).lastResponse = s.lastResponse := rfl
@[simp] theorem State.finish_freeCount (e : ErrCode) (n : Nat) (s : State) :
    (s.finish e n).freeCount = s.freeCount := rfl

@[simp] theorem State.respond_params (e : Bool) (v : Word) (s : State) :
    (s.respond e v).params = s.params := rfl
@[simp] theorem State.respond_slots (e : Bool) (v : Word) (s : State) : (s.respond e v).slots = s.slots := rfl
@[simp] theorem State.respond_cnt (e : Bool) (v : Word) (s : State) : (s.respond e v).cnt = s.cnt := rfl
@[simp] theorem State.respond_xidx (e : Bool) (v : Word) (s : State) : (s.respond e v).xidx = s.xidx := rfl
@[simp] theorem State.respond_engine (e : Bool) (v : Word) (s : State) :
    (s.respond e v).engine = s.engine := rfl
@[simp] theorem State.respond_cmd (e : Bool) (v : Word) (s : State) : (s.respond e v).cmd = s.cmd := rfl
@[simp] theorem State.respond_abortReq (e : Bool) (v : Word) (s : State) :
    (s.respond e v).abortReq = s.abortReq := rfl
@[simp] theorem State.respond_scratch (e : Bool) (v : Word) (s : State) :
    (s.respond e v).scratch = s.scratch := rfl
@[simp] theorem State.respond_prng (e : Bool) (v : Word) (s : State) : (s.respond e v).prng = s.prng := rfl
@[simp] theorem State.respond_ie (e : Bool) (v : Word) (s : State) : (s.respond e v).ie = s.ie := rfl
@[simp] theorem State.respond_done (e : Bool) (v : Word) (s : State) : (s.respond e v).done = s.done := rfl
@[simp] theorem State.respond_flag (e : Bool) (v : Word) (s : State) : (s.respond e v).flag = s.flag := rfl
@[simp] theorem State.respond_cmdovr (e : Bool) (v : Word) (s : State) :
    (s.respond e v).cmdovr = s.cmdovr := rfl
@[simp] theorem State.respond_haz (e : Bool) (v : Word) (s : State) : (s.respond e v).haz = s.haz := rfl
@[simp] theorem State.respond_winerr (e : Bool) (v : Word) (s : State) :
    (s.respond e v).winerr = s.winerr := rfl
@[simp] theorem State.respond_err (e : Bool) (v : Word) (s : State) : (s.respond e v).err = s.err := rfl
@[simp] theorem State.respond_lastop (e : Bool) (v : Word) (s : State) :
    (s.respond e v).lastop = s.lastop := rfl
@[simp] theorem State.respond_res (e : Bool) (v : Word) (s : State) : (s.respond e v).res = s.res := rfl
@[simp] theorem State.respond_errinfo (e : Bool) (v : Word) (s : State) :
    (s.respond e v).errinfo = s.errinfo := rfl
@[simp] theorem State.respond_seed (e : Bool) (v : Word) (s : State) : (s.respond e v).seed = s.seed := rfl
@[simp] theorem State.respond_isdMax (e : Bool) (v : Word) (s : State) :
    (s.respond e v).isdMax = s.isdMax := rfl
@[simp] theorem State.respond_isdTrials (e : Bool) (v : Word) (s : State) :
    (s.respond e v).isdTrials = s.isdTrials := rfl
@[simp] theorem State.respond_isdSing (e : Bool) (v : Word) (s : State) :
    (s.respond e v).isdSing = s.isdSing := rfl
@[simp] theorem State.respond_isdDthr (e : Bool) (v : Word) (s : State) :
    (s.respond e v).isdDthr = s.isdDthr := rfl
@[simp] theorem State.respond_isdDcnt (e : Bool) (v : Word) (s : State) :
    (s.respond e v).isdDcnt = s.isdDcnt := rfl
@[simp] theorem State.respond_bfMax (e : Bool) (v : Word) (s : State) : (s.respond e v).bfMax = s.bfMax := rfl
@[simp] theorem State.respond_bfIters (e : Bool) (v : Word) (s : State) :
    (s.respond e v).bfIters = s.bfIters := rfl
@[simp] theorem State.respond_maddr (e : Bool) (v : Word) (s : State) : (s.respond e v).maddr = s.maddr := rfl
@[simp] theorem State.respond_caddr (e : Bool) (v : Word) (s : State) : (s.respond e v).caddr = s.caddr := rfl
@[simp] theorem State.respond_xaddr (e : Bool) (v : Word) (s : State) : (s.respond e v).xaddr = s.xaddr := rfl
@[simp] theorem State.respond_inputs (e : Bool) (v : Word) (s : State) :
    (s.respond e v).inputs = s.inputs := rfl
@[simp] theorem State.respond_drawInputs (e : Bool) (v : Word) (s : State) :
    (s.respond e v).drawInputs = s.drawInputs := rfl
@[simp] theorem State.respond_lastResponse (e : Bool) (v : Word) (s : State) :
    (s.respond e v).lastResponse = some { ack := true, err := e, rdata := v } := rfl
@[simp] theorem State.respond_freeCount (e : Bool) (v : Word) (s : State) :
    (s.respond e v).freeCount = s.freeCount := rfl

@[simp] theorem State.respondFree_params (a : Bool) (s : State) : (s.respondFree a).params = s.params := rfl
@[simp] theorem State.respondFree_slots (a : Bool) (s : State) : (s.respondFree a).slots = s.slots := rfl
@[simp] theorem State.respondFree_cnt (a : Bool) (s : State) : (s.respondFree a).cnt = s.cnt := rfl
@[simp] theorem State.respondFree_xidx (a : Bool) (s : State) : (s.respondFree a).xidx = s.xidx := rfl
@[simp] theorem State.respondFree_engine (a : Bool) (s : State) : (s.respondFree a).engine = s.engine := rfl
@[simp] theorem State.respondFree_cmd (a : Bool) (s : State) : (s.respondFree a).cmd = s.cmd := rfl
@[simp] theorem State.respondFree_abortReq (a : Bool) (s : State) :
    (s.respondFree a).abortReq = s.abortReq := rfl
@[simp] theorem State.respondFree_scratch (a : Bool) (s : State) :
    (s.respondFree a).scratch = s.scratch := rfl
@[simp] theorem State.respondFree_prng (a : Bool) (s : State) : (s.respondFree a).prng = s.prng := rfl
@[simp] theorem State.respondFree_ie (a : Bool) (s : State) : (s.respondFree a).ie = s.ie := rfl
@[simp] theorem State.respondFree_done (a : Bool) (s : State) : (s.respondFree a).done = s.done := rfl
@[simp] theorem State.respondFree_flag (a : Bool) (s : State) : (s.respondFree a).flag = s.flag := rfl
@[simp] theorem State.respondFree_cmdovr (a : Bool) (s : State) : (s.respondFree a).cmdovr = s.cmdovr := rfl
@[simp] theorem State.respondFree_haz (a : Bool) (s : State) : (s.respondFree a).haz = s.haz := rfl
@[simp] theorem State.respondFree_winerr (a : Bool) (s : State) : (s.respondFree a).winerr = s.winerr := rfl
@[simp] theorem State.respondFree_err (a : Bool) (s : State) : (s.respondFree a).err = s.err := rfl
@[simp] theorem State.respondFree_lastop (a : Bool) (s : State) : (s.respondFree a).lastop = s.lastop := rfl
@[simp] theorem State.respondFree_res (a : Bool) (s : State) : (s.respondFree a).res = s.res := rfl
@[simp] theorem State.respondFree_errinfo (a : Bool) (s : State) :
    (s.respondFree a).errinfo = s.errinfo := rfl
@[simp] theorem State.respondFree_seed (a : Bool) (s : State) : (s.respondFree a).seed = s.seed := rfl
@[simp] theorem State.respondFree_isdMax (a : Bool) (s : State) : (s.respondFree a).isdMax = s.isdMax := rfl
@[simp] theorem State.respondFree_isdTrials (a : Bool) (s : State) :
    (s.respondFree a).isdTrials = s.isdTrials := rfl
@[simp] theorem State.respondFree_isdSing (a : Bool) (s : State) :
    (s.respondFree a).isdSing = s.isdSing := rfl
@[simp] theorem State.respondFree_isdDthr (a : Bool) (s : State) :
    (s.respondFree a).isdDthr = s.isdDthr := rfl
@[simp] theorem State.respondFree_isdDcnt (a : Bool) (s : State) :
    (s.respondFree a).isdDcnt = s.isdDcnt := rfl
@[simp] theorem State.respondFree_bfMax (a : Bool) (s : State) : (s.respondFree a).bfMax = s.bfMax := rfl
@[simp] theorem State.respondFree_bfIters (a : Bool) (s : State) :
    (s.respondFree a).bfIters = s.bfIters := rfl
@[simp] theorem State.respondFree_maddr (a : Bool) (s : State) : (s.respondFree a).maddr = s.maddr := rfl
@[simp] theorem State.respondFree_caddr (a : Bool) (s : State) : (s.respondFree a).caddr = s.caddr := rfl
@[simp] theorem State.respondFree_xaddr (a : Bool) (s : State) : (s.respondFree a).xaddr = s.xaddr := rfl
@[simp] theorem State.respondFree_inputs (a : Bool) (s : State) : (s.respondFree a).inputs = s.inputs := rfl
@[simp] theorem State.respondFree_drawInputs (a : Bool) (s : State) :
    (s.respondFree a).drawInputs = s.drawInputs := rfl
@[simp] theorem State.respondFree_lastResponse (a : Bool) (s : State) :
    (s.respondFree a).lastResponse = some { ack := a, err := false, rdata := Config.freeRdata s.freeCount } := rfl
@[simp] theorem State.respondFree_freeCount (a : Bool) (s : State) :
    (s.respondFree a).freeCount = s.freeCount + 1 := rfl

@[simp] theorem State.setHaz_params (s : State) : s.setHaz.params = s.params := rfl
@[simp] theorem State.setHaz_slots (s : State) : s.setHaz.slots = s.slots := rfl
@[simp] theorem State.setHaz_cnt (s : State) : s.setHaz.cnt = s.cnt := rfl
@[simp] theorem State.setHaz_xidx (s : State) : s.setHaz.xidx = s.xidx := rfl
@[simp] theorem State.setHaz_engine (s : State) : s.setHaz.engine = s.engine := rfl
@[simp] theorem State.setHaz_cmd (s : State) : s.setHaz.cmd = s.cmd := rfl
@[simp] theorem State.setHaz_abortReq (s : State) : s.setHaz.abortReq = s.abortReq := rfl
@[simp] theorem State.setHaz_scratch (s : State) : s.setHaz.scratch = s.scratch := rfl
@[simp] theorem State.setHaz_prng (s : State) : s.setHaz.prng = s.prng := rfl
@[simp] theorem State.setHaz_ie (s : State) : s.setHaz.ie = s.ie := rfl
@[simp] theorem State.setHaz_done (s : State) : s.setHaz.done = s.done := rfl
@[simp] theorem State.setHaz_flag (s : State) : s.setHaz.flag = s.flag := rfl
@[simp] theorem State.setHaz_cmdovr (s : State) : s.setHaz.cmdovr = s.cmdovr := rfl
@[simp] theorem State.setHaz_haz (s : State) : s.setHaz.haz = true := rfl
@[simp] theorem State.setHaz_winerr (s : State) : s.setHaz.winerr = s.winerr := rfl
@[simp] theorem State.setHaz_err (s : State) : s.setHaz.err = s.err := rfl
@[simp] theorem State.setHaz_lastop (s : State) : s.setHaz.lastop = s.lastop := rfl
@[simp] theorem State.setHaz_res (s : State) : s.setHaz.res = s.res := rfl
@[simp] theorem State.setHaz_errinfo (s : State) : s.setHaz.errinfo = s.errinfo := rfl
@[simp] theorem State.setHaz_seed (s : State) : s.setHaz.seed = s.seed := rfl
@[simp] theorem State.setHaz_isdMax (s : State) : s.setHaz.isdMax = s.isdMax := rfl
@[simp] theorem State.setHaz_isdTrials (s : State) : s.setHaz.isdTrials = s.isdTrials := rfl
@[simp] theorem State.setHaz_isdSing (s : State) : s.setHaz.isdSing = s.isdSing := rfl
@[simp] theorem State.setHaz_isdDthr (s : State) : s.setHaz.isdDthr = s.isdDthr := rfl
@[simp] theorem State.setHaz_isdDcnt (s : State) : s.setHaz.isdDcnt = s.isdDcnt := rfl
@[simp] theorem State.setHaz_bfMax (s : State) : s.setHaz.bfMax = s.bfMax := rfl
@[simp] theorem State.setHaz_bfIters (s : State) : s.setHaz.bfIters = s.bfIters := rfl
@[simp] theorem State.setHaz_maddr (s : State) : s.setHaz.maddr = s.maddr := rfl
@[simp] theorem State.setHaz_caddr (s : State) : s.setHaz.caddr = s.caddr := rfl
@[simp] theorem State.setHaz_xaddr (s : State) : s.setHaz.xaddr = s.xaddr := rfl
@[simp] theorem State.setHaz_inputs (s : State) : s.setHaz.inputs = s.inputs := rfl
@[simp] theorem State.setHaz_drawInputs (s : State) : s.setHaz.drawInputs = s.drawInputs := rfl
@[simp] theorem State.setHaz_lastResponse (s : State) : s.setHaz.lastResponse = s.lastResponse := rfl
@[simp] theorem State.setHaz_freeCount (s : State) : s.setHaz.freeCount = s.freeCount := rfl

@[simp] theorem State.setWinerr_params (s : State) : s.setWinerr.params = s.params := rfl
@[simp] theorem State.setWinerr_slots (s : State) : s.setWinerr.slots = s.slots := rfl
@[simp] theorem State.setWinerr_cnt (s : State) : s.setWinerr.cnt = s.cnt := rfl
@[simp] theorem State.setWinerr_xidx (s : State) : s.setWinerr.xidx = s.xidx := rfl
@[simp] theorem State.setWinerr_engine (s : State) : s.setWinerr.engine = s.engine := rfl
@[simp] theorem State.setWinerr_cmd (s : State) : s.setWinerr.cmd = s.cmd := rfl
@[simp] theorem State.setWinerr_abortReq (s : State) : s.setWinerr.abortReq = s.abortReq := rfl
@[simp] theorem State.setWinerr_scratch (s : State) : s.setWinerr.scratch = s.scratch := rfl
@[simp] theorem State.setWinerr_prng (s : State) : s.setWinerr.prng = s.prng := rfl
@[simp] theorem State.setWinerr_ie (s : State) : s.setWinerr.ie = s.ie := rfl
@[simp] theorem State.setWinerr_done (s : State) : s.setWinerr.done = s.done := rfl
@[simp] theorem State.setWinerr_flag (s : State) : s.setWinerr.flag = s.flag := rfl
@[simp] theorem State.setWinerr_cmdovr (s : State) : s.setWinerr.cmdovr = s.cmdovr := rfl
@[simp] theorem State.setWinerr_haz (s : State) : s.setWinerr.haz = s.haz := rfl
@[simp] theorem State.setWinerr_winerr (s : State) : s.setWinerr.winerr = true := rfl
@[simp] theorem State.setWinerr_err (s : State) : s.setWinerr.err = s.err := rfl
@[simp] theorem State.setWinerr_lastop (s : State) : s.setWinerr.lastop = s.lastop := rfl
@[simp] theorem State.setWinerr_res (s : State) : s.setWinerr.res = s.res := rfl
@[simp] theorem State.setWinerr_errinfo (s : State) : s.setWinerr.errinfo = s.errinfo := rfl
@[simp] theorem State.setWinerr_seed (s : State) : s.setWinerr.seed = s.seed := rfl
@[simp] theorem State.setWinerr_isdMax (s : State) : s.setWinerr.isdMax = s.isdMax := rfl
@[simp] theorem State.setWinerr_isdTrials (s : State) : s.setWinerr.isdTrials = s.isdTrials := rfl
@[simp] theorem State.setWinerr_isdSing (s : State) : s.setWinerr.isdSing = s.isdSing := rfl
@[simp] theorem State.setWinerr_isdDthr (s : State) : s.setWinerr.isdDthr = s.isdDthr := rfl
@[simp] theorem State.setWinerr_isdDcnt (s : State) : s.setWinerr.isdDcnt = s.isdDcnt := rfl
@[simp] theorem State.setWinerr_bfMax (s : State) : s.setWinerr.bfMax = s.bfMax := rfl
@[simp] theorem State.setWinerr_bfIters (s : State) : s.setWinerr.bfIters = s.bfIters := rfl
@[simp] theorem State.setWinerr_maddr (s : State) : s.setWinerr.maddr = s.maddr := rfl
@[simp] theorem State.setWinerr_caddr (s : State) : s.setWinerr.caddr = s.caddr := rfl
@[simp] theorem State.setWinerr_xaddr (s : State) : s.setWinerr.xaddr = s.xaddr := rfl
@[simp] theorem State.setWinerr_inputs (s : State) : s.setWinerr.inputs = s.inputs := rfl
@[simp] theorem State.setWinerr_drawInputs (s : State) : s.setWinerr.drawInputs = s.drawInputs := rfl
@[simp] theorem State.setWinerr_lastResponse (s : State) : s.setWinerr.lastResponse = s.lastResponse := rfl
@[simp] theorem State.setWinerr_freeCount (s : State) : s.setWinerr.freeCount = s.freeCount := rfl

@[simp] theorem State.setCmdovr_params (s : State) : s.setCmdovr.params = s.params := rfl
@[simp] theorem State.setCmdovr_slots (s : State) : s.setCmdovr.slots = s.slots := rfl
@[simp] theorem State.setCmdovr_cnt (s : State) : s.setCmdovr.cnt = s.cnt := rfl
@[simp] theorem State.setCmdovr_xidx (s : State) : s.setCmdovr.xidx = s.xidx := rfl
@[simp] theorem State.setCmdovr_engine (s : State) : s.setCmdovr.engine = s.engine := rfl
@[simp] theorem State.setCmdovr_cmd (s : State) : s.setCmdovr.cmd = s.cmd := rfl
@[simp] theorem State.setCmdovr_abortReq (s : State) : s.setCmdovr.abortReq = s.abortReq := rfl
@[simp] theorem State.setCmdovr_scratch (s : State) : s.setCmdovr.scratch = s.scratch := rfl
@[simp] theorem State.setCmdovr_prng (s : State) : s.setCmdovr.prng = s.prng := rfl
@[simp] theorem State.setCmdovr_ie (s : State) : s.setCmdovr.ie = s.ie := rfl
@[simp] theorem State.setCmdovr_done (s : State) : s.setCmdovr.done = s.done := rfl
@[simp] theorem State.setCmdovr_flag (s : State) : s.setCmdovr.flag = s.flag := rfl
@[simp] theorem State.setCmdovr_cmdovr (s : State) : s.setCmdovr.cmdovr = true := rfl
@[simp] theorem State.setCmdovr_haz (s : State) : s.setCmdovr.haz = s.haz := rfl
@[simp] theorem State.setCmdovr_winerr (s : State) : s.setCmdovr.winerr = s.winerr := rfl
@[simp] theorem State.setCmdovr_err (s : State) : s.setCmdovr.err = s.err := rfl
@[simp] theorem State.setCmdovr_lastop (s : State) : s.setCmdovr.lastop = s.lastop := rfl
@[simp] theorem State.setCmdovr_res (s : State) : s.setCmdovr.res = s.res := rfl
@[simp] theorem State.setCmdovr_errinfo (s : State) : s.setCmdovr.errinfo = s.errinfo := rfl
@[simp] theorem State.setCmdovr_seed (s : State) : s.setCmdovr.seed = s.seed := rfl
@[simp] theorem State.setCmdovr_isdMax (s : State) : s.setCmdovr.isdMax = s.isdMax := rfl
@[simp] theorem State.setCmdovr_isdTrials (s : State) : s.setCmdovr.isdTrials = s.isdTrials := rfl
@[simp] theorem State.setCmdovr_isdSing (s : State) : s.setCmdovr.isdSing = s.isdSing := rfl
@[simp] theorem State.setCmdovr_isdDthr (s : State) : s.setCmdovr.isdDthr = s.isdDthr := rfl
@[simp] theorem State.setCmdovr_isdDcnt (s : State) : s.setCmdovr.isdDcnt = s.isdDcnt := rfl
@[simp] theorem State.setCmdovr_bfMax (s : State) : s.setCmdovr.bfMax = s.bfMax := rfl
@[simp] theorem State.setCmdovr_bfIters (s : State) : s.setCmdovr.bfIters = s.bfIters := rfl
@[simp] theorem State.setCmdovr_maddr (s : State) : s.setCmdovr.maddr = s.maddr := rfl
@[simp] theorem State.setCmdovr_caddr (s : State) : s.setCmdovr.caddr = s.caddr := rfl
@[simp] theorem State.setCmdovr_xaddr (s : State) : s.setCmdovr.xaddr = s.xaddr := rfl
@[simp] theorem State.setCmdovr_inputs (s : State) : s.setCmdovr.inputs = s.inputs := rfl
@[simp] theorem State.setCmdovr_drawInputs (s : State) : s.setCmdovr.drawInputs = s.drawInputs := rfl
@[simp] theorem State.setCmdovr_lastResponse (s : State) : s.setCmdovr.lastResponse = s.lastResponse := rfl
@[simp] theorem State.setCmdovr_freeCount (s : State) : s.setCmdovr.freeCount = s.freeCount := rfl

@[simp] theorem State.clearStatus_params (v : Word) (s : State) : (s.clearStatus v).params = s.params := rfl
@[simp] theorem State.clearStatus_slots (v : Word) (s : State) : (s.clearStatus v).slots = s.slots := rfl
@[simp] theorem State.clearStatus_cnt (v : Word) (s : State) : (s.clearStatus v).cnt = s.cnt := rfl
@[simp] theorem State.clearStatus_xidx (v : Word) (s : State) : (s.clearStatus v).xidx = s.xidx := rfl
@[simp] theorem State.clearStatus_engine (v : Word) (s : State) : (s.clearStatus v).engine = s.engine := rfl
@[simp] theorem State.clearStatus_cmd (v : Word) (s : State) : (s.clearStatus v).cmd = s.cmd := rfl
@[simp] theorem State.clearStatus_abortReq (v : Word) (s : State) :
    (s.clearStatus v).abortReq = s.abortReq := rfl
@[simp] theorem State.clearStatus_scratch (v : Word) (s : State) :
    (s.clearStatus v).scratch = s.scratch := rfl
@[simp] theorem State.clearStatus_prng (v : Word) (s : State) : (s.clearStatus v).prng = s.prng := rfl
@[simp] theorem State.clearStatus_ie (v : Word) (s : State) : (s.clearStatus v).ie = s.ie := rfl
@[simp] theorem State.clearStatus_done (v : Word) (s : State) :
    (s.clearStatus v).done = (s.done && !v.getLsbD 1) := rfl
@[simp] theorem State.clearStatus_flag (v : Word) (s : State) : (s.clearStatus v).flag = s.flag := rfl
@[simp] theorem State.clearStatus_cmdovr (v : Word) (s : State) :
    (s.clearStatus v).cmdovr = (s.cmdovr && !v.getLsbD 3) := rfl
@[simp] theorem State.clearStatus_haz (v : Word) (s : State) :
    (s.clearStatus v).haz = (s.haz && !v.getLsbD 4) := rfl
@[simp] theorem State.clearStatus_winerr (v : Word) (s : State) :
    (s.clearStatus v).winerr = (s.winerr && !v.getLsbD 5) := rfl
@[simp] theorem State.clearStatus_err (v : Word) (s : State) : (s.clearStatus v).err = s.err := rfl
@[simp] theorem State.clearStatus_lastop (v : Word) (s : State) : (s.clearStatus v).lastop = s.lastop := rfl
@[simp] theorem State.clearStatus_res (v : Word) (s : State) : (s.clearStatus v).res = s.res := rfl
@[simp] theorem State.clearStatus_errinfo (v : Word) (s : State) :
    (s.clearStatus v).errinfo = s.errinfo := rfl
@[simp] theorem State.clearStatus_seed (v : Word) (s : State) : (s.clearStatus v).seed = s.seed := rfl
@[simp] theorem State.clearStatus_isdMax (v : Word) (s : State) : (s.clearStatus v).isdMax = s.isdMax := rfl
@[simp] theorem State.clearStatus_isdTrials (v : Word) (s : State) :
    (s.clearStatus v).isdTrials = s.isdTrials := rfl
@[simp] theorem State.clearStatus_isdSing (v : Word) (s : State) :
    (s.clearStatus v).isdSing = s.isdSing := rfl
@[simp] theorem State.clearStatus_isdDthr (v : Word) (s : State) :
    (s.clearStatus v).isdDthr = s.isdDthr := rfl
@[simp] theorem State.clearStatus_isdDcnt (v : Word) (s : State) :
    (s.clearStatus v).isdDcnt = s.isdDcnt := rfl
@[simp] theorem State.clearStatus_bfMax (v : Word) (s : State) : (s.clearStatus v).bfMax = s.bfMax := rfl
@[simp] theorem State.clearStatus_bfIters (v : Word) (s : State) :
    (s.clearStatus v).bfIters = s.bfIters := rfl
@[simp] theorem State.clearStatus_maddr (v : Word) (s : State) : (s.clearStatus v).maddr = s.maddr := rfl
@[simp] theorem State.clearStatus_caddr (v : Word) (s : State) : (s.clearStatus v).caddr = s.caddr := rfl
@[simp] theorem State.clearStatus_xaddr (v : Word) (s : State) : (s.clearStatus v).xaddr = s.xaddr := rfl
@[simp] theorem State.clearStatus_inputs (v : Word) (s : State) : (s.clearStatus v).inputs = s.inputs := rfl
@[simp] theorem State.clearStatus_drawInputs (v : Word) (s : State) :
    (s.clearStatus v).drawInputs = s.drawInputs := rfl
@[simp] theorem State.clearStatus_lastResponse (v : Word) (s : State) :
    (s.clearStatus v).lastResponse = s.lastResponse := rfl
@[simp] theorem State.clearStatus_freeCount (v : Word) (s : State) :
    (s.clearStatus v).freeCount = s.freeCount := rfl

@[simp] theorem State.resetEngine_params (s : State) : s.resetEngine.params = s.params := rfl
@[simp] theorem State.resetEngine_slots (s : State) : s.resetEngine.slots = Vector.replicate 16 none := rfl
@[simp] theorem State.resetEngine_cnt (s : State) : s.resetEngine.cnt = none := rfl
@[simp] theorem State.resetEngine_xidx (s : State) : s.resetEngine.xidx = none := rfl
@[simp] theorem State.resetEngine_engine (s : State) : s.resetEngine.engine = .idle := rfl
@[simp] theorem State.resetEngine_cmd (s : State) : s.resetEngine.cmd = 0 := rfl
@[simp] theorem State.resetEngine_abortReq (s : State) : s.resetEngine.abortReq = false := rfl
@[simp] theorem State.resetEngine_scratch (s : State) : s.resetEngine.scratch = .none := rfl
@[simp] theorem State.resetEngine_prng (s : State) : s.resetEngine.prng = Config.seedFn s.params.seedReset := rfl
@[simp] theorem State.resetEngine_ie (s : State) : s.resetEngine.ie = false := rfl
@[simp] theorem State.resetEngine_done (s : State) : s.resetEngine.done = false := rfl
@[simp] theorem State.resetEngine_flag (s : State) : s.resetEngine.flag = false := rfl
@[simp] theorem State.resetEngine_cmdovr (s : State) : s.resetEngine.cmdovr = false := rfl
@[simp] theorem State.resetEngine_haz (s : State) : s.resetEngine.haz = false := rfl
@[simp] theorem State.resetEngine_winerr (s : State) : s.resetEngine.winerr = false := rfl
@[simp] theorem State.resetEngine_err (s : State) : s.resetEngine.err = .none := rfl
@[simp] theorem State.resetEngine_lastop (s : State) : s.resetEngine.lastop = 0 := rfl
@[simp] theorem State.resetEngine_res (s : State) : s.resetEngine.res = 0 := rfl
@[simp] theorem State.resetEngine_errinfo (s : State) : s.resetEngine.errinfo = 0 := rfl
@[simp] theorem State.resetEngine_seed (s : State) : s.resetEngine.seed = s.params.seedReset := rfl
@[simp] theorem State.resetEngine_isdMax (s : State) : s.resetEngine.isdMax = 0 := rfl
@[simp] theorem State.resetEngine_isdTrials (s : State) : s.resetEngine.isdTrials = 0 := rfl
@[simp] theorem State.resetEngine_isdSing (s : State) : s.resetEngine.isdSing = 0 := rfl
@[simp] theorem State.resetEngine_isdDthr (s : State) : s.resetEngine.isdDthr = 0 := rfl
@[simp] theorem State.resetEngine_isdDcnt (s : State) : s.resetEngine.isdDcnt = 0 := rfl
@[simp] theorem State.resetEngine_bfMax (s : State) : s.resetEngine.bfMax = 0 := rfl
@[simp] theorem State.resetEngine_bfIters (s : State) : s.resetEngine.bfIters = 0 := rfl
@[simp] theorem State.resetEngine_maddr (s : State) : s.resetEngine.maddr = { slot := 0, word := 0, row := 0 } := rfl
@[simp] theorem State.resetEngine_caddr (s : State) : s.resetEngine.caddr = 0 := rfl
@[simp] theorem State.resetEngine_xaddr (s : State) : s.resetEngine.xaddr = 0 := rfl
@[simp] theorem State.resetEngine_inputs (s : State) : s.resetEngine.inputs = s.inputs := rfl
@[simp] theorem State.resetEngine_drawInputs (s : State) : s.resetEngine.drawInputs = s.drawInputs := rfl
@[simp] theorem State.resetEngine_lastResponse (s : State) : s.resetEngine.lastResponse = s.lastResponse := rfl
@[simp] theorem State.resetEngine_freeCount (s : State) : s.resetEngine.freeCount = s.freeCount := rfl

end Sys2Proof.Machine
end

