-- ==== Sys2Proof/Laws/Ops.lean ====
section
/-! SUPPORT. The shared operations: what reading an operand, a check, a raise, a completion and a draw can
do, each said once. -/

namespace Sys2Proof.Machine

theorem complete_eq (s : State) : complete s = .next (s.finish .none 0) := rfl

theorem raise_eq (e : ErrCode) (n : Nat) (s : State) : raise e n s = .next (s.finish e n) := rfl

theorem goOn_eq (sc : Scratch) (s : State) : goOn sc s = .next (s.setScratch sc) := rfl

theorem completeWith_eq (md : SlotId) (M : BitMatrix) (s : State) :
    completeWith md M s = .next ((s.setSlot md M).finish .none 0) := rfl

/-- A read of a full slot goes on with its matrix (10_state.md R31). -/
theorem withSlot_some {f : OperandField} {d : SlotId} {s : State} {k : BitMatrix → Result} {M : BitMatrix}
    (h : s.slot d = some M) : withSlot f d s k = k M := by simp [withSlot, h]

/-- A read of an EMPTY slot raises EMPTY_OPERAND (10_state.md R31). -/
theorem withSlot_none {f : OperandField} {d : SlotId} {s : State} {k : BitMatrix → Result}
    (h : s.slot d = none) : withSlot f d s k = raise .emptyOperand f.errinfo s := by simp [withSlot, h]

/-- All a slot read can do. -/
theorem withSlot_next {f : OperandField} {d : SlotId} {s t : State} {k : BitMatrix → Result}
    (h : withSlot f d s k = .next t) :
    (s.slot d = none ∧ t = s.finish .emptyOperand f.errinfo) ∨ ∃ M, s.slot d = some M ∧ k M = .next t := by
  cases hd : s.slot d with
  | none => rw [withSlot_none hd] at h; exact .inl ⟨rfl, by simpa [raise] using h.symm⟩
  | some M => rw [withSlot_some hd] at h; exact .inr ⟨M, rfl, h⟩

/-- A check that holds goes on. -/
theorem check_pos {p : Prop} [Decidable p] {e : ErrCode} {n : Nat} {s : State} {k : Result} (h : p) :
    check p e n s k = k := by simp [check, h]

/-- A check that fails raises its error. -/
theorem check_neg {p : Prop} [Decidable p] {e : ErrCode} {n : Nat} {s : State} {k : Result} (h : ¬ p) :
    check p e n s k = raise e n s := by simp [check, h]

/-- All a check can do. -/
theorem check_next {p : Prop} [Decidable p] {e : ErrCode} {n : Nat} {s t : State} {k : Result}
    (h : check p e n s k = .next t) : (¬ p ∧ t = s.finish e n) ∨ (p ∧ k = .next t) := by
  by_cases hp : p
  · rw [check_pos hp] at h; exact .inr ⟨hp, h⟩
  · rw [check_neg hp] at h; exact .inl ⟨hp, by simpa [raise] using h.symm⟩

/-- The slot just written. -/
@[simp] theorem slot_setSlot_self (d : SlotId) (M : BitMatrix) (s : State) :
    (s.setSlot d M).slot d = some M := by simp [State.slot, State.setSlot]

/-- Every other slot keeps its content. -/
theorem slot_setSlot_ne {d e : SlotId} (M : BitMatrix) (s : State) (h : e ≠ d) :
    (s.setSlot d M).slot e = s.slot e := by
  have : d.val ≠ e.val := fun hv => h (Fin.ext hv.symm)
  simp [State.slot, State.setSlot, this]

/-- A state with the same slots has the same slot contents. -/
theorem slot_congr {s t : State} (h : t.slots = s.slots) (d : SlotId) : t.slot d = s.slot d := by
  simp [State.slot, h]

@[simp] theorem slot_finish (e : ErrCode) (n : Nat) (s : State) (d : SlotId) :
    (s.finish e n).slot d = s.slot d := rfl

/-- A draw is below its bound (00_scope.md R20). -/
theorem draw_lt {m : Nat} (s : State) (h : 0 < m) : (draw m s).1 < m := by
  unfold draw
  split <;> exact Nat.mod_lt _ h

/-- A supplied draw is used up and brought below the bound (00_scope.md R16). -/
theorem draw_supplied {s : State} {x : Nat} {xs : List Nat} (m : Nat) (h : s.drawInputs = x :: xs) :
    draw m s = (x % m, { s with drawInputs := xs }) := by simp [draw, h]

/-- A draw changes only the generator and the supplied draws. -/
theorem draw_snd (m : Nat) (s : State) :
    ∃ g l, (draw m s).2 = { s with prng := g, drawInputs := l } := by
  unfold draw
  split
  · exact ⟨s.prng, _, rfl⟩
  · rename_i h
    exact ⟨Config.drawNext s.prng m, [], by simp [← h]⟩

/-- A column draw changes only the generator and the supplied draws. -/
theorem drawColumn_snd (c : Nat) (idx : List Nat) (s : State) :
    ∃ g l, (drawColumn c idx s).2 = { s with prng := g, drawInputs := l } := draw_snd c s

/-- RAND's draws change only the generator and the supplied draws. -/
theorem drawBits_snd (n : Nat) (s : State) :
    ∃ g l, (drawBits n s).2 = { s with prng := g, drawInputs := l } := by
  induction n generalizing s with
  | zero => exact ⟨s.prng, s.drawInputs, rfl⟩
  | succ n ih =>
    obtain ⟨g, l, h⟩ := draw_snd 2 s
    obtain ⟨g', l', h'⟩ := ih (draw 2 s).2
    exact ⟨g', l', by rw [drawBits, h']; simp [h]⟩

/-- RAND draws one bit per cell. -/
@[simp] theorem length_drawBits (n : Nat) (s : State) : (drawBits n s).1.length = n := by
  induction n generalizing s with
  | zero => rfl
  | succ n ih => simp [drawBits, ih]

@[simp] theorem draw_params (m : Nat) (s : State) : (draw m s).2.params = s.params := by
  obtain ⟨g, l, h⟩ := draw_snd m s; rw [h]
@[simp] theorem drawColumn_params (c : Nat) (idx : List Nat) (s : State) : (drawColumn c idx s).2.params = s.params :=
  draw_params c s
@[simp] theorem drawBits_params (n : Nat) (s : State) : (drawBits n s).2.params = s.params := by
  obtain ⟨g, l, h⟩ := drawBits_snd n s; rw [h]
@[simp] theorem draw_slots (m : Nat) (s : State) : (draw m s).2.slots = s.slots := by
  obtain ⟨g, l, h⟩ := draw_snd m s; rw [h]
@[simp] theorem drawColumn_slots (c : Nat) (idx : List Nat) (s : State) : (drawColumn c idx s).2.slots = s.slots :=
  draw_slots c s
@[simp] theorem drawBits_slots (n : Nat) (s : State) : (drawBits n s).2.slots = s.slots := by
  obtain ⟨g, l, h⟩ := drawBits_snd n s; rw [h]
@[simp] theorem draw_cnt (m : Nat) (s : State) : (draw m s).2.cnt = s.cnt := by
  obtain ⟨g, l, h⟩ := draw_snd m s; rw [h]
@[simp] theorem drawColumn_cnt (c : Nat) (idx : List Nat) (s : State) : (drawColumn c idx s).2.cnt = s.cnt :=
  draw_cnt c s
@[simp] theorem drawBits_cnt (n : Nat) (s : State) : (drawBits n s).2.cnt = s.cnt := by
  obtain ⟨g, l, h⟩ := drawBits_snd n s; rw [h]
@[simp] theorem draw_xidx (m : Nat) (s : State) : (draw m s).2.xidx = s.xidx := by
  obtain ⟨g, l, h⟩ := draw_snd m s; rw [h]
@[simp] theorem drawColumn_xidx (c : Nat) (idx : List Nat) (s : State) : (drawColumn c idx s).2.xidx = s.xidx :=
  draw_xidx c s
@[simp] theorem drawBits_xidx (n : Nat) (s : State) : (drawBits n s).2.xidx = s.xidx := by
  obtain ⟨g, l, h⟩ := drawBits_snd n s; rw [h]
@[simp] theorem draw_engine (m : Nat) (s : State) : (draw m s).2.engine = s.engine := by
  obtain ⟨g, l, h⟩ := draw_snd m s; rw [h]
@[simp] theorem drawColumn_engine (c : Nat) (idx : List Nat) (s : State) : (drawColumn c idx s).2.engine = s.engine :=
  draw_engine c s
@[simp] theorem drawBits_engine (n : Nat) (s : State) : (drawBits n s).2.engine = s.engine := by
  obtain ⟨g, l, h⟩ := drawBits_snd n s; rw [h]
@[simp] theorem draw_cmd (m : Nat) (s : State) : (draw m s).2.cmd = s.cmd := by
  obtain ⟨g, l, h⟩ := draw_snd m s; rw [h]
@[simp] theorem drawColumn_cmd (c : Nat) (idx : List Nat) (s : State) : (drawColumn c idx s).2.cmd = s.cmd :=
  draw_cmd c s
@[simp] theorem drawBits_cmd (n : Nat) (s : State) : (drawBits n s).2.cmd = s.cmd := by
  obtain ⟨g, l, h⟩ := drawBits_snd n s; rw [h]
@[simp] theorem draw_abortReq (m : Nat) (s : State) : (draw m s).2.abortReq = s.abortReq := by
  obtain ⟨g, l, h⟩ := draw_snd m s; rw [h]
@[simp] theorem drawColumn_abortReq (c : Nat) (idx : List Nat) (s : State) : (drawColumn c idx s).2.abortReq = s.abortReq :=
  draw_abortReq c s
@[simp] theorem drawBits_abortReq (n : Nat) (s : State) : (drawBits n s).2.abortReq = s.abortReq := by
  obtain ⟨g, l, h⟩ := drawBits_snd n s; rw [h]
@[simp] theorem draw_scratch (m : Nat) (s : State) : (draw m s).2.scratch = s.scratch := by
  obtain ⟨g, l, h⟩ := draw_snd m s; rw [h]
@[simp] theorem drawColumn_scratch (c : Nat) (idx : List Nat) (s : State) : (drawColumn c idx s).2.scratch = s.scratch :=
  draw_scratch c s
@[simp] theorem drawBits_scratch (n : Nat) (s : State) : (drawBits n s).2.scratch = s.scratch := by
  obtain ⟨g, l, h⟩ := drawBits_snd n s; rw [h]
@[simp] theorem draw_ie (m : Nat) (s : State) : (draw m s).2.ie = s.ie := by
  obtain ⟨g, l, h⟩ := draw_snd m s; rw [h]
@[simp] theorem drawColumn_ie (c : Nat) (idx : List Nat) (s : State) : (drawColumn c idx s).2.ie = s.ie :=
  draw_ie c s
@[simp] theorem drawBits_ie (n : Nat) (s : State) : (drawBits n s).2.ie = s.ie := by
  obtain ⟨g, l, h⟩ := drawBits_snd n s; rw [h]
@[simp] theorem draw_done (m : Nat) (s : State) : (draw m s).2.done = s.done := by
  obtain ⟨g, l, h⟩ := draw_snd m s; rw [h]
@[simp] theorem drawColumn_done (c : Nat) (idx : List Nat) (s : State) : (drawColumn c idx s).2.done = s.done :=
  draw_done c s
@[simp] theorem drawBits_done (n : Nat) (s : State) : (drawBits n s).2.done = s.done := by
  obtain ⟨g, l, h⟩ := drawBits_snd n s; rw [h]
@[simp] theorem draw_flag (m : Nat) (s : State) : (draw m s).2.flag = s.flag := by
  obtain ⟨g, l, h⟩ := draw_snd m s; rw [h]
@[simp] theorem drawColumn_flag (c : Nat) (idx : List Nat) (s : State) : (drawColumn c idx s).2.flag = s.flag :=
  draw_flag c s
@[simp] theorem drawBits_flag (n : Nat) (s : State) : (drawBits n s).2.flag = s.flag := by
  obtain ⟨g, l, h⟩ := drawBits_snd n s; rw [h]
@[simp] theorem draw_cmdovr (m : Nat) (s : State) : (draw m s).2.cmdovr = s.cmdovr := by
  obtain ⟨g, l, h⟩ := draw_snd m s; rw [h]
@[simp] theorem drawColumn_cmdovr (c : Nat) (idx : List Nat) (s : State) : (drawColumn c idx s).2.cmdovr = s.cmdovr :=
  draw_cmdovr c s
@[simp] theorem drawBits_cmdovr (n : Nat) (s : State) : (drawBits n s).2.cmdovr = s.cmdovr := by
  obtain ⟨g, l, h⟩ := drawBits_snd n s; rw [h]
@[simp] theorem draw_haz (m : Nat) (s : State) : (draw m s).2.haz = s.haz := by
  obtain ⟨g, l, h⟩ := draw_snd m s; rw [h]
@[simp] theorem drawColumn_haz (c : Nat) (idx : List Nat) (s : State) : (drawColumn c idx s).2.haz = s.haz :=
  draw_haz c s
@[simp] theorem drawBits_haz (n : Nat) (s : State) : (drawBits n s).2.haz = s.haz := by
  obtain ⟨g, l, h⟩ := drawBits_snd n s; rw [h]
@[simp] theorem draw_winerr (m : Nat) (s : State) : (draw m s).2.winerr = s.winerr := by
  obtain ⟨g, l, h⟩ := draw_snd m s; rw [h]
@[simp] theorem drawColumn_winerr (c : Nat) (idx : List Nat) (s : State) : (drawColumn c idx s).2.winerr = s.winerr :=
  draw_winerr c s
@[simp] theorem drawBits_winerr (n : Nat) (s : State) : (drawBits n s).2.winerr = s.winerr := by
  obtain ⟨g, l, h⟩ := drawBits_snd n s; rw [h]
@[simp] theorem draw_err (m : Nat) (s : State) : (draw m s).2.err = s.err := by
  obtain ⟨g, l, h⟩ := draw_snd m s; rw [h]
@[simp] theorem drawColumn_err (c : Nat) (idx : List Nat) (s : State) : (drawColumn c idx s).2.err = s.err :=
  draw_err c s
@[simp] theorem drawBits_err (n : Nat) (s : State) : (drawBits n s).2.err = s.err := by
  obtain ⟨g, l, h⟩ := drawBits_snd n s; rw [h]
@[simp] theorem draw_lastop (m : Nat) (s : State) : (draw m s).2.lastop = s.lastop := by
  obtain ⟨g, l, h⟩ := draw_snd m s; rw [h]
@[simp] theorem drawColumn_lastop (c : Nat) (idx : List Nat) (s : State) : (drawColumn c idx s).2.lastop = s.lastop :=
  draw_lastop c s
@[simp] theorem drawBits_lastop (n : Nat) (s : State) : (drawBits n s).2.lastop = s.lastop := by
  obtain ⟨g, l, h⟩ := drawBits_snd n s; rw [h]
@[simp] theorem draw_res (m : Nat) (s : State) : (draw m s).2.res = s.res := by
  obtain ⟨g, l, h⟩ := draw_snd m s; rw [h]
@[simp] theorem drawColumn_res (c : Nat) (idx : List Nat) (s : State) : (drawColumn c idx s).2.res = s.res :=
  draw_res c s
@[simp] theorem drawBits_res (n : Nat) (s : State) : (drawBits n s).2.res = s.res := by
  obtain ⟨g, l, h⟩ := drawBits_snd n s; rw [h]
@[simp] theorem draw_errinfo (m : Nat) (s : State) : (draw m s).2.errinfo = s.errinfo := by
  obtain ⟨g, l, h⟩ := draw_snd m s; rw [h]
@[simp] theorem drawColumn_errinfo (c : Nat) (idx : List Nat) (s : State) : (drawColumn c idx s).2.errinfo = s.errinfo :=
  draw_errinfo c s
@[simp] theorem drawBits_errinfo (n : Nat) (s : State) : (drawBits n s).2.errinfo = s.errinfo := by
  obtain ⟨g, l, h⟩ := drawBits_snd n s; rw [h]
@[simp] theorem draw_seed (m : Nat) (s : State) : (draw m s).2.seed = s.seed := by
  obtain ⟨g, l, h⟩ := draw_snd m s; rw [h]
@[simp] theorem drawColumn_seed (c : Nat) (idx : List Nat) (s : State) : (drawColumn c idx s).2.seed = s.seed :=
  draw_seed c s
@[simp] theorem drawBits_seed (n : Nat) (s : State) : (drawBits n s).2.seed = s.seed := by
  obtain ⟨g, l, h⟩ := drawBits_snd n s; rw [h]
@[simp] theorem draw_isdMax (m : Nat) (s : State) : (draw m s).2.isdMax = s.isdMax := by
  obtain ⟨g, l, h⟩ := draw_snd m s; rw [h]
@[simp] theorem drawColumn_isdMax (c : Nat) (idx : List Nat) (s : State) : (drawColumn c idx s).2.isdMax = s.isdMax :=
  draw_isdMax c s
@[simp] theorem drawBits_isdMax (n : Nat) (s : State) : (drawBits n s).2.isdMax = s.isdMax := by
  obtain ⟨g, l, h⟩ := drawBits_snd n s; rw [h]
@[simp] theorem draw_isdTrials (m : Nat) (s : State) : (draw m s).2.isdTrials = s.isdTrials := by
  obtain ⟨g, l, h⟩ := draw_snd m s; rw [h]
@[simp] theorem drawColumn_isdTrials (c : Nat) (idx : List Nat) (s : State) : (drawColumn c idx s).2.isdTrials = s.isdTrials :=
  draw_isdTrials c s
@[simp] theorem drawBits_isdTrials (n : Nat) (s : State) : (drawBits n s).2.isdTrials = s.isdTrials := by
  obtain ⟨g, l, h⟩ := drawBits_snd n s; rw [h]
@[simp] theorem draw_isdSing (m : Nat) (s : State) : (draw m s).2.isdSing = s.isdSing := by
  obtain ⟨g, l, h⟩ := draw_snd m s; rw [h]
@[simp] theorem drawColumn_isdSing (c : Nat) (idx : List Nat) (s : State) : (drawColumn c idx s).2.isdSing = s.isdSing :=
  draw_isdSing c s
@[simp] theorem drawBits_isdSing (n : Nat) (s : State) : (drawBits n s).2.isdSing = s.isdSing := by
  obtain ⟨g, l, h⟩ := drawBits_snd n s; rw [h]
@[simp] theorem draw_isdDthr (m : Nat) (s : State) : (draw m s).2.isdDthr = s.isdDthr := by
  obtain ⟨g, l, h⟩ := draw_snd m s; rw [h]
@[simp] theorem drawColumn_isdDthr (c : Nat) (idx : List Nat) (s : State) : (drawColumn c idx s).2.isdDthr = s.isdDthr :=
  draw_isdDthr c s
@[simp] theorem drawBits_isdDthr (n : Nat) (s : State) : (drawBits n s).2.isdDthr = s.isdDthr := by
  obtain ⟨g, l, h⟩ := drawBits_snd n s; rw [h]
@[simp] theorem draw_isdDcnt (m : Nat) (s : State) : (draw m s).2.isdDcnt = s.isdDcnt := by
  obtain ⟨g, l, h⟩ := draw_snd m s; rw [h]
@[simp] theorem drawColumn_isdDcnt (c : Nat) (idx : List Nat) (s : State) : (drawColumn c idx s).2.isdDcnt = s.isdDcnt :=
  draw_isdDcnt c s
@[simp] theorem drawBits_isdDcnt (n : Nat) (s : State) : (drawBits n s).2.isdDcnt = s.isdDcnt := by
  obtain ⟨g, l, h⟩ := drawBits_snd n s; rw [h]
@[simp] theorem draw_bfMax (m : Nat) (s : State) : (draw m s).2.bfMax = s.bfMax := by
  obtain ⟨g, l, h⟩ := draw_snd m s; rw [h]
@[simp] theorem drawColumn_bfMax (c : Nat) (idx : List Nat) (s : State) : (drawColumn c idx s).2.bfMax = s.bfMax :=
  draw_bfMax c s
@[simp] theorem drawBits_bfMax (n : Nat) (s : State) : (drawBits n s).2.bfMax = s.bfMax := by
  obtain ⟨g, l, h⟩ := drawBits_snd n s; rw [h]
@[simp] theorem draw_bfIters (m : Nat) (s : State) : (draw m s).2.bfIters = s.bfIters := by
  obtain ⟨g, l, h⟩ := draw_snd m s; rw [h]
@[simp] theorem drawColumn_bfIters (c : Nat) (idx : List Nat) (s : State) : (drawColumn c idx s).2.bfIters = s.bfIters :=
  draw_bfIters c s
@[simp] theorem drawBits_bfIters (n : Nat) (s : State) : (drawBits n s).2.bfIters = s.bfIters := by
  obtain ⟨g, l, h⟩ := drawBits_snd n s; rw [h]
@[simp] theorem draw_maddr (m : Nat) (s : State) : (draw m s).2.maddr = s.maddr := by
  obtain ⟨g, l, h⟩ := draw_snd m s; rw [h]
@[simp] theorem drawColumn_maddr (c : Nat) (idx : List Nat) (s : State) : (drawColumn c idx s).2.maddr = s.maddr :=
  draw_maddr c s
@[simp] theorem drawBits_maddr (n : Nat) (s : State) : (drawBits n s).2.maddr = s.maddr := by
  obtain ⟨g, l, h⟩ := drawBits_snd n s; rw [h]
@[simp] theorem draw_caddr (m : Nat) (s : State) : (draw m s).2.caddr = s.caddr := by
  obtain ⟨g, l, h⟩ := draw_snd m s; rw [h]
@[simp] theorem drawColumn_caddr (c : Nat) (idx : List Nat) (s : State) : (drawColumn c idx s).2.caddr = s.caddr :=
  draw_caddr c s
@[simp] theorem drawBits_caddr (n : Nat) (s : State) : (drawBits n s).2.caddr = s.caddr := by
  obtain ⟨g, l, h⟩ := drawBits_snd n s; rw [h]
@[simp] theorem draw_xaddr (m : Nat) (s : State) : (draw m s).2.xaddr = s.xaddr := by
  obtain ⟨g, l, h⟩ := draw_snd m s; rw [h]
@[simp] theorem drawColumn_xaddr (c : Nat) (idx : List Nat) (s : State) : (drawColumn c idx s).2.xaddr = s.xaddr :=
  draw_xaddr c s
@[simp] theorem drawBits_xaddr (n : Nat) (s : State) : (drawBits n s).2.xaddr = s.xaddr := by
  obtain ⟨g, l, h⟩ := drawBits_snd n s; rw [h]
@[simp] theorem draw_inputs (m : Nat) (s : State) : (draw m s).2.inputs = s.inputs := by
  obtain ⟨g, l, h⟩ := draw_snd m s; rw [h]
@[simp] theorem drawColumn_inputs (c : Nat) (idx : List Nat) (s : State) : (drawColumn c idx s).2.inputs = s.inputs :=
  draw_inputs c s
@[simp] theorem drawBits_inputs (n : Nat) (s : State) : (drawBits n s).2.inputs = s.inputs := by
  obtain ⟨g, l, h⟩ := drawBits_snd n s; rw [h]
@[simp] theorem draw_lastResponse (m : Nat) (s : State) : (draw m s).2.lastResponse = s.lastResponse := by
  obtain ⟨g, l, h⟩ := draw_snd m s; rw [h]
@[simp] theorem drawColumn_lastResponse (c : Nat) (idx : List Nat) (s : State) : (drawColumn c idx s).2.lastResponse = s.lastResponse :=
  draw_lastResponse c s
@[simp] theorem drawBits_lastResponse (n : Nat) (s : State) : (drawBits n s).2.lastResponse = s.lastResponse := by
  obtain ⟨g, l, h⟩ := drawBits_snd n s; rw [h]
@[simp] theorem draw_freeCount (m : Nat) (s : State) : (draw m s).2.freeCount = s.freeCount := by
  obtain ⟨g, l, h⟩ := draw_snd m s; rw [h]
@[simp] theorem drawColumn_freeCount (c : Nat) (idx : List Nat) (s : State) : (drawColumn c idx s).2.freeCount = s.freeCount :=
  draw_freeCount c s
@[simp] theorem drawBits_freeCount (n : Nat) (s : State) : (drawBits n s).2.freeCount = s.freeCount := by
  obtain ⟨g, l, h⟩ := drawBits_snd n s; rw [h]

end Sys2Proof.Machine
end

