-- ==== Sys2Proof/Laws/PerInstr.lean ====
section
/-! SUPPORT. Per command: its encoded word spells its row of the opcode table, `cmd AND mask = match`
(30_encoding.md R125), for every operand. -/

namespace Sys2Proof

/-- Masking a word keeps the mask's part of each field. -/
theorem toWord_and (f : Fields) (w : Word) :
    f.toWord &&& w = Fields.toWord
      { op := f.op &&& (Fields.ofWord w).op, md := f.md &&& (Fields.ofWord w).md
        ms1 := f.ms1 &&& (Fields.ofWord w).ms1, ms2 := f.ms2 &&& (Fields.ofWord w).ms2
        ms3 := f.ms3 &&& (Fields.ofWord w).ms3, immA := f.immA &&& (Fields.ofWord w).immA
        immB := f.immB &&& (Fields.ofWord w).immB } := by
  rw [← toWord_and_toWord, toWord_ofWord]

/-- A word with only an opcode. -/
theorem setWidth_eq_opOnly (op : BitVec 8) : op.setWidth 64 = (Fields.opOnly op).toWord := by
  refine BitVec.eq_of_getLsbD_eq fun i hi => ?_
  rw [getLsbD_toWord, BitVec.getLsbD_setWidth]
  simp only [Fields.opOnly, hi, decide_true, Bool.true_and]
  split_ifs with h <;> simp [BitVec.getLsbD_of_ge, Nat.not_lt.mp, *]

/-- The row of the command's opcode, and the encoded word under its mask. -/
def Laws.MaskMatch.Statement (i : Instr) : Prop :=
  ∃ row, rowOf i.opcode = some row ∧ row.op = i.opcode ∧
    encode i &&& row.mask = row.op.setWidth 64 ∧ row.build (Fields.ofWord (encode i)) = row.build i.fields

/-- How each command's lemma is proved: its row, and the fields under the mask. -/
theorem maskMatch_of_row {i : Instr} {row : OpRow} (h : rowOf i.opcode = some row) (ho : row.op = i.opcode)
    (hm : i.fields.toWord &&& row.mask = (Fields.opOnly row.op).toWord) : Laws.MaskMatch.Statement i :=
  ⟨row, h, ho, by rw [encode, hm, setWidth_eq_opOnly], by rw [encode, ofWord_toWord]⟩

namespace Laws.MaskMatch

theorem nop : Statement .nop := by
  refine maskMatch_of_row rfl rfl ?_
  rw [toWord_and, toWord_inj]
  simp [Instr.fields, Instr.opcode, Fields.opOnly, Fields.ofWord]

theorem init (md : SlotId) (rows cols : Nat) : Statement (.init md rows cols) := by
  refine maskMatch_of_row rfl rfl ?_
  rw [toWord_and, toWord_inj]
  simp [Instr.fields, Instr.opcode, Fields.opOnly, Fields.ofWord]

theorem ident (md : SlotId) (n : Nat) : Statement (.ident md n) := by
  refine maskMatch_of_row rfl rfl ?_
  rw [toWord_and, toWord_inj]
  simp [Instr.fields, Instr.opcode, Fields.opOnly, Fields.ofWord]

theorem copy (md ms1 : SlotId) : Statement (.copy md ms1) := by
  refine maskMatch_of_row rfl rfl ?_
  rw [toWord_and, toWord_inj]
  simp [Instr.fields, Instr.opcode, Fields.opOnly, Fields.ofWord]

theorem rand (md : SlotId) : Statement (.rand md) := by
  refine maskMatch_of_row rfl rfl ?_
  rw [toWord_and, toWord_inj]
  simp [Instr.fields, Instr.opcode, Fields.opOnly, Fields.ofWord]

theorem tgtwt (md : SlotId) (weight : Nat) : Statement (.tgtwt md weight) := by
  refine maskMatch_of_row rfl rfl ?_
  rw [toWord_and, toWord_inj]
  simp [Instr.fields, Instr.opcode, Fields.opOnly, Fields.ofWord]

theorem setbit (md : SlotId) (row col : Nat) (v : Bool) : Statement (.setbit md row col v) := by
  refine maskMatch_of_row rfl rfl ?_
  rw [toWord_and, toWord_inj]
  cases v <;> simp [Instr.fields, Instr.opcode, Fields.opOnly, Fields.ofWord]

theorem getbit (ms1 : SlotId) (row col : Nat) : Statement (.getbit ms1 row col) := by
  refine maskMatch_of_row rfl rfl ?_
  rw [toWord_and, toWord_inj]
  simp [Instr.fields, Instr.opcode, Fields.opOnly, Fields.ofWord]

theorem rowxor (md : SlotId) (srcRow dstRow : Nat) : Statement (.rowxor md srcRow dstRow) := by
  refine maskMatch_of_row rfl rfl ?_
  rw [toWord_and, toWord_inj]
  simp [Instr.fields, Instr.opcode, Fields.opOnly, Fields.ofWord]

theorem rowswap (md : SlotId) (rowA rowB : Nat) : Statement (.rowswap md rowA rowB) := by
  refine maskMatch_of_row rfl rfl ?_
  rw [toWord_and, toWord_inj]
  simp [Instr.fields, Instr.opcode, Fields.opOnly, Fields.ofWord]

theorem sample (md ms1 : SlotId) (count : Nat) : Statement (.sample md ms1 count) := by
  refine maskMatch_of_row rfl rfl ?_
  rw [toWord_and, toWord_inj]
  simp [Instr.fields, Instr.opcode, Fields.opOnly, Fields.ofWord]

theorem trans (md ms1 : SlotId) : Statement (.trans md ms1) := by
  refine maskMatch_of_row rfl rfl ?_
  rw [toWord_and, toWord_inj]
  simp [Instr.fields, Instr.opcode, Fields.opOnly, Fields.ofWord]

theorem concat (md ms1 ms2 : SlotId) : Statement (.concat md ms1 ms2) := by
  refine maskMatch_of_row rfl rfl ?_
  rw [toWord_and, toWord_inj]
  simp [Instr.fields, Instr.opcode, Fields.opOnly, Fields.ofWord]

theorem add (md ms1 ms2 : SlotId) : Statement (.add md ms1 ms2) := by
  refine maskMatch_of_row rfl rfl ?_
  rw [toWord_and, toWord_inj]
  simp [Instr.fields, Instr.opcode, Fields.opOnly, Fields.ofWord]

theorem mul (md ms1 ms2 : SlotId) : Statement (.mul md ms1 ms2) := by
  refine maskMatch_of_row rfl rfl ?_
  rw [toWord_and, toWord_inj]
  simp [Instr.fields, Instr.opcode, Fields.opOnly, Fields.ofWord]

theorem mulcnt (ms1 ms2 : SlotId) : Statement (.mulcnt ms1 ms2) := by
  refine maskMatch_of_row rfl rfl ?_
  rw [toWord_and, toWord_inj]
  simp [Instr.fields, Instr.opcode, Fields.opOnly, Fields.ofWord]

theorem rot (md ms1 : SlotId) (shift : Nat) : Statement (.rot md ms1 shift) := by
  refine maskMatch_of_row rfl rfl ?_
  rw [toWord_and, toWord_inj]
  simp [Instr.fields, Instr.opcode, Fields.opOnly, Fields.ofWord]

theorem inv (md ms1 : SlotId) : Statement (.inv md ms1) := by
  refine maskMatch_of_row rfl rfl ?_
  rw [toWord_and, toWord_inj]
  simp [Instr.fields, Instr.opcode, Fields.opOnly, Fields.ofWord]

theorem hwt (ms1 : SlotId) : Statement (.hwt ms1) := by
  refine maskMatch_of_row rfl rfl ?_
  rw [toWord_and, toWord_inj]
  simp [Instr.fields, Instr.opcode, Fields.opOnly, Fields.ofWord]

theorem iszero (ms1 : SlotId) : Statement (.iszero ms1) := by
  refine maskMatch_of_row rfl rfl ?_
  rw [toWord_and, toWord_inj]
  simp [Instr.fields, Instr.opcode, Fields.opOnly, Fields.ofWord]

theorem isut (ms1 : SlotId) : Statement (.isut ms1) := by
  refine maskMatch_of_row rfl rfl ?_
  rw [toWord_and, toWord_inj]
  simp [Instr.fields, Instr.opcode, Fields.opOnly, Fields.ofWord]

theorem isd (md ms1 ms2 : SlotId) (t : Nat) : Statement (.isd md ms1 ms2 t) := by
  refine maskMatch_of_row rfl rfl ?_
  rw [toWord_and, toWord_inj]
  simp [Instr.fields, Instr.opcode, Fields.opOnly, Fields.ofWord]

theorem bitflip (md ms1 ms2 ms3 : SlotId) (threshold t : Nat) : Statement (.bitflip md ms1 ms2 ms3 threshold t) := by
  refine maskMatch_of_row rfl rfl ?_
  rw [toWord_and, toWord_inj]
  simp [Instr.fields, Instr.opcode, Fields.opOnly, Fields.ofWord]

end Laws.MaskMatch

end Sys2Proof
end

