-- ==== Sys2Proof/Tests/Slice0.lean ====
section
/-! SUPPORT. Tests: the well-formedness checks, decoding of words written out from 30_encoding.md and
95_test_vectors.md, and single steps whose expected results are 95_test_vectors.md's. -/

namespace Sys2Proof.Tests

open Sys2Proof.Machine

/-! ### Well-formedness: one ill-formed term per check (30_encoding.md R131) -/

theorem test_illformed_init_rows : (Instr.init 0 (2 ^ 20) 1).wellFormed = false := by decide
theorem test_illformed_init_cols : (Instr.init 0 1 (2 ^ 20)).wellFormed = false := by decide
theorem test_illformed_ident : (Instr.ident 0 (2 ^ 20)).wellFormed = false := by decide
theorem test_illformed_tgtwt : (Instr.tgtwt 0 (2 ^ 40)).wellFormed = false := by decide
theorem test_illformed_setbit_row : (Instr.setbit 0 (2 ^ 20) 0 true).wellFormed = false := by decide
theorem test_illformed_setbit_col : (Instr.setbit 0 0 (2 ^ 20) true).wellFormed = false := by decide
theorem test_illformed_getbit_row : (Instr.getbit 0 (2 ^ 20) 0).wellFormed = false := by decide
theorem test_illformed_getbit_col : (Instr.getbit 0 0 (2 ^ 20)).wellFormed = false := by decide
theorem test_illformed_rowxor_src : (Instr.rowxor 0 (2 ^ 20) 0).wellFormed = false := by decide
theorem test_illformed_rowxor_dst : (Instr.rowxor 0 0 (2 ^ 20)).wellFormed = false := by decide
theorem test_illformed_rowswap_a : (Instr.rowswap 0 (2 ^ 20) 0).wellFormed = false := by decide
theorem test_illformed_rowswap_b : (Instr.rowswap 0 0 (2 ^ 20)).wellFormed = false := by decide
theorem test_illformed_sample : (Instr.sample 0 0 (2 ^ 20)).wellFormed = false := by decide
theorem test_illformed_rot : (Instr.rot 0 0 (2 ^ 20)).wellFormed = false := by decide
theorem test_illformed_isd : (Instr.isd 0 0 0 (2 ^ 20)).wellFormed = false := by decide
theorem test_illformed_bitflip_threshold : (Instr.bitflip 0 0 0 0 (2 ^ 20) 0).wellFormed = false := by decide
theorem test_illformed_bitflip_t : (Instr.bitflip 0 0 0 0 0 (2 ^ 20)).wellFormed = false := by decide
theorem test_not_assembled : assemble (.ident 0 (2 ^ 20)) = none := by decide
theorem test_setbit_v_too_large :
    assembleLine "SETBIT" [.slot 0, .imm 0, .imm 0, .imm 2] = none := by decide

/-! ### Decoding: words of 95_test_vectors.md 2.1 and 30_encoding.md R133 -/

theorem test_decode_nop : decode 0x0000000000000000 = .command .nop := by decide
theorem test_decode_init : decode 0x0000300002000001 = .command (.init 0 2 3) := by decide
theorem test_decode_ident : decode 0x0000000023000102 = .command (.ident 1 35) := by decide
theorem test_decode_copy : decode 0x0000000000001403 = .command (.copy 4 1) := by decide
theorem test_decode_rand : decode 0x0000000000000004 = .command (.rand 0) := by decide
/-- V6: imm40 is bits 63:24. -/
theorem test_decode_tgtwt : decode 0x0123456789000005 = .command (.tgtwt 0 0x0123456789) := by decide
/-- 30_encoding.md R133. -/
theorem test_decode_setbit : decode 0x0000300001100206 = .command (.setbit 2 1 3 true) := by decide
theorem test_decode_getbit : decode 0x0000200001000007 = .command (.getbit 0 1 2) := by decide
theorem test_decode_rowxor : decode 0x0000100000000008 = .command (.rowxor 0 0 1) := by decide
theorem test_decode_rowswap : decode 0x0000100000000009 = .command (.rowswap 0 0 1) := by decide
theorem test_decode_sample : decode 0x0000000002000110 = .command (.sample 1 0 2) := by decide
theorem test_decode_trans : decode 0x0000000000000111 = .command (.trans 1 0) := by decide
theorem test_decode_concat : decode 0x0000000000010212 = .command (.concat 2 0 1) := by decide
theorem test_decode_add : decode 0x0000000000021313 = .command (.add 3 1 2) := by decide
theorem test_decode_mul : decode 0x0000000000010214 = .command (.mul 2 0 1) := by decide
theorem test_decode_mulcnt : decode 0x0000000000010015 = .command (.mulcnt 0 1) := by decide
theorem test_decode_rot : decode 0x0000000001000116 = .command (.rot 1 0 1) := by decide
theorem test_decode_inv : decode 0x0000000000001217 = .command (.inv 2 1) := by decide
theorem test_decode_hwt : decode 0x0000000000005020 = .command (.hwt 5) := by decide
theorem test_decode_iszero : decode 0x0000000000003021 = .command (.iszero 3) := by decide
theorem test_decode_isut : decode 0x0000000000000022 = .command (.isut 0) := by decide
theorem test_decode_isd : decode 0x0000000002010330 = .command (.isd 3 0 1 2) := by decide
/-- 30_encoding.md R133. -/
theorem test_decode_bitflip : decode 0x0000100003654731 = .command (.bitflip 7 4 5 6 3 1) := by decide
/-- V1, V2: reserved opcodes. -/
theorem test_decode_reserved : decode 0x0A = .illegal .unassignedOpcode ∧ decode 0xFF = .illegal .unassignedOpcode := by
  decide
/-- V3, V4, V5: nonzero must-be-zero fields. -/
theorem test_decode_nonzero_field :
    decode 0x8000000000000000 = .illegal .nonzeroUnused ∧ decode 0x0120 = .illegal .nonzeroUnused ∧
      decode 0x0000100000300006 = .illegal .nonzeroUnused := by decide
theorem test_table_word : decodeTableWord 64 0x10214 = some (.mul 2 0 1) := by decide

/-! ### Pseudo-instructions and operand order (30_encoding.md R131, R132) -/

theorem test_clrbit : expand (.clrbit 1 2 3) = .setbit 1 2 3 false := by decide
theorem test_vec : expand (.vec 1 7) = .init 1 7 1 := by decide
theorem test_assemble_isd :
    assembleLine "ISD" [.slot 3, .slot 0, .slot 1, .imm 1] = some 0x0000000001010330 := by decide
theorem test_assemble_bitflip :
    assembleLine "BITFLIP" [.slot 3, .slot 0, .slot 1, .slot 2, .imm 2, .imm 1] = some 0x0000100002210331 := by
  decide

/-- 30_encoding.md R133. -/
theorem test_assemble_text :
    assembleText "SETBIT m2, 1, 3, 1".toList = some 0x0000300001100206 ∧
      assembleText "BITFLIP m7, m4, m5, m6, 3, 0x1".toList = some 0x0000100003654731 := by decide
/-- 30_encoding.md R131, R132: VEC is INIT with one column; 2^20 does not fit; m16 is no slot. -/
theorem test_assemble_text_errors :
    assembleText "VEC m0, 4".toList = assembleText "INIT m0, 4, 1".toList ∧
      assembleText "IDENT m0, 0x100000".toList = none ∧ assembleText "HWT m16".toList = none := by decide

/-! ### Single steps -/

/-- A matrix with rows of `c` columns written as binary numbers, leftmost column first. -/
def mat (c : Nat) (rows : List Nat) : BitMatrix := ⟨c, rows.map (BitVec.ofNat c)⟩

/-- Reset, the given matrices in slots 0, 1, 2, the given coming draws. -/
def start (ms : List BitMatrix) (draws : List Nat) : State :=
  { State.reset with
    slots := Vector.ofFn fun d => ms[d.val]?
    drawInputs := draws }

/-- One step with the command word w accepted. -/
def runWord (w : Nat) (s : State) : State :=
  match step (s.withFetchWord 64 w) with
  | .next t => t
  | .fault _ => s
  | .refused _ => s

/-- One engine step of a command, given its scratch. -/
def runWith (i : Instr) (sc : Scratch) (s : State) : State :=
  match exec i { s with engine := .busy, scratch := sc } with
  | .next t => t
  | .fault _ => s
  | .refused _ => s

/-- One clock edge with a host access. -/
def runAccess (a : HostAccess) (s : State) : State :=
  match step { s with inputs := [{ rstN := true, access := some a, engine := false }] } with
  | .next t => t
  | .fault _ => s
  | .refused _ => s

def wr (addr : BitVec 8) (v : Word) : HostAccess := { we := true, addr := addr, size := 8, wdata := v }
def rd (addr : BitVec 8) : HostAccess := { we := false, addr := addr, size := 8, wdata := 0 }
def rdata (s : State) : Option Word := s.lastResponse.map (·.rdata)

/-- V29c. -/
theorem test_nop : (runWord 0x0 State.reset).statusWord = 0x2 := by decide
/-- 40 R152. -/
theorem test_init : (runWord 0x0000300002000001 State.reset).slot 0 = some (mat 3 [0, 0]) := by decide
/-- V22: 8192 exceeds MAX_DIM. -/
theorem test_init_alloc : (runWord 0x0000102000000001 State.reset).statusWord = 0x00010602 := by decide
/-- V25. -/
theorem test_ident_empty : (runWord 0x2 State.reset).slot 0 = some (mat 0 []) := by decide
theorem test_ident : (runWord 0x0000000003000102 State.reset).slot 1 = some (mat 3 [4, 2, 1]) := by decide
/-- 40 R154. -/
theorem test_copy : (runWord 0x1403 (start [mat 1 [], mat 2 [2]] [])).slot 4 = some (mat 2 [2]) := by decide
/-- V26. -/
theorem test_rand : (runWord 0x4 (start [mat 3 [0]] [1, 0, 1])).slot 0 = some (mat 3 [5]) := by decide
/-- V13, second draw: cell (1,1) is already 1, so the draw is rejected. -/
theorem test_tgtwt_reject :
    (runWith (.tgtwt 0 2) (.tgtwt (mat 2 [0, 1]) 2) (start [mat 2 [0, 0]] [3, 0])).scratch
      = .tgtwt (mat 2 [0, 1]) 2 := by decide
/-- V13, third draw: cell (0,0). -/
theorem test_tgtwt_accept :
    (runWith (.tgtwt 0 2) (.tgtwt (mat 2 [0, 1]) 2) (start [mat 2 [0, 0]] [0])).scratch
      = .tgtwt (mat 2 [2, 1]) 2 := by decide
/-- V18: INVALID_WEIGHT(0). -/
theorem test_tgtwt_full :
    (runWord 0x0000000004000005 (start [mat 2 [2, 2]] [])).statusWord = 0x00050502 := by decide
/-- V27: OUT_OF_RANGE(1). -/
theorem test_setbit_range :
    (runWord 0x0000000002100006 (start [mat 3 [3, 1]] [])).errinfo = 1 := by decide
theorem test_setbit :
    (runWord 0x0000100000100006 (start [mat 3 [0, 0]] [])).slot 0 = some (mat 3 [2, 0]) := by decide
/-- V28. -/
theorem test_getbit :
    (runWord 0x0000200001000007 (start [mat 3 [3, 1]] [])).statusWord = 0x00070006 := by decide
/-- V28: GETBIT m0, 0, 3 raises OUT_OF_RANGE(2). -/
theorem test_getbit_range :
    (runWord 0x0000300000000007 (start [mat 3 [3, 1]] [])).errinfo = 2 := by decide
/-- V29. -/
theorem test_rowxor :
    (runWord 0x0000100000000008 (start [mat 3 [6, 3]] [])).slot 0 = some (mat 3 [6, 5]) := by decide
/-- V29a. -/
theorem test_rowswap :
    (runWord 0x0000100000000009 (start [mat 3 [6, 3]] [])).slot 0 = some (mat 3 [3, 6]) := by decide
/-- V50, second draw: column 2 is taken. -/
theorem test_sample_reject :
    (runWith (.sample 1 0 2) (.sample (mat 4 [10, 6]) 2 [2]) (start [] [2])).scratch
      = .sample (mat 4 [10, 6]) 2 [2] := by decide
/-- V50, the end. -/
theorem test_sample_end :
    (runWith (.sample 1 0 2) (.sample (mat 4 [10, 6]) 2 [2, 0]) (start [] [])).slot 1 = some (mat 2 [3, 2]) := by
  decide
/-- V30, first rows. -/
theorem test_trans :
    (runWord 0x0111 (start [mat 3 [5, 3]] [])).slot 1 = some (mat 2 [2, 1, 3]) := by decide
/-- V31. -/
theorem test_concat :
    (runWord 0x00010212 (start [mat 5 [0b10110], mat 6 [0b111001]] [])).slot 2
      = some (mat 11 [0b10110111001]) := by decide
/-- V32. -/
theorem test_concat_shape :
    (runWord 0x00010212 (start [mat 3 [0, 0], mat 2 [0]] [])).statusWord = 0x00120302 := by decide
/-- V34. -/
theorem test_add :
    (runWord 0x00010213 (start [mat 3 [6], mat 3 [3]] [])).slot 2 = some (mat 3 [5]) := by decide
/-- V36. -/
theorem test_mul :
    (runWord 0x00010214 (start [mat 3 [6, 3], mat 2 [2, 1, 3]] [])).slot 2 = some (mat 2 [3, 2]) := by decide
/-- 41 R214's example. -/
theorem test_mulcnt :
    (runWord 0x00010015 (start [mat 3 [6, 3], mat 2 [2, 1, 3]] [])).cnt
      = some { rows := 2, cols := 2, entries := [1, 1, 1, 2] } := by decide
/-- V39a, s = 7. -/
theorem test_rot :
    (runWord 0x0000000007000116 (start [mat 4 [0b1100, 0b0010]] [])).slot 1
      = some (mat 4 [0b1001, 0b0100]) := by decide
/-- V40. -/
theorem test_inv :
    (runWord 0x0117 (start [mat 2 [3, 2]] [])).slot 1 = some (mat 2 [1, 3]) := by decide
/-- V44: NOT_INVERTIBLE(2). -/
theorem test_inv_singular :
    (runWord 0x0117 (start [mat 3 [5, 3, 6]] [])).errinfo = 2 := by decide
/-- 41 R240's example: weight 13. -/
theorem test_hwt : (runWord 0x20 (start [mat 8 [0x05, 0x0A, 0x40, 0xFF]] [])).res = 13 := by decide
/-- V55. -/
theorem test_iszero_empty : (runWord 0x21 (start [mat 0 []] [])).flag = true := by decide
/-- V57 and V59. -/
theorem test_isut :
    (runWord 0x22 (start [mat 2 [2, 3]] [])).res = 0 ∧ (runWord 0x22 (start [mat 2 [3, 1, 0]] [])).res = 1 := by
  decide
/-- 42 R277, trial 3 with its columns drawn: success with column 4. -/
def isd277 : IsdScratch :=
  { H := mat 6 [0b100110, 0b010011, 0b001101], syn := mat 1 [1, 1, 0], t := 1, budget := 0, dthr := 2
    trials := 2, sing := 1, dcnt := 0, drawn := some [1, 2, 4] }
theorem test_isd_success :
    (runWith (.isd 3 0 1 1) (.isd isd277) (start [] [])).slot 3 = some (mat 1 [0, 0, 0, 0, 1, 0]) := by decide
theorem test_isd_counters :
    let t := runWith (.isd 3 0 1 1) (.isd isd277) (start [] [])
    t.isdTrials = 3 ∧ t.isdSing = 1 ∧ t.isdDcnt = 1 := by decide
/-- 10 R32: with SLOT_WORDS = 5 a result of 6 rows of one word does not fit, and nothing is drawn. -/
theorem test_isd_alloc :
    let t := runWith (.isd 3 0 1 1) .none
      { start [isd277.H, isd277.syn] [1] with params := { Params.default with slotWords := 5 } }
    t.err = .alloc ∧ t.errinfo = 0 ∧ t.drawInputs = [1] := by decide
/-- 43 R291, 10 R32: MAX_DIM allows the 2 rows of the result, SLOT_WORDS = 1 does not. -/
theorem test_bitflip_alloc :
    (runWith (.bitflip 3 0 1 2 1 0) .none
      { start [mat 1 [1], mat 1 [0], mat 1 [1]] [] with params := { Params.default with slotWords := 1 } }).err
      = .alloc := by decide
/-- 43 R308, iteration 1. -/
theorem test_bitflip_iteration :
    let sc := bitflipIterate
      (bitflipSetup (mat 4 [9, 9, 5, 1]) (mat 4 [11, 13, 13, 8]) (mat 1 [1, 1, 0, 0]) 2 1 0)
    sc.u = mat 1 [0, 0, 0, 0] ∧ sc.v = mat 1 [0, 1, 1, 1] ∧ sc.syn = mat 1 [0, 1, 0, 1] := by decide
/-- V75: the residual is 1 at once, DECODE_FAILURE(0). -/
theorem test_bitflip_failure :
    (runWith (.bitflip 3 0 1 2 1 0)
      (.bitflip (bitflipSetup (mat 1 [1]) (mat 1 [0]) (mat 1 [1]) 1 0 0)) (start [] [])).err
      = .decodeFailure := by decide

/-! ### The host's side -/

/-- V17. -/
theorem test_read_id : rdata (runAccess (rd 0x00) State.reset) = some 0x001040014D324647 := by decide
/-- 10 R46, R47. -/
theorem test_read_caps :
    rdata (runAccess (rd 0x08) State.reset) = some 0x00001FFF00100000 ∧
      rdata (runAccess (rd 0x10) State.reset) = some 0x0000002000004000 := by decide
/-- V11, W = 8: the padding of word 1 stays 0. -/
theorem test_mdata_write :
    (runAccess (wr 0x88 0xFF)
      { start [mat 11 [0]] [] with
        params := { Params.default with wordBits := .w8 }, maddr := { slot := 0, word := 1, row := 0 } }).slot 0
      = some (mat 11 [7]) := by decide
/-- V12: word 2 does not exist. -/
theorem test_mdata_range :
    (runAccess (rd 0x88)
      { start [mat 11 [0]] [] with
        params := { Params.default with wordBits := .w8 }, maddr := { slot := 0, word := 2, row := 0 } }).winerr
      = true := by decide
/-- V10, W = 8. -/
theorem test_packed_words :
    packedWord { Params.default with wordBits := .w8 } (mat 11 [0b10110011101]) 0 0 = 0xB3 ∧
      packedWord { Params.default with wordBits := .w8 } (mat 11 [0b10110011101]) 0 1 = 0x5 := by decide
/-- V15: a 4-byte read at 0x04. -/
theorem test_bus_err :
    (runAccess { we := false, addr := 0x04, size := 4, wdata := 0 } State.reset).lastResponse
      = some { ack := true, err := true, rdata := 0 } := by decide
/-- V24. -/
theorem test_mdim : rdata (runAccess (rd 0x90) (start [mat 5 []] [])) = some 0x8000000000500000 := by decide
/-- V81: a CMD write while BUSY. -/
theorem test_cmdovr :
    (runAccess (wr 0x28 0x20) (State.reset.withFetchWord 64 0x30)).statusWord = 0x00300009 := by decide
/-- V83: SRST while BUSY. -/
theorem test_srst : (runAccess (wr 0x18 0x4) (State.reset.withFetchWord 64 0x30)).statusWord = 0 := by decide

/-! ### Witnesses: a concrete input that meets the hypotheses of each statement, at the boundaries of its
clauses. -/

/-- The given state with the command word w accepted. -/
def busyWith (w : Nat) (s : State) : State := s.withFetchWord 64 w

/-- The given state inside a loop. -/
def inLoop (sc : Scratch) (s : State) : State := { s with engine := .busy, scratch := sc }

/-- Row of three ones and zeros in slot 0, column vectors in slots 1 and 2. -/
def s3 : State := start [mat 3 [5, 3], mat 3 [6, 1], mat 2 [2, 1, 3]] []

theorem wit_DecodeEncodeRoundTrip :
    Instr.nop.wellFormed = true ∧ (Instr.tgtwt 15 (2 ^ 40 - 1)).wellFormed = true ∧
      (Instr.bitflip 15 15 15 15 (2 ^ 20 - 1) (2 ^ 20 - 1)).wellFormed = true := by decide
theorem wit_DecodedWordIsItsEncoding :
    decode 0xFFFFFFFFFFFFFF31 = .command (.bitflip 15 15 15 15 (2 ^ 20 - 1) (2 ^ 20 - 1)) := by decide
theorem wit_ReservedOpcodesAreIllegal :
    ∀ w ∈ [0x0A, 0x0F, 0x18, 0x1F, 0x23, 0x2F, 0x32, 0xFF],
      (busyWith w s3).inputs = [] ∧ (busyWith w s3).engine = .busy ∧
        decode (busyWith w s3).cmd = .illegal .unassignedOpcode := by decide
theorem wit_UnusedFieldsMustBeZero :
    (0x0206 : Word) &&& 0x0000000000EFF0FF = BitVec.ofNat 64 0x06 ∧
      (0x0000100000300006 : Word) &&& 0x0000000000EFF0FF ≠ BitVec.ofNat 64 0x06 ∧
      ∀ w ∈ [0x100, 0x8000000000000000, 0x0000100000300006],
        (busyWith w s3).inputs = [] ∧ (busyWith w s3).engine = .busy ∧
          decode (busyWith w s3).cmd = .illegal .nonzeroUnused := by decide
theorem wit_StepRunsTheDecodedCommand :
    let s := busyWith 0x5020 s3
    let t := { s with inputs := [⟨true, none, true⟩] }
    let u := { s with inputs := [⟨true, some (wr 0x28 0), true⟩] }
    s.inputs = [] ∧ s.engine = .busy ∧ decode s.cmd = .command (.hwt 5) ∧
      t.inputs = ⟨true, none, true⟩ :: [] ∧ u.inputs = ⟨true, some (wr 0x28 0), true⟩ :: [] ∧
      (busAccess (wr 0x28 0) { u with inputs := [] }).engine = .busy := by decide
theorem wit_NopOnlyCompletes :
    (0x8000000000000000 : Word).toNat % 256 = 0 ∧ (0x8000000000000000 : Word) ≠ 0 := by decide
/-- 8191 rows of 128 words are 1,048,448 words, which fit; 8192 rows exceed MAX_DIM. -/
theorem wit_InitAllocatesAZeroMatrix :
    (8191 ≤ s3.params.maxDim.toNat ∧ 8191 * nwords s3.params 8191 ≤ s3.params.slotWords.toNat) ∧
      ¬ (8192 ≤ s3.params.maxDim.toNat) := by decide
theorem wit_IdentMakesTheIdentity :
    (8191 ≤ s3.params.maxDim.toNat ∧ 8191 * nwords s3.params 8191 ≤ s3.params.slotWords.toNat) ∧
      ¬ (8192 ≤ s3.params.maxDim.toNat ∧ 8192 * nwords s3.params 8192 ≤ s3.params.slotWords.toNat) := by decide
theorem wit_CopyIsADeepCopy :
    s3.slot 3 = none ∧ s3.slot 0 = some (mat 3 [5, 3]) ∧ (15 : SlotId) ≠ 0 := by decide
theorem wit_RandFillsRowMajor :
    s3.slot 3 = none ∧ s3.slot 0 = some (mat 3 [5, 3]) ∧ 1 < (mat 3 [5, 3]).rows ∧ 2 < (mat 3 [5, 3]).cols ∧
      ∃ σ : Nat → State, σ 0 = s3 ∧ ∀ k, σ (k + 1) = (draw 2 (σ k)).2 :=
  ⟨by decide, by decide, by decide, by decide, fun k => Nat.rec s3 (fun _ t => (draw 2 t).2) k, rfl, fun _ => rfl⟩
theorem wit_TgtwtAddsOnesAtDrawnZeroCells :
    let M := mat 3 [5, 3]
    let t := { inLoop (.tgtwt M 5) s3 with drawInputs := [1] }
    s3.scratch = .none ∧ s3.slot 3 = none ∧ s3.slot 0 = some M ∧ M.rows * M.cols ≤ 6 ∧
      5 < M.rows * M.cols ∧ M.hw ≤ 5 ∧ 3 < M.hw ∧ (inLoop (.tgtwt M 4) s3).scratch = .tgtwt M 4 ∧ 4 ≤ M.hw ∧
      t.scratch = .tgtwt M 5 ∧ M.hw < 5 ∧
      M.get (1 / M.cols) (1 % M.cols) = false ∧ 1 < M.rows * M.cols ∧
      M.get (0 / M.cols) (0 % M.cols) = true := by decide
theorem wit_draw_tgtwt :
    let t := { inLoop (.tgtwt (mat 3 [5, 3]) 5) s3 with drawInputs := [1] }
    draw 6 t = (1, { t with drawInputs := [] }) := rfl
theorem wit_TgtwtReachesTheExactWeight :
    let s := { busyWith 0x0000000005000005 s3 with drawInputs := [1, 1, 0] }
    let M := mat 3 [5, 3]
    s.inputs = [] ∧ s.engine = .busy ∧ decode s.cmd = .command (.tgtwt 0 5) ∧ s.scratch = .none ∧
      s.slot 0 = some M ∧ 5 < M.rows * M.cols ∧ M.hw ≤ 5 ∧ (∀ x ∈ s.drawInputs, x < M.rows * M.cols) ∧
      5 ≤ M.hw + (s.drawInputs.toFinset.filter fun x => M.get (x / M.cols) (x % M.cols) = false).card := by decide
theorem wit_SetbitWritesOneCell :
    s3.slot 3 = none ∧ s3.slot 0 = some (mat 3 [5, 3]) ∧ (mat 3 [5, 3]).rows ≤ 2 ∧ 1 < (mat 3 [5, 3]).rows ∧
      (mat 3 [5, 3]).cols ≤ 3 ∧ 2 < (mat 3 [5, 3]).cols := by decide
theorem wit_GetbitReadsOneCell :
    s3.slot 15 = none ∧ s3.slot 1 = some (mat 3 [6, 1]) ∧ (mat 3 [6, 1]).rows ≤ 2 ∧ 1 < (mat 3 [6, 1]).rows ∧
      (mat 3 [6, 1]).cols ≤ 3 ∧ 2 < (mat 3 [6, 1]).cols := by decide
theorem wit_RowxorAddsOneRowToAnother :
    s3.slot 4 = none ∧ s3.slot 2 = some (mat 2 [2, 1, 3]) ∧ (mat 2 [2, 1, 3]).rows ≤ 3 ∧
      2 < (mat 2 [2, 1, 3]).rows := by decide
theorem wit_RowswapSwapsTwoRows :
    s3.slot 5 = none ∧ s3.slot 2 = some (mat 2 [2, 1, 3]) ∧ (mat 2 [2, 1, 3]).rows ≤ 3 ∧
      0 < (mat 2 [2, 1, 3]).rows := by decide
theorem wit_SampleAcceptsDistinctColumns :
    let M := mat 3 [5, 3]
    let t := { inLoop (.sample M 2 [0]) s3 with drawInputs := [2] }
    s3.scratch = .none ∧ s3.slot 3 = none ∧ s3.slot 0 = some M ∧ M.cols < 4 ∧ 3 ≤ M.cols ∧
      t.scratch = .sample M 2 [0] ∧ [0].length < 2 ∧ 2 ∉ [0] ∧ 0 ∈ [0] ∧ (inLoop (.sample M 2 [2, 0]) s3).scratch = .sample M 2 [2, 0] ∧
      2 ≤ [2, 0].length := by decide
theorem wit_draw_sample :
    let t := { inLoop (.sample (mat 3 [5, 3]) 2 [0]) s3 with drawInputs := [2] }
    draw 3 t = (2, { t with drawInputs := [] }) := rfl
theorem wit_SampleRunsOnSuppliedDraws :
    let s := { busyWith 0x0000000003000310 s3 with drawInputs := [2, 2, 0, 1] }
    s.inputs = [] ∧ s.engine = .busy ∧ decode s.cmd = .command (.sample 3 0 3) ∧ s.scratch = .none ∧
      s.slot 0 = some (mat 3 [5, 3]) ∧ 3 ≤ (mat 3 [5, 3]).cols ∧
      (∀ x ∈ s.drawInputs, x < (mat 3 [5, 3]).cols) ∧ 3 ≤ (firstDistinct s.drawInputs).length := by decide
/-- With SLOT_WORDS = 2 the three rows of a transpose do not fit; with 3 they do. -/
theorem wit_TransTransposes :
    s3.slot 3 = none ∧ s3.slot 0 = some (mat 3 [5, 3]) ∧
      ({ Params.default with slotWords := 2 } : Params).slotWords.toNat
        < (mat 3 [5, 3]).cols * nwords Params.default (mat 3 [5, 3]).rows ∧
      (mat 3 [5, 3]).cols * nwords Params.default (mat 3 [5, 3]).rows
        ≤ ({ Params.default with slotWords := 3 } : Params).slotWords.toNat := by decide
theorem wit_TransTwiceIsTheIdentity :
    s3.slot 0 = some (mat 3 [5, 3]) ∧
      ∃ t u, exec (.trans 1 0) s3 = .next t ∧ t.err = .none ∧ exec (.trans 0 1) t = .next u ∧ u.err = .none :=
  ⟨by decide, _, _, rfl, by decide, rfl, by decide⟩
theorem wit_ConcatJoinsColumns :
    s3.slot 3 = none ∧ s3.slot 0 = some (mat 3 [5, 3]) ∧ s3.slot 1 = some (mat 3 [6, 1]) ∧
      s3.slot 2 = some (mat 2 [2, 1, 3]) ∧ (mat 3 [5, 3]).rows ≠ (mat 2 [2, 1, 3]).rows ∧
      (mat 3 [5, 3]).rows = (mat 3 [6, 1]).rows ∧
      (mat 3 [5, 3]).cols + (mat 3 [6, 1]).cols ≤ ({ Params.default with maxDim := 6 } : Params).maxDim.toNat ∧
      ¬ ((mat 3 [5, 3]).cols + (mat 3 [6, 1]).cols ≤ ({ Params.default with maxDim := 5 } : Params).maxDim.toNat) ∧
      (mat 3 [5, 3]).rows * nwords s3.params 6 ≤ s3.params.slotWords.toNat := by decide
theorem wit_AddXorsElementwise :
    s3.slot 3 = none ∧ s3.slot 0 = some (mat 3 [5, 3]) ∧ s3.slot 1 = some (mat 3 [6, 1]) ∧
      s3.slot 2 = some (mat 2 [2, 1, 3]) ∧ (mat 3 [5, 3]).rows = (mat 3 [6, 1]).rows ∧
      (mat 3 [5, 3]).cols = (mat 3 [6, 1]).cols ∧ ¬ ((mat 3 [5, 3]).rows = (mat 2 [2, 1, 3]).rows) := by decide
theorem wit_MulIsTheGf2Product :
    s3.slot 3 = none ∧ s3.slot 0 = some (mat 3 [5, 3]) ∧ s3.slot 2 = some (mat 2 [2, 1, 3]) ∧
      (mat 3 [5, 3]).cols ≠ (mat 3 [6, 1]).rows ∧ (mat 3 [5, 3]).cols = (mat 2 [2, 1, 3]).rows ∧
      (mat 3 [5, 3]).rows * nwords s3.params (mat 2 [2, 1, 3]).cols ≤ s3.params.slotWords.toNat ∧
      ({ Params.default with slotWords := 1 } : Params).slotWords.toNat
        < (mat 3 [5, 3]).rows * nwords Params.default (mat 2 [2, 1, 3]).cols := by decide
theorem wit_MulcntCountsIntoCnt :
    s3.slot 3 = none ∧ s3.slot 0 = some (mat 3 [5, 3]) ∧ s3.slot 2 = some (mat 2 [2, 1, 3]) ∧
      (mat 3 [5, 3]).cols ≠ (mat 3 [6, 1]).rows ∧ (mat 3 [5, 3]).cols = (mat 2 [2, 1, 3]).rows ∧
      (mat 3 [5, 3]).rows * (mat 2 [2, 1, 3]).cols ≤ ({ Params.default with countCap := 4 } : Params).countCap.toNat ∧
      ({ Params.default with countCap := 3 } : Params).countCap.toNat < (mat 3 [5, 3]).rows * (mat 2 [2, 1, 3]).cols ∧
      (mat 3 [5, 3]).cols < 2 ^ 32 := by decide
theorem wit_RotMovesColumnsUp :
    s3.slot 3 = none ∧ s3.slot 0 = some (mat 3 [5, 3]) ∧
      (start [mat 0 [0, 0]] []).slot 0 = some (mat 0 [0, 0]) ∧ (mat 0 [0, 0]).cols = 0 := by decide
theorem wit_InvChecksAndIdentity :
    s3.slot 3 = none ∧ s3.slot 0 = some (mat 3 [5, 3]) ∧ (mat 3 [5, 3]).rows ≠ (mat 3 [5, 3]).cols ∧
      (start [mat 2 [2, 1], mat 0 []] []).slot 0 = some (BitMatrix.identity 2) ∧
      (start [mat 2 [2, 1], mat 0 []] []).slot 1 = some (BitMatrix.identity 0) := by decide
theorem wit_InvInvertsTheInvertible :
    (start [mat 2 [3, 2]] []).slot 0 = some (mat 2 [3, 2]) ∧ (mat 2 [3, 2]).Invertible :=
  ⟨by decide, by decide, mat 2 [1, 3], ⟨by decide, by decide⟩, by decide⟩
/-- V44's matrix: the third column is the sum of the first two, so no product with it is the identity. -/
theorem wit_InvNamesTheFirstDependentColumn :
    (start [mat 1 [0]] []).slot 0 = some (mat 1 [0]) ∧ (mat 1 [0]).rows = (mat 1 [0]).cols ∧
      ¬ (mat 1 [0]).Invertible ∧
      0 < (mat 3 [5, 3, 5]).rows ∧ 2 < (mat 3 [5, 3, 5]).rows ∧ (0 : Nat) ≠ 2 ∧
      (∀ j, (mat 3 [5, 3, 5]).get 0 j = (mat 3 [5, 3, 5]).get 2 j) ∧ (∀ j, (mat 3 [5, 0, 5]).get 1 j = false) := by
  refine ⟨by decide, by decide, ?_, by decide, by decide, by decide, fun j => rfl, fun j => ?_⟩
  · rintro ⟨-, N, ⟨-, hc⟩, h⟩
    have h0 := congrArg (fun M => BitMatrix.get M 0 0) h
    have z : ∀ k, (mat 1 [0]).get 0 k = false := by simp [mat, BitMatrix.get, BitMatrix.row, BitVec.getMsbD]
    have r : (mat 1 [0]).rows = 1 := by decide
    simp [BitMatrix.mul, BitMatrix.identity, z, r, show (mat 1 [0]).cols = 1 from rfl, xorSum] at h0
  · simp [mat, BitMatrix.get, BitMatrix.row, BitVec.getMsbD]

theorem wit_HwtCountsTheOnes : s3.slot 3 = none ∧ s3.slot 0 = some (mat 3 [5, 3]) := by decide
theorem wit_IszeroTestsEveryBit :
    s3.slot 3 = none ∧ s3.slot 0 = some (mat 3 [5, 3]) ∧ (mat 3 [5, 3]).get 1 2 = true ∧
      (start [mat 3 [0]] []).slot 0 = some (mat 3 [0]) ∧
      (∀ i < (mat 3 [0]).rows, ∀ j < (mat 3 [0]).cols, (mat 3 [0]).get i j = false) := by decide
theorem wit_IsutTestsBelowTheDiagonal :
    s3.slot 4 = none ∧ s3.slot 2 = some (mat 2 [2, 1, 3]) ∧ (mat 2 [2, 1, 3]).get 2 1 = true ∧
      (start [mat 3 [5, 3]] []).slot 0 = some (mat 3 [5, 3]) ∧
      (∀ i < (mat 3 [5, 3]).rows, ∀ j < (mat 3 [5, 3]).cols, j < i → (mat 3 [5, 3]).get i j = false) := by decide

/-- The instance of 42 R277: H and s. -/
def sIsd : State := start [isd277.H, isd277.syn, mat 1 [1]] []

theorem wit_IsdChecksAndLatches :
    sIsd.scratch = .none ∧ sIsd.slot 3 = none ∧ sIsd.slot 0 = some isd277.H ∧ sIsd.slot 1 = some isd277.syn ∧
      isd277.H.rows ≤ isd277.H.cols ∧ isd277.syn.rows = isd277.H.rows ∧ isd277.syn.cols = 1 ∧
      sIsd.slot 2 = some (mat 1 [1]) ∧ (mat 1 [1]).rows ≠ isd277.H.rows ∧
      isd277.H.cols ≤ sIsd.params.maxDim.toNat ∧ 1 ≤ sIsd.params.maxDim.toNat ∧
      isd277.H.cols * nwords Params.default 1 ≤ ({ Params.default with slotWords := 6 } : Params).slotWords.toNat ∧
      ¬ (isd277.H.cols * nwords Params.default 1
          ≤ ({ Params.default with slotWords := 5 } : Params).slotWords.toNat) := by decide
/-- 42 R277 at the top of a trial: at the budget, below it with and without an abort request, no budget. -/
def isdTop2 (budget : Word) : IsdScratch := { isd277 with budget := budget, drawn := none }
theorem wit_IsdStopsAtBudgetOrAbort :
    (∀ b : Word, (inLoop (.isd (isdTop2 b)) sIsd).scratch = .isd (isdTop2 b)) ∧ (isdTop2 2).drawn = none ∧
      (isdTop2 2).budget ≠ 0 ∧ (isdTop2 2).trials = (isdTop2 2).budget ∧
      (isdTop2 3).trials ≠ (isdTop2 3).budget ∧ (isdTop2 0).budget = 0 ∧
      { inLoop (.isd (isdTop2 3)) sIsd with abortReq := true }.abortReq = true ∧
      (inLoop (.isd (isdTop2 3)) sIsd).abortReq = false :=
  ⟨fun _ => rfl, by decide, by decide, by decide, by decide, by decide, by decide, by decide⟩
theorem wit_IsdMidTrialAbort :
    let s := { inLoop (.isd isd277) sIsd with err := .aborted }
    s.scratch = .isd isd277 ∧ isd277.drawn = some [1, 2, 4] ∧
      ∃ t, exec (.isd 3 0 1 7) { inLoop (.isd { isd277 with drawn := some [] }) s with drawInputs := [1] } = .next t ∧
        t.err = .aborted :=
  ⟨rfl, rfl, _, rfl, rfl⟩
/-- 42 R277: the columns 3, 4, 5 are singular; 0, 1, 2 give a candidate of weight 2; 1, 2, 4 one of weight 1. -/
theorem wit_IsdTrialCountsAndContinues :
    isd277.H.rows ≤ [3, 4, 5].length ∧ (isd277.H.selectCols [3, 4, 5]).invert = .error 2 ∧
      isd277.H.rows ≤ [0, 1, 2].length ∧
      (isd277.H.selectCols [0, 1, 2]).invert = .ok (BitMatrix.identity 3) ∧
      ((BitMatrix.identity 3).mul isd277.syn).hw ≠ isd277.t ∧
      isd277.dthr.toNat ≤ ((BitMatrix.identity 3).mul isd277.syn).hw ∧
      ((BitMatrix.identity 3).mul isd277.syn).hw < ({ isd277 with dthr := 3 } : IsdScratch).dthr.toNat ∧
      (isd277.H.selectCols [1, 2, 4]).invert = .ok (mat 3 [6, 1, 4]) ∧
      ((mat 3 [6, 1, 4]).mul isd277.syn).hw = isd277.t := by decide
theorem wit_IsdTrialDraws :
    let sc := { isd277 with drawn := some [1, 2] }
    let s := { inLoop (.isd sc) sIsd with drawInputs := [4] }
    s.scratch = .isd sc ∧ sc.drawn = some [1, 2] ∧ [1, 2].length < sc.H.rows ∧
      draw sc.H.cols s = (4, { s with drawInputs := [] }) := ⟨rfl, rfl, by decide, rfl⟩
theorem wit_IsdSuccessScattersTheCandidate :
    isd277.drawn = some [1, 2, 4] ∧ [1, 2, 4].length = isd277.H.rows ∧
      ([1, 2, 4].Nodup ∧ ∀ x ∈ [1, 2, 4], x < isd277.H.cols) ∧
      (isd277.H.selectCols [1, 2, 4]).invert = .ok (mat 3 [6, 1, 4]) ∧
      ((mat 3 [6, 1, 4]).mul isd277.syn).hw = isd277.t ∧ isd277.syn.rows = isd277.H.rows ∧
      isd277.syn.cols = 1 := by decide

/-- A busy engine, slot 0 holding one matrix, inside a loop whose scratch is consistent, is safe. -/
theorem safe_inLoop {M : BitMatrix} {sc : Scratch} (hM : M.Fits Params.default) (hs : sc.Safe Params.default) :
    (inLoop sc (start [M] [])).Safe where
  params := rfl
  slots d N h := by
    have e : N = M := by
      simp [inLoop, start, State.slot] at h
      by_cases h0 : d.val = 0
      · simpa [h0] using h.symm
      · simp [h0] at h
    exact e ▸ hM
  cnt c h := by cases h
  xidx l h := by cases h
  scratch := hs
  idle h := by cases h
  busy _ := ⟨rfl, rfl⟩

theorem isd277_safe : isd277.Safe Params.default :=
  ⟨by unfold BitMatrix.Fits; decide, by decide, by decide, by unfold BitMatrix.HasShape; decide, fun idx h => by
    obtain rfl : [1, 2, 4] = idx := by simpa [isd277] using h
    unfold ColumnList; decide⟩

theorem wit_IsdResultSolvesTheInstance :
    let s := inLoop (.isd isd277) (start [mat 3 [5, 3]] [])
    s.Safe ∧ s.scratch = .isd isd277 ∧
      ∃ t, exec (.isd 3 0 1 1) s = .next t ∧ t.engine = .idle ∧ t.err = .none :=
  ⟨safe_inLoop (by unfold BitMatrix.Fits; decide) isd277_safe, rfl, _, rfl, rfl, rfl⟩

/-- The first instance of 43 R308. -/
def h0308 : BitMatrix := mat 4 [9, 9, 5, 1]
def h1308 : BitMatrix := mat 4 [11, 13, 13, 8]
def sBf : State := start [h0308, h1308, mat 1 [1, 1, 0, 0]] []
theorem wit_BitflipChecksAndSetup :
    sBf.scratch = .none ∧ sBf.slot 3 = none ∧ sBf.slot 0 = some h0308 ∧ sBf.slot 1 = some h1308 ∧
      sBf.slot 2 = some (mat 1 [1, 1, 0, 0]) ∧ h0308.cols = h0308.rows ∧ h1308.rows = h0308.rows ∧
      h1308.cols = h0308.rows ∧ (mat 1 [1, 1, 0, 0]).rows = h0308.rows ∧ (mat 1 [1, 1, 0, 0]).cols = 1 ∧
      2 * h0308.rows ≤ ({ Params.default with maxDim := 8 } : Params).maxDim.toNat ∧
      1 ≤ ({ Params.default with maxDim := 8 } : Params).maxDim.toNat ∧
      ¬ (2 * h0308.rows ≤ ({ Params.default with maxDim := 7 } : Params).maxDim.toNat) ∧
      2 * h0308.rows * nwords Params.default 1 ≤ ({ Params.default with slotWords := 8 } : Params).slotWords.toNat ∧
      ¬ (2 * h0308.rows * nwords Params.default 1
          ≤ ({ Params.default with slotWords := 7 } : Params).slotWords.toNat) ∧
      ¬ ((mat 3 [5, 3]).rows = (mat 3 [5, 3]).cols) := by decide
/-- The loop state of 43 R308 with H and s0 as the spec prints them. -/
def bfAt (syn u v : List Nat) (t it : Nat) (budget : Word) : BitflipScratch :=
  { threshold := 2, t := t, budget := budget, H := mat 8 [0b01101111, 0b00010011, 0b00000100, 0b11110111]
    s0 := mat 1 [1, 1, 1, 0], syn := mat 1 syn, u := mat 1 u, v := mat 1 v, it := BitVec.ofNat 64 it }
def bfWin : BitflipScratch := bfAt [0, 0, 0, 0] [0, 0, 0, 1] [0, 1, 0, 0] 1 2 0
def bfLose : BitflipScratch := bfAt [1, 1, 1, 0] [0, 0, 0, 0] [0, 0, 0, 0] 0 0 0
def bfSpent : BitflipScratch := bfAt [0, 1, 0, 1] [0, 0, 0, 0] [0, 1, 1, 1] 1 1 1

theorem wit_BitflipIterationFlipsByVote :
    let sc := { bfSpent with budget := 2 }
    (inLoop (.bitflip sc) sBf).scratch = .bitflip sc ∧ (sc.u.rows = 4 ∧ sc.u.cols = 1) ∧
      (sc.v.rows = 4 ∧ sc.v.cols = 1) ∧ (sc.syn.rows = 4 ∧ sc.syn.cols = 1) ∧
      (sc.H.rows = 4 ∧ sc.H.cols = 2 * 4) ∧ ¬ ((sc.u.hw = sc.t ∧ sc.v.hw = sc.t) ∨ sc.syn.hw = 0) ∧
      sc.it ≠ sc.budget ∧ (inLoop (.bitflip sc) sBf).abortReq = false := by decide

/-- 43 R308: success after iteration 2; DECODE_FAILURE(0) at once with t = 0; the budget 1 after
iteration 1; an abort request with no budget. -/
theorem wit_BitflipEnds :
    (bfWin.u.hw = bfWin.t ∧ bfWin.v.hw = bfWin.t) ∧
      (∀ i < 4, (bfWin.H.mul (bfWin.u.stack bfWin.v)).get i 0 = bfWin.s0.get i 0) ∧
      (bfLose.u.hw = bfLose.t ∧ bfLose.v.hw = bfLose.t) ∧
      (bfLose.H.mul (bfLose.u.stack bfLose.v)).get 0 0 ≠ bfLose.s0.get 0 0 ∧
      ¬ ((bfSpent.u.hw = bfSpent.t ∧ bfSpent.v.hw = bfSpent.t) ∨ bfSpent.syn.hw = 0) ∧ bfSpent.budget ≠ 0 ∧
      bfSpent.it = bfSpent.budget ∧ { bfSpent with budget := 0 }.budget = 0 ∧
      { inLoop (.bitflip bfSpent) sBf with abortReq := true }.abortReq = true := by decide
theorem wit_BitflipEnds_shapes :
    ∀ sc ∈ [bfWin, bfLose, bfSpent], (sc.u.rows = 4 ∧ sc.u.cols = 1) ∧ (sc.v.rows = 4 ∧ sc.v.cols = 1) ∧
      (sc.s0.rows = 4 ∧ sc.s0.cols = 1) ∧ (sc.H.rows = 4 ∧ sc.H.cols = 2 * 4) := by decide

theorem bfWin_safe : bfWin.Safe Params.default := by
  unfold BitflipScratch.Safe BitMatrix.HasShape; decide

theorem wit_BitflipSucceedsExactlyAtZeroSyndrome :
    let s := inLoop (.bitflip bfWin) (start [h0308] [])
    s.Safe ∧ s.scratch = .bitflip bfWin ∧ ∃ t, exec (.bitflip 3 0 1 2 2 1) s = .next t :=
  ⟨safe_inLoop (by unfold BitMatrix.Fits; decide) bfWin_safe, rfl, _, rfl⟩
theorem wit_BitflipEndsWithinItsBudget :
    let s := { busyWith 0x0000100002210331 sBf with bfMax := 1 }
    s.inputs = [] ∧ s.engine = .busy ∧ decode s.cmd = .command (.bitflip 3 0 1 2 2 1) ∧ s.scratch = .none ∧
      s.bfMax ≠ 0 := by decide

theorem wit_ErrorsArePrecise :
    let s := busyWith 0x5020 s3
    let u := busyWith 0x0000000005000005 s3
    s.engine = .busy ∧ s.err = .none ∧ (∃ t, exec (.hwt 5) s = .next t ∧ t.err ≠ .none ∧ t.err.code.toNat ≤ 6) ∧
      u.engine = .busy ∧ u.err = .none ∧ ∃ t, exec (.tgtwt 0 5) u = .next t ∧ t.engine = .busy :=
  ⟨by decide, by decide, ⟨_, rfl, by decide, by decide⟩, by decide, by decide, _, rfl, by decide⟩
theorem wit_CommandsKeepTheHostsRegisters : ∃ t, exec (.inv 3 0) (start [mat 2 [3, 2]] []) = .next t := ⟨_, rfl⟩
theorem wit_BusyEndsOnlyByCompletionOrReset :
    let a := { s3 with inputs := [⟨true, some (wr 0x28 0x20), true⟩] }
    let b := busyWith 0x20 s3
    let c := { busyWith 0x20 s3 with inputs := [⟨false, none, true⟩] }
    let d := { busyWith 0x20 s3 with inputs := [⟨true, none, false⟩] }
    (a.engine = .idle ∧ ∃ t, step a = .next t ∧ t.engine = .busy) ∧
      (b.engine = .busy ∧ ∃ t, step b = .next t ∧ t.engine = .idle) ∧
      (c.engine = .busy ∧ ∃ t, step c = .next t ∧ t.engine = .idle) ∧
      (d.engine = .busy ∧ ∃ t, step d = .next t ∧ t.engine = .busy) :=
  ⟨⟨by decide, _, rfl, by decide⟩, ⟨by decide, _, rfl, by decide⟩, ⟨by decide, _, rfl, by decide⟩,
    ⟨by decide, _, rfl, by decide⟩⟩
theorem wit_OnlyAResetOrAnAbortDisturbsARunningCommand :
    (busyWith 0x20 s3).engine = .busy ∧ (wr 0x18 3).isSoftReset = false ∧ (wr 0x88 7).isSoftReset = false ∧
      ({ we := true, addr := 0x18, size := 4, wdata := 4 } : HostAccess).isSoftReset = false := by decide
theorem wit_CmdWriteIsAcceptedOrDropped : s3.engine = .idle ∧ (busyWith 0x20 s3).engine = .busy := by decide
theorem wit_OddAccessesAreRefused :
    ¬ ((4 : BitVec 4) = 8 ∧ (0x28 : BitVec 8).toNat % 8 = 0) ∧
      ¬ ((8 : BitVec 4) = 8 ∧ (0x2C : BitVec 8).toNat % 8 = 0) ∧
      0xC8 ≤ (0xC8 : BitVec 8).toNat ∧ (0xC8 : BitVec 8).toNat % 8 = 0 ∧ 0xC8 ≤ (0xF8 : BitVec 8).toNat := by decide
/-- W = 64: row 1, word 0 exists in a matrix of 2 rows and 3 columns; row 2 and word 1 do not. -/
theorem wit_MdataReadsThePackedWord :
    (busyWith 0x20 s3).engine = .busy ∧ s3.engine = .idle ∧
      { s3 with maddr := ⟨3, 0, 0⟩ }.slot (slotOf 3) = none ∧
      { s3 with maddr := ⟨0, 0, 1⟩ }.slot (slotOf 0) = some (mat 3 [5, 3]) ∧
      (1 < (mat 3 [5, 3]).rows ∧ 0 < nwords s3.params (mat 3 [5, 3]).cols) ∧
      ¬ (2 < (mat 3 [5, 3]).rows) ∧ ¬ (1 < nwords s3.params (mat 3 [5, 3]).cols) ∧
      2 < ew s3.params (mat 3 [5, 3]).cols 0 ∧ ew s3.params (mat 3 [5, 3]).cols 0 ≤ 3 := by decide
/-- W = 8: word 1 of 11 columns is the last one, 3 columns wide. -/
theorem wit_MdataWritesOneWord :
    let p := { Params.default with wordBits := .w8 }
    let s := { start [mat 11 [0]] [] with params := p, maddr := ⟨0, 1, 0⟩ }
    s.engine = .idle ∧ s.slot (slotOf s.maddr.slot) = some (mat 11 [0]) ∧ s.maddr.row.toNat < (mat 11 [0]).rows ∧
      s.maddr.word.toNat < nwords s.params 11 ∧ ¬ (2 < nwords s.params 11) ∧ 2 < ew s.params 11 1 ∧
      s.slot 1 = none ∧ (busyWith 0x20 s).engine = .busy := by decide
theorem wit_CountAndIndexWindows :
    let c : CountBuffer := { rows := 1, cols := 2, entries := [3, 4] }
    let s := { s3 with cnt := some c, xidx := some [2, 0] }
    s.engine = .idle ∧ s.cnt = some c ∧ s.xidx = some [2, 0] ∧ s3.cnt = none ∧ s3.xidx = none ∧
      { s with caddr := 1 }.caddr.toNat < c.rows * c.cols ∧ c.rows * c.cols ≤ { s with caddr := 2 }.caddr.toNat ∧
      { s with xaddr := 1 }.xaddr.toNat < [2, 0].length ∧ [2, 0].length ≤ { s with xaddr := 2 }.xaddr.toNat ∧
      s.slot (slotOf s.maddr.slot) = some (mat 3 [5, 3]) ∧
      { s with maddr := ⟨3, 0, 0⟩ }.slot (slotOf 3) = none ∧ (busyWith 0x20 s).engine = .busy := by decide
theorem wit_PackedWordsHoldTheColumns :
    0 < (mat 3 [5, 3]).rows ∧ 2 < (mat 3 [5, 3]).cols ∧ ew Params.default 3 0 ≤ 3 ∧
      ((mat 3 [5, 3]).rows = (mat 3 [5, 3]).rows ∧ (mat 3 [5, 3]).cols = (mat 3 [5, 3]).cols) := by decide
theorem wit_CtrlWritesAct :
    (4 : Word).getLsbD 2 = true ∧ (3 : Word).getLsbD 2 = false ∧ (3 : Word).getLsbD 1 = true ∧
      (1 : Word).getLsbD 1 = false ∧ (busyWith 0x20 s3).engine = .busy ∧ s3.engine = .idle ∧
      (∀ md ms1 ms2 w, Instr.hwt 0 ≠ .isd md ms1 ms2 w) ∧
      (∀ md ms1 ms2 ms3 T w, Instr.hwt 0 ≠ .bitflip md ms1 ms2 ms3 T w) ∧ ∃ t, exec (.hwt 0) s3 = .next t :=
  ⟨by decide, by decide, by decide, by decide, by decide, by decide, by simp, by simp, _, rfl⟩
theorem wit_ConfigurationWrites :
    s3.engine = .idle ∧ (busyWith 0x20 s3).engine = .busy ∧
      (0x70 : BitVec 8) ∈ ([0x40, 0x48, 0x60, 0x70] : List (BitVec 8)) := by decide
theorem wit_EventsAtOneEdgeAreOrdered :
    let s (e : Edge) := { busyWith 0x20 s3 with inputs := [e] }
    (s ⟨false, some (rd 0), true⟩).engine = .busy ∧ (wr 0x18 7).isSoftReset = true ∧
      (3 : Word).getLsbD 2 = false ∧ (3 : Word).getLsbD 1 = true ∧
      (∃ t, step (s ⟨false, some (rd 0), true⟩) = .next t) ∧ (∃ t, step (s ⟨true, some (wr 0x18 7), true⟩) = .next t) ∧
      (∃ t, step (s ⟨true, some (writeAt 0x28 0), true⟩) = .next t ∧ t.engine = .idle) ∧
      (∃ t, step (s ⟨true, some (writeAt 0x20 2), true⟩) = .next t ∧ t.engine = .idle) ∧
      ∃ t, step (s ⟨true, some (writeAt 0x18 3), true⟩) = .next t :=
  ⟨by decide, by decide, by decide, by decide, ⟨_, rfl⟩, ⟨_, rfl⟩, ⟨_, rfl, by decide⟩, ⟨_, rfl, by decide⟩, _, rfl⟩
theorem wit_EveryStepKeepsTheSafeStates :
    let s := { inLoop (.isd isd277) (start [mat 3 [5, 3]] []) with cmd := 0x0000000001010330 }
    s.Safe ∧ ∃ t, step s = .next t ∧ t.engine = .idle :=
  have h := safe_inLoop (M := mat 3 [5, 3]) (sc := .isd isd277) (by unfold BitMatrix.Fits; decide) isd277_safe
  ⟨⟨h.params, h.slots, h.cnt, h.xidx, h.scratch, h.idle, h.busy⟩, _, rfl, by decide⟩
theorem wit_ResetValues :
    { busyWith 0x20 s3 with inputs := [⟨false, none, true⟩] }.inputs = ⟨false, none, true⟩ :: [] := rfl

end Sys2Proof.Tests
end

section
/-! PROOF. One access to a register at its offset, and what each kind of register write leaves
(10_state.md R40, R48, R60; 20_memory.md R81, R85). -/

namespace Sys2Proof.Machine

/-- An 8-byte read at a register's offset reads that register (20_memory.md R81, R85). -/
theorem busAccess_readAt {o : BitVec 8} (r : Reg) (s : State) (ha : o.toNat % 8 = 0) (hr : regAt o = some r) :
    busAccess (readAt o) s = (readReg r s).2.respond false (readReg r s).1 := by
  simp [busAccess, readAt, HostAccess.accepted, ha, hr]

/-- An 8-byte write at a register's offset writes that register (20_memory.md R81, R85). -/
theorem busAccess_writeAt {o : BitVec 8} (r : Reg) (v : Word) (s : State) (ha : o.toNat % 8 = 0)
    (hr : regAt o = some r) : busAccess (writeAt o v) s = (writeReg r v s).respondFree true := by
  simp [busAccess, writeAt, HostAccess.accepted, ha, hr]

/-- A configuration write while IDLE is stored (10_state.md R60). -/
theorem writeConfig_idle {put : State → State} {s : State} (h : s.engine = .idle) : writeConfig put s = put s := by
  simp [writeConfig, h]

/-- A configuration write while BUSY is dropped and sets HAZ (70_reset_and_hazards.md R372). -/
theorem writeConfig_busy {put : State → State} {s : State} (h : s.engine = .busy) : writeConfig put s = s.setHaz := by
  simp [writeConfig, h]

/-- CTRL reads IE alone (10_state.md R48). -/
theorem State.ctrlWord_eq (s : State) : s.ctrlWord = if s.ie then 1 else 0 := by
  cases h : s.ie <;> simp [State.ctrlWord, h]

theorem State.writeCtrl_of_srst {v : Word} {s : State} (h : v.getLsbD 2 = true) : s.writeCtrl v = s.resetEngine :=
  if_pos h

theorem State.writeCtrl_of_no_srst {v : Word} {s : State} (h : v.getLsbD 2 = false) :
    s.writeCtrl v = { s with ie := v.getLsbD 0, abortReq := s.abortReq || (v.getLsbD 1 && s.busy) } :=
  if_neg (Bool.eq_false_iff.mp h)

/-- ABORT while BUSY sets the abort request (60_exceptions.md R333). -/
theorem State.writeCtrl_of_abort {v : Word} {s : State} (hr : v.getLsbD 2 = false) (ha : v.getLsbD 1 = true)
    (hb : s.engine = .busy) : s.writeCtrl v = { s with ie := v.getLsbD 0, abortReq := true } := by
  have hbusy : s.busy = true := decide_eq_true hb
  rw [writeCtrl_of_no_srst hr, ha, hbusy, Bool.true_and, Bool.or_true]

/-- Without SRST, a CTRL write whose ABORT is 0 or which meets an IDLE engine only takes IE (10_state.md R48). -/
theorem State.writeCtrl_of_no_abort {v : Word} {s : State} (hr : v.getLsbD 2 = false)
    (h : v.getLsbD 1 = false ∨ s.engine = .idle) : s.writeCtrl v = { s with ie := v.getLsbD 0 } := by
  have hab : (v.getLsbD 1 && s.busy) = false := by
    rcases h with ha | hidle
    · rw [ha, Bool.false_and]
    · simp [State.busy, hidle]
  rw [writeCtrl_of_no_srst hr, hab, Bool.or_false]

end Sys2Proof.Machine
end

section
/-! PROOF. The words of MADDR and of the constant registers, field by field (10_state.md R45 to R47, R61). -/

namespace Sys2Proof.Machine

theorem MAddr.toWord_fields (a : MAddr) :
    a.toWord.extractLsb' 0 4 = a.slot ∧ a.toWord.extractLsb' 4 4 = 0 ∧ a.toWord.extractLsb' 8 20 = a.word ∧
      a.toWord.extractLsb' 28 4 = 0 ∧ a.toWord.extractLsb' 32 20 = a.row ∧ a.toWord.extractLsb' 52 12 = 0 := by
  simp (disch := omega) only [MAddr.toWord, BitVec.extractLsb'_append_eq_of_le,
    BitVec.extractLsb'_append_eq_of_add_le, BitVec.extractLsb'_eq_self, Nat.reduceSub]
  trivial

theorem idWord_fields (p : Params) :
    (idWord p).extractLsb' 0 32 = 0x4D324647 ∧ (idWord p).extractLsb' 32 8 = 0x01 ∧
      (idWord p).extractLsb' 40 8 = BitVec.ofNat 8 p.W ∧ (idWord p).extractLsb' 48 8 = 16 ∧
      (idWord p).extractLsb' 56 8 = 0 := by
  simp (disch := omega) only [idWord, Config.nslots, BitVec.extractLsb'_append_eq_of_le,
    BitVec.extractLsb'_append_eq_of_add_le, BitVec.extractLsb'_eq_self, Nat.reduceSub]
  trivial

theorem cap0Word_fields (p : Params) :
    (cap0Word p).extractLsb' 0 32 = p.slotWords ∧ (cap0Word p).extractLsb' 32 20 = p.maxDim ∧
      (cap0Word p).extractLsb' 52 12 = 0 := by
  simp (disch := omega) only [cap0Word, BitVec.extractLsb'_append_eq_of_le,
    BitVec.extractLsb'_append_eq_of_add_le, BitVec.extractLsb'_eq_self, Nat.reduceSub]
  trivial

theorem cap1Word_fields (p : Params) :
    (cap1Word p).extractLsb' 0 32 = p.countCap ∧ (cap1Word p).extractLsb' 32 8 = 32 ∧
      (cap1Word p).extractLsb' 40 24 = 0 := by
  simp (disch := omega) only [cap1Word, Config.cntBits, BitVec.extractLsb'_append_eq_of_le,
    BitVec.extractLsb'_append_eq_of_add_le, BitVec.extractLsb'_eq_self, Nat.reduceSub]
  trivial

end Sys2Proof.Machine
end

section
/-! PROOF. Which commands an abort request can change (10_state.md R48): none but ISD and BITFLIP. -/

namespace Sys2Proof.Machine

/-- s with the abort request set to r. -/
def State.withAbort (r : Bool) (s : State) : State := { s with abortReq := r }

/-- A step's answer with the abort request of the next state set to r. -/
def withAbortResult (r : Bool) : Result → Result
  | .next t => .next (t.withAbort r)
  | .fault e => .fault e
  | .refused e => .refused e

/-- The command does the same with either value of the abort request (10_state.md R48). -/
def IgnoresAbort (i : Instr) : Prop := ∀ r s, exec i (s.withAbort r) = withAbortResult r (exec i s)

section
variable {r : Bool} {s : State}

theorem draw_withAbort (m : Nat) : draw m (s.withAbort r) = ((draw m s).1, (draw m s).2.withAbort r) := by
  cases h : s.drawInputs <;> simp [draw, State.withAbort, h]

theorem drawColumn_withAbort (c : Nat) (idx : List Nat) :
    drawColumn c idx (s.withAbort r) = ((drawColumn c idx s).1, (drawColumn c idx s).2.withAbort r) := by
  simp [drawColumn, draw_withAbort]

theorem drawBits_withAbort (n : Nat) :
    drawBits n (s.withAbort r) = ((drawBits n s).1, (drawBits n s).2.withAbort r) := by
  induction n generalizing s with
  | zero => rfl
  | succ n ih => simp [drawBits, draw_withAbort, ih]

/-- A slot read reads the same slot, so only what follows it matters. -/
theorem withSlot_withAbort {f : OperandField} {d : SlotId} {k k' : BitMatrix → Result}
    (h : ∀ M, k' M = withAbortResult r (k M)) :
    withSlot f d (s.withAbort r) k' = withAbortResult r (withSlot f d s k) := by
  have hd : (s.withAbort r).slot d = s.slot d := rfl
  cases hs : s.slot d with
  | none => rw [withSlot_none hs, withSlot_none (hd.trans hs)]; rfl
  | some M => rw [withSlot_some hs, withSlot_some (hd.trans hs), h]

/-- A check tests the same condition, so only what follows it matters. -/
theorem check_withAbort {p : Prop} [Decidable p] {e : ErrCode} {n : Nat} {k k' : Result}
    (h : k' = withAbortResult r k) : check p e n (s.withAbort r) k' = withAbortResult r (check p e n s k) := by
  by_cases hp : p
  · rw [check_pos hp, check_pos hp, h]
  · rw [check_neg hp, check_neg hp]; rfl

theorem execRand_withAbort (md : SlotId) : execRand md (s.withAbort r) = withAbortResult r (execRand md s) :=
  withSlot_withAbort fun M => by rw [drawBits_withAbort]; rfl

theorem tgtwtPass_withAbort (md : SlotId) (M : BitMatrix) (w : Nat) :
    tgtwtPass md M w (s.withAbort r) = withAbortResult r (tgtwtPass md M w s) := by
  unfold tgtwtPass
  split
  · rw [draw_withAbort]; rfl
  · rfl

theorem execTgtwt_withAbort (md : SlotId) (w : Nat) :
    execTgtwt md w (s.withAbort r) = withAbortResult r (execTgtwt md w s) := by
  have hsc : (s.withAbort r).scratch = s.scratch := rfl
  unfold execTgtwt
  rw [hsc]
  split
  · exact tgtwtPass_withAbort ..
  · exact withSlot_withAbort fun M => check_withAbort (check_withAbort rfl)

theorem samplePass_withAbort (md : SlotId) (M : BitMatrix) (k : Nat) (idx : List Nat) :
    samplePass md M k idx (s.withAbort r) = withAbortResult r (samplePass md M k idx s) := by
  unfold samplePass
  split
  · rw [drawColumn_withAbort]; rfl
  · rfl

theorem execSample_withAbort (md ms1 : SlotId) (k : Nat) :
    execSample md ms1 k (s.withAbort r) = withAbortResult r (execSample md ms1 k s) := by
  have hsc : (s.withAbort r).scratch = s.scratch := rfl
  unfold execSample
  rw [hsc]
  split
  · exact samplePass_withAbort ..
  · exact withSlot_withAbort fun M => check_withAbort rfl

theorem execInv_withAbort (md ms1 : SlotId) :
    execInv md ms1 (s.withAbort r) = withAbortResult r (execInv md ms1 s) :=
  withSlot_withAbort fun M => check_withAbort (by cases M.invert <;> rfl)

end

/-- Only ISD and BITFLIP heed an abort request (10_state.md R48): every other command is a chain of slot reads
and checks that ends in one named update, and none of these reads the request. -/
theorem ignoresAbort_of_ne {i : Instr} (hisd : ∀ md ms1 ms2 w, i ≠ .isd md ms1 ms2 w)
    (hbf : ∀ md ms1 ms2 ms3 T w, i ≠ .bitflip md ms1 ms2 ms3 T w) : IgnoresAbort i := by
  intro r s
  cases i with
  | isd md ms1 ms2 w => exact absurd rfl (hisd md ms1 ms2 w)
  | bitflip md ms1 ms2 ms3 T w => exact absurd rfl (hbf md ms1 ms2 ms3 T w)
  | rand md => exact execRand_withAbort md
  | tgtwt md w => exact execTgtwt_withAbort md w
  | sample md ms1 k => exact execSample_withAbort md ms1 k
  | inv md ms1 => exact execInv_withAbort md ms1
  | nop => rfl
  | init | ident => exact check_withAbort rfl
  | copy | rot | hwt | iszero | isut => exact withSlot_withAbort fun _ => rfl
  | trans => exact withSlot_withAbort fun _ => check_withAbort rfl
  | setbit | getbit | rowxor | rowswap => exact withSlot_withAbort fun _ => check_withAbort (check_withAbort rfl)
  | add => exact withSlot_withAbort fun _ => withSlot_withAbort fun _ => check_withAbort rfl
  | concat | mul | mulcnt =>
    exact withSlot_withAbort fun _ => withSlot_withAbort fun _ => check_withAbort (check_withAbort rfl)

end Sys2Proof.Machine
end

section
/-! PROOF. The reset state (10_state.md R72), and how a step and a CTRL write reach it. -/

namespace Sys2Proof.Machine

theorem step_of_inputs_cons {s : State} {e : Edge} {rest : List Edge} (h : s.inputs = e :: rest) :
    step s = clockEdge e { s with inputs := rest } := by
  simp [step, nextEdge, h]

theorem slot_afterReset (p : Params) (d : SlotId) : (State.afterReset p).slot d = none := by
  simp [State.slot, State.afterReset]

theorem windowSlot_afterReset (p : Params) : (State.afterReset p).windowSlot = none := slot_afterReset p _

theorem statusWord_afterReset (p : Params) : (State.afterReset p).statusWord = 0 := by
  simp [State.statusWord, State.busy, State.afterReset, ErrCode.code]

theorem maddrWord_afterReset (p : Params) : (State.afterReset p).maddr.toWord = 0 := by
  simp [MAddr.toWord, State.afterReset]

theorem mdimWord_afterReset (p : Params) : (State.afterReset p).mdimWord = 0 := by
  simp [State.mdimWord, windowSlot_afterReset]

/-- After a reset every slot is EMPTY, so the matrix window reads 0 with WINERR (20_memory.md R87). -/
theorem readMdata_afterReset (p : Params) :
    readMdata (State.afterReset p) = (0, (State.afterReset p).setWinerr) := by
  have hidle : (State.afterReset p).engine = .idle := rfl
  simp [readMdata, hidle, windowSlot_afterReset]

/-- An edge with rst_n = 0 resets, whatever access meets it (60_exceptions.md R335). -/
theorem step_reset {s : State} {a : Option HostAccess} {b : Bool} {rest : List Edge}
    (h : s.inputs = ⟨false, a, b⟩ :: rest) : step s = .next (resetEdge a { s with inputs := rest }) :=
  step_of_inputs_cons h

end Sys2Proof.Machine
end

section
/-! PROOF. The statements of the state family: CTRL, the configuration registers, and reset. -/

namespace Sys2Proof.Machine

/-- Settles O55: a CTRL write by its bits, and no command but ISD and BITFLIP reads the abort request. -/
theorem ctrlWritesAct : Obligations.CtrlWritesAct := by
  intro v s
  refine ⟨?_, fun hr => ?_, fun hr ha hb => ?_, fun hr h => ?_, fun i r t hisd hbf ht => ?_⟩
  · rw [busAccess_readAt .ctrl s rfl rfl, readReg, State.ctrlWord_eq]
  · rw [busAccess_writeAt .ctrl v s rfl rfl, writeReg, State.writeCtrl_of_srst hr]; rfl
  · rw [busAccess_writeAt .ctrl v s rfl rfl, writeReg, State.writeCtrl_of_abort hr ha hb]
  · rw [busAccess_writeAt .ctrl v s rfl rfl, writeReg, State.writeCtrl_of_no_abort hr h]
  · have hi := ignoresAbort_of_ne hisd hbf r s
    rw [ht] at hi
    exact hi

/-- While IDLE the four configuration registers are stored (10_state.md R60, R53, R56, R58). -/
theorem configuration_stored {s : State} (v : Word) (h : s.engine = .idle) :
    busAccess (writeAt 0x40 v) s = { s with seed := v, prng := Config.seedFn v }.respondFree true ∧
      busAccess (writeAt 0x48 v) s = { s with isdMax := v }.respondFree true ∧
      busAccess (writeAt 0x60 v) s = { s with isdDthr := v }.respondFree true ∧
      busAccess (writeAt 0x70 v) s = { s with bfMax := v }.respondFree true := by
  refine ⟨?_, ?_, ?_, ?_⟩
  · rw [busAccess_writeAt .seed v s rfl rfl, writeReg, writeConfig_idle h, State.reseed]
  · rw [busAccess_writeAt .isdMax v s rfl rfl, writeReg, writeConfig_idle h]
  · rw [busAccess_writeAt .isdDthr v s rfl rfl, writeReg, writeConfig_idle h]
  · rw [busAccess_writeAt .bfMax v s rfl rfl, writeReg, writeConfig_idle h]

/-- While BUSY a write of any of the four is dropped with HAZ (70_reset_and_hazards.md R372). -/
theorem configuration_dropped {s : State} (v : Word) (h : s.engine = .busy) :
    ∀ o ∈ ([0x40, 0x48, 0x60, 0x70] : List (BitVec 8)),
      busAccess (writeAt o v) s = s.setHaz.respondFree true := by
  simp only [List.forall_mem_cons, List.not_mem_nil, false_implies, implies_true, and_true]
  refine ⟨?_, ?_, ?_, ?_⟩
  · rw [busAccess_writeAt .seed v s rfl rfl, writeReg, writeConfig_busy h]
  · rw [busAccess_writeAt .isdMax v s rfl rfl, writeReg, writeConfig_busy h]
  · rw [busAccess_writeAt .isdDthr v s rfl rfl, writeReg, writeConfig_busy h]
  · rw [busAccess_writeAt .bfMax v s rfl rfl, writeReg, writeConfig_busy h]

/-- Settles O56: the four guarded registers by the engine's state, the three addresses at any time. -/
theorem configurationWrites : Obligations.ConfigurationWrites := by
  intro v s
  refine ⟨busAccess_readAt .seed s rfl rfl, busAccess_readAt .isdMax s rfl rfl,
    busAccess_readAt .isdDthr s rfl rfl, busAccess_readAt .bfMax s rfl rfl,
    configuration_stored v, configuration_dropped v, busAccess_writeAt .maddr v s rfl rfl,
    ⟨s.maddr.toWord, busAccess_readAt .maddr s rfl rfl, s.maddr.toWord_fields⟩, ?_, ?_, ?_, ?_⟩
  · rw [busAccess_writeAt .caddr v s rfl rfl, writeReg, BitVec.setWidth_eq_extractLsb' (by decide)]
  · rw [busAccess_readAt .caddr s rfl rfl, readReg, BitVec.ofNat_toNat]
  · rw [busAccess_writeAt .xaddr v s rfl rfl, writeReg, BitVec.setWidth_eq_extractLsb' (by decide)]
  · rw [busAccess_readAt .xaddr s rfl rfl, readReg, BitVec.ofNat_toNat]

/-- ID, CAP0 and CAP1 read their constants in every state (10_state.md R45 to R47). -/
theorem constants_read (s : State) :
    busAccess (readAt 0x00) s = s.respond false (idWord s.params) ∧
      busAccess (readAt 0x08) s = s.respond false (cap0Word s.params) ∧
      busAccess (readAt 0x10) s = s.respond false (cap1Word s.params) :=
  ⟨busAccess_readAt .id s rfl rfl, busAccess_readAt .cap0 s rfl rfl, busAccess_readAt .cap1 s rfl rfl⟩

theorem constant_words_default :
    idWord Params.default = 0x001040014D324647 ∧ cap0Word Params.default = 0x00001FFF00100000 ∧
      cap1Word Params.default = 0x0000002000004000 := by decide

/-- What a host reads of the three right after reset, with the default parameters of 00_scope.md R7. -/
theorem constants_read_default :
    busAccess (readAt 0x00) State.reset = State.reset.respond false 0x001040014D324647 ∧
      busAccess (readAt 0x08) State.reset = State.reset.respond false 0x00001FFF00100000 ∧
      busAccess (readAt 0x10) State.reset = State.reset.respond false 0x0000002000004000 := by
  obtain ⟨hid, hcap0, hcap1⟩ := constant_words_default
  rw [← hid, ← hcap0, ← hcap1]
  exact constants_read State.reset

/-- Settles O60: both resets leave `State.afterReset`, whose fields, words and windows are read off. -/
theorem resetValues : Obligations.ResetValues := by
  obtain ⟨hid, hcap0, hcap1⟩ := constants_read_default
  refine ⟨rfl, fun s b rest h => step_reset h, fun s => ?_, fun s => ?_, hid, hcap0, hcap1, fun p => ?_⟩
  · rw [busAccess_writeAt .ctrl 4 s rfl rfl, writeReg, State.writeCtrl_of_srst (by decide)]; rfl
  · obtain ⟨ha, hb, hc⟩ := constants_read s
    obtain ⟨hmagic, hversion, hW, hslots, hreserved⟩ := idWord_fields s.params
    obtain ⟨hwords, hdim, hreserved0⟩ := cap0Word_fields s.params
    exact ⟨_, _, _, ha, hb, hc, hmagic, hversion, hW, hslots, hreserved, hwords, hdim, hreserved0,
      cap1Word_fields s.params⟩
  · intro s
    refine ⟨slot_afterReset p, ?_⟩
    rw [statusWord_afterReset, maddrWord_afterReset, mdimWord_afterReset, readMdata_afterReset]
    and_intros <;> rfl

end Sys2Proof.Machine
end

section
/-! PROOF. The packed layout of a row (20_memory.md R84, R86): the columns of a word, its bits, and what
overwriting one word leaves. -/

namespace Sys2Proof.Machine

/-- Word q of a row exists exactly when its first column does (20_memory.md R84). -/
theorem lt_nwords_iff (p : Params) (c q : Nat) : q < nwords p c ↔ q * p.W < c := by
  have hW := W_pos p
  rw [nwords, Nat.lt_iff_add_one_le, Nat.le_div_iff_mul_le hW, Nat.add_one_mul]
  omega

theorem ew_le_W (p : Params) (c q : Nat) : ew p c q ≤ p.W := by
  have hmod := Nat.mod_lt c (W_pos p)
  unfold ew
  split <;> omega

/-- An existing word is as wide as the columns left for it, at most W (20_memory.md R84). -/
theorem ew_eq_min {p : Params} {c q : Nat} (hq : q < nwords p c) : ew p c q = min p.W (c - q * p.W) := by
  have hnext : q < nwords p c - 1 ↔ q * p.W + p.W < c := by
    rw [← Nat.add_one_mul, ← lt_nwords_iff]; omega
  rw [lt_nwords_iff] at hq
  simp only [ew, hnext]
  split
  case isTrue h =>
    have hwhole : q * p.W + p.W ≤ c := by
      rcases h with h | h
      · exact h.le
      · obtain ⟨m, rfl⟩ := Nat.dvd_of_mod_eq_zero h
        rw [Nat.mul_comm p.W m] at hq ⊢
        rw [← Nat.add_one_mul]
        exact Nat.mul_le_mul_right _ (Nat.lt_of_mul_lt_mul_right hq)
    omega
  case isFalse h =>
    obtain ⟨hlast, hmod⟩ := not_or.mp h
    have hne : c ≠ q * p.W + p.W := fun h => hmod (by rw [h, ← Nat.add_one_mul, Nat.mul_mod_left])
    have hdiv : c / p.W = q := by rw [Nat.div_eq_iff (W_pos p)]; omega
    have hsplit := Nat.div_add_mod c p.W
    have hlt := Nat.mod_lt c (W_pos p)
    rw [hdiv, Nat.mul_comm] at hsplit
    omega

/-- The columns of an existing word q are `q W` to `q W + e - 1` (20_memory.md R84). -/
theorem div_W_eq_iff {p : Params} {c q j : Nat} (hq : q < nwords p c) :
    (j < c ∧ j / p.W = q) ↔ ∃ k < ew p c q, j = q * p.W + k := by
  have hW := W_pos p
  rw [Nat.div_eq_iff hW, ew_eq_min hq]
  rw [lt_nwords_iff] at hq
  constructor
  · rintro ⟨hj, hlo, hhi⟩
    exact ⟨j - q * p.W, by omega, by omega⟩
  · rintro ⟨k, hk, rfl⟩
    omega

/-- Column k of word q sits at bit `e - 1 - k` (20_memory.md R84). -/
theorem bitPos_mul_add {p : Params} {c q k : Nat} (hk : k < p.W) :
    bitPos p c (q * p.W + k) = ew p c q - 1 - k := by
  rw [bitPos, Nat.mul_comm, Nat.mul_add_div (W_pos p), Nat.mul_add_mod, Nat.div_eq_of_lt hk, Nat.mod_eq_of_lt hk,
    Nat.add_zero]

/-- A row of bits as a number: column k has the weight `2^(c - 1 - k)` (00_scope.md R11). -/
theorem toNat_bitRow (c : Nat) (g : Nat → Bool) :
    (bitRow c g).toNat = natSum c fun k => (g k).toNat * 2 ^ (c - 1 - k) := by
  induction c with
  | zero => rfl
  | succ c ih =>
    have hdouble : (natSum c fun k => (g k).toNat * 2 ^ (c - k)) =
        2 * natSum c fun k => (g k).toNat * 2 ^ (c - 1 - k) := by
      rw [natSum_eq_sum, natSum_eq_sum, Finset.mul_sum]
      refine Finset.sum_congr rfl fun k hk => ?_
      have hk := Finset.mem_range.mp hk
      rw [show c - k = c - 1 - k + 1 by omega, pow_succ]
      ring
    simp [bitRow, natSum, hdouble, ih, BitVec.toNat_concat, Nat.mul_comm]

/-- A packed word is the row of its columns, zero-extended (20_memory.md R84, R87). -/
theorem packedWord_eq_setWidth (p : Params) (M : BitMatrix) (i q : Nat) :
    packedWord p M i q = (bitRow (ew p M.cols q) fun k => M.get i (q * p.W + k)).setWidth 64 := by
  rw [packedWord, ← toNat_bitRow, zext64, BitVec.ofNat_toNat]

/-- The bits of a packed word: its columns from bit e - 1 down, and 0 above (20_memory.md R84, R86). -/
theorem getLsbD_packedWord (p : Params) (M : BitMatrix) (i q b : Nat) :
    (packedWord p M i q).getLsbD b =
      (decide (b < ew p M.cols q) && M.get i (q * p.W + (ew p M.cols q - 1 - b))) := by
  have he := (ew_le_W p M.cols q).trans (W_le_64 p)
  rw [packedWord_eq_setWidth, BitVec.getLsbD_setWidth, BitVec.getLsbD_eq_getMsbD, getMsbD_bitRow]
  by_cases hb : b < ew p M.cols q
  · simp [hb, show b < 64 by omega, show ew p M.cols q - 1 - b < ew p M.cols q by omega]
  · simp [hb]

theorem storeWord_hasShape (p : Params) (M : BitMatrix) (i q : Nat) (v : Word) :
    (storeWord p M i q v).HasShape M.rows M.cols :=
  ⟨M.rows_set_row i _, rfl⟩

/-- Overwriting word q of row i: its columns take their bits of v (20_memory.md R88). -/
theorem get_storeWord_word {p : Params} {M : BitMatrix} {i q k : Nat} (v : Word) (hi : i < M.rows)
    (hq : q < nwords p M.cols) (hk : k < ew p M.cols q) :
    (storeWord p M i q v).get i (q * p.W + k) = v.getLsbD (ew p M.cols q - 1 - k) := by
  obtain ⟨hcol, hword⟩ := (div_W_eq_iff hq).mpr ⟨k, hk, rfl⟩
  have hpos := bitPos_mul_add (c := M.cols) (q := q) (hk.trans_le (ew_le_W p M.cols q))
  simp [storeWord, BitMatrix.get_set_row, hi, hcol, hword, hpos]

/-- Overwriting word q of row i: every cell outside the word stays (20_memory.md R88). -/
theorem get_storeWord_other {p : Params} {M : BitMatrix} {i q a b : Nat} (v : Word) (hq : q < nwords p M.cols)
    (h : ¬ (a = i ∧ ∃ k, k < ew p M.cols q ∧ b = q * p.W + k)) :
    (storeWord p M i q v).get a b = M.get a b := by
  rw [storeWord, BitMatrix.get_set_row]
  split
  case isFalse => rfl
  case isTrue hrow =>
    obtain ⟨rfl, -⟩ := hrow
    rw [getMsbD_bitRow]
    by_cases hb : b < M.cols
    · have hword : b / p.W ≠ q := fun hword => h ⟨rfl, (div_W_eq_iff hq).mp ⟨hb, hword⟩⟩
      simp [hb, hword]
    · simp [hb, BitMatrix.get_eq_false_of_cols_le (Nat.le_of_not_lt hb)]

@[simp] theorem wordInRange_iff (p : Params) (M : BitMatrix) (i q : Nat) :
    wordInRange p M i q = true ↔ i < M.rows ∧ q < nwords p M.cols := by
  simp [wordInRange]

end Sys2Proof.Machine
end

section
/-! PROOF. The three data windows by their guards: BUSY, range, success (20_memory.md R87, R88, R91, R92); and
the words that describe the slot and the buffers (10_state.md R63, R67, R70). -/

namespace Sys2Proof.Machine

section
variable {s : State}

theorem readMdata_busy (h : s.engine = .busy) : readMdata s = (0, s.setHaz) := by simp [readMdata, h]

theorem readMdata_empty (h : s.engine = .idle) (hs : s.windowSlot = none) : readMdata s = (0, s.setWinerr) := by
  simp [readMdata, h, hs]

theorem readMdata_full {M : BitMatrix} (h : s.engine = .idle) (hs : s.windowSlot = some M) :
    readMdata s = if s.maddr.row.toNat < M.rows ∧ s.maddr.word.toNat < nwords s.params M.cols then
      (packedWord s.params M s.maddr.row.toNat s.maddr.word.toNat, s) else (0, s.setWinerr) := by
  simp [readMdata, h, hs]

theorem writeMdata_busy (v : Word) (h : s.engine = .busy) : writeMdata v s = s.setHaz := by simp [writeMdata, h]

theorem writeMdata_empty (v : Word) (h : s.engine = .idle) (hs : s.windowSlot = none) :
    writeMdata v s = s.setWinerr := by
  simp [writeMdata, h, hs]

theorem writeMdata_full {M : BitMatrix} (v : Word) (h : s.engine = .idle) (hs : s.windowSlot = some M) :
    writeMdata v s = if s.maddr.row.toNat < M.rows ∧ s.maddr.word.toNat < nwords s.params M.cols then
      s.setSlot (slotOf s.maddr.slot) (storeWord s.params M s.maddr.row.toNat s.maddr.word.toNat v)
      else s.setWinerr := by
  simp [writeMdata, h, hs]

theorem readCdata_busy (h : s.engine = .busy) : readCdata s = (0, s.setHaz) := by simp [readCdata, h]

theorem readCdata_invalid (h : s.engine = .idle) (hc : s.cnt = none) : readCdata s = (0, s.setWinerr) := by
  simp [readCdata, h, hc]

theorem readCdata_valid {c : CountBuffer} (h : s.engine = .idle) (hc : s.cnt = some c) :
    readCdata s = if s.caddr.toNat < c.rows * c.cols then
      (BitVec.ofNat 64 (c.entries.getD s.caddr.toNat 0).toNat, s) else (0, s.setWinerr) := by
  simp only [readCdata, h, hc, BitVec.ofNat_toNat]

theorem readXdata_busy (h : s.engine = .busy) : readXdata s = (0, s.setHaz) := by simp [readXdata, h]

theorem readXdata_invalid (h : s.engine = .idle) (hx : s.xidx = none) : readXdata s = (0, s.setWinerr) := by
  simp [readXdata, h, hx]

theorem readXdata_valid {l : List (BitVec 20)} (h : s.engine = .idle) (hx : s.xidx = some l) :
    readXdata s = if s.xaddr.toNat < l.length then
      (BitVec.ofNat 64 (l.getD s.xaddr.toNat 0).toNat, s) else (0, s.setWinerr) := by
  simp only [readXdata, h, hx, BitVec.ofNat_toNat]

end

/-- The words of MDIM and CDIM, field by field (10_state.md R63, R67). -/
theorem dimWord_fields (r c : Nat) :
    (dimWord r c).extractLsb' 0 20 = BitVec.ofNat 20 r ∧ (dimWord r c).extractLsb' 20 20 = BitVec.ofNat 20 c ∧
      (dimWord r c).extractLsb' 40 23 = 0 ∧ (dimWord r c).getLsbD 63 = true := by
  have hvalid : (dimWord r c).getLsbD 63 = true := by
    rw [dimWord, BitVec.getLsbD_append (i := 63), BitVec.getLsbD_append (i := 63 - 20)]; rfl
  refine ⟨?_, ?_, ?_, hvalid⟩ <;>
    simp (disch := omega) only [dimWord, BitVec.extractLsb'_append_eq_of_le,
      BitVec.extractLsb'_append_eq_of_add_le, BitVec.extractLsb'_eq_self, Nat.reduceSub]

/-- The word of XLEN over a valid buffer, field by field (10_state.md R70). -/
theorem xlenWord_fields {s : State} {l : List (BitVec 20)} (h : s.xidx = some l) :
    s.xlenWord.extractLsb' 0 20 = BitVec.ofNat 20 l.length ∧ s.xlenWord.extractLsb' 20 43 = 0 ∧
      s.xlenWord.getLsbD 63 = true := by
  have hvalid : s.xlenWord.getLsbD 63 = true := by
    rw [State.xlenWord, h]; exact BitVec.getLsbD_append
  refine ⟨?_, ?_, hvalid⟩ <;>
    simp (disch := omega) only [State.xlenWord, h, BitVec.extractLsb'_append_eq_of_le,
      BitVec.extractLsb'_append_eq_of_add_le, BitVec.extractLsb'_eq_self, Nat.reduceSub]

end Sys2Proof.Machine
end

section
/-! PROOF. The accesses that reach no register: refused ones (20_memory.md R82) and reserved offsets
(10_state.md R71). -/

namespace Sys2Proof.Machine

/-- The registers end at 0xC0 (10_state.md R71). -/
theorem regAt_reserved {o : BitVec 8} (h : 0xC8 ≤ o.toNat) : regAt o = none :=
  List.getElem?_eq_none (show regOrder.length ≤ o.toNat / 8 by simp [regOrder]; omega)

/-- An access of another size or at another offset is refused (20_memory.md R82). -/
theorem busAccess_refused {a : HostAccess} (s : State) (h : ¬ (a.size = 8 ∧ a.addr.toNat % 8 = 0)) :
    busAccess a s = s.respond true 0 := by
  have haccepted : ¬ a.accepted = true := by simpa [HostAccess.accepted] using h
  rw [busAccess, if_neg haccepted]

/-- A reserved offset reads 0 (10_state.md R71). -/
theorem busAccess_readAt_reserved {o : BitVec 8} (s : State) (ho : 0xC8 ≤ o.toNat) (ha : o.toNat % 8 = 0) :
    busAccess (readAt o) s = s.respond false 0 := by
  simp [busAccess, readAt, HostAccess.accepted, ha, regAt_reserved ho]

/-- A reserved offset ignores writes (10_state.md R71). -/
theorem busAccess_writeAt_reserved {o : BitVec 8} (v : Word) (s : State) (ho : 0xC8 ≤ o.toNat)
    (ha : o.toNat % 8 = 0) : busAccess (writeAt o v) s = s.respondFree true := by
  simp [busAccess, writeAt, HostAccess.accepted, ha, regAt_reserved ho]

end Sys2Proof.Machine
end

section
/-! PROOF. The statements of the memory family: the data windows and the accesses without effect. -/

namespace Sys2Proof.Machine

/-- Settles O50: each guard of an MDATA read, and the read word bit by bit. -/
theorem mdataReadsThePackedWord : Obligations.MdataReadsThePackedWord := by
  intro s
  rw [busAccess_readAt .mdata s rfl rfl, readReg]
  refine ⟨fun hbusy => ?_, fun hidle hslot => ?_, fun M hidle hslot => ?_⟩
  · rw [readMdata_busy hbusy]; rfl
  · rw [readMdata_empty hidle hslot]; rfl
  intro i q e
  refine ⟨fun hout => ?_, fun hi hq => ?_⟩
  · rw [readMdata_full hidle hslot, if_neg hout]; rfl
  · refine ⟨packedWord s.params M i q, ?_, fun k hk => ?_, fun b hb => ?_⟩
    · rw [readMdata_full hidle hslot, if_pos ⟨hi, hq⟩]
    · have hk : k < ew s.params M.cols q := hk
      rw [getLsbD_packedWord, decide_eq_true (by omega), Bool.true_and,
        show ew s.params M.cols q - 1 - (e - 1 - k) = k by omega]
    · rw [getLsbD_packedWord, decide_eq_false (Nat.not_lt.mpr hb), Bool.false_and]

/-- Settles O51: each guard of an MDATA write, and the matrix it leaves cell by cell. -/
theorem mdataWritesOneWord : Obligations.MdataWritesOneWord := by
  intro v s
  rw [busAccess_writeAt .mdata v s rfl rfl, writeReg]
  refine ⟨fun hbusy => ?_, fun hidle hslot => ?_, fun M hidle hslot => ?_⟩
  · rw [writeMdata_busy v hbusy]; rfl
  · rw [writeMdata_empty v hidle hslot]; rfl
  intro i q e
  refine ⟨fun hout => ?_, fun hi hq => ?_⟩
  · rw [writeMdata_full v hidle hslot, if_neg hout]; rfl
  · refine ⟨storeWord s.params M i q v, storeWord_hasShape .., fun k hk => get_storeWord_word v hi hq hk,
      fun a b h => get_storeWord_other v hq h, ?_⟩
    rw [writeMdata_full v hidle hslot, if_pos ⟨hi, hq⟩]; rfl

/-- CDATA reads an entry of a valid count buffer while IDLE (20_memory.md R89, R91). -/
theorem cdata_read_idle {s : State} (h : s.engine = .idle) :
    (s.cnt = none → busAccess (readAt 0xA0) s = s.setWinerr.respond false 0) ∧
      ∀ c, s.cnt = some c →
        (c.rows * c.cols ≤ s.caddr.toNat → busAccess (readAt 0xA0) s = s.setWinerr.respond false 0) ∧
        (s.caddr.toNat < c.rows * c.cols → busAccess (readAt 0xA0) s =
          s.respond false (BitVec.ofNat 64 (c.entries.getD s.caddr.toNat 0).toNat)) := by
  rw [busAccess_readAt .cdata s rfl rfl, readReg]
  refine ⟨fun hc => ?_, fun c hc => ⟨fun hout => ?_, fun hin => ?_⟩⟩
  · rw [readCdata_invalid h hc]
  · rw [readCdata_valid h hc, if_neg (Nat.not_lt.mpr hout)]
  · rw [readCdata_valid h hc, if_pos hin]

/-- XDATA reads an index of a valid column-index buffer while IDLE (20_memory.md R89, R92). -/
theorem xdata_read_idle {s : State} (h : s.engine = .idle) :
    (s.xidx = none → busAccess (readAt 0xB8) s = s.setWinerr.respond false 0) ∧
      ∀ l, s.xidx = some l →
        (l.length ≤ s.xaddr.toNat → busAccess (readAt 0xB8) s = s.setWinerr.respond false 0) ∧
        (s.xaddr.toNat < l.length → busAccess (readAt 0xB8) s =
          s.respond false (BitVec.ofNat 64 (l.getD s.xaddr.toNat 0).toNat)) := by
  rw [busAccess_readAt .xdata s rfl rfl, readReg]
  refine ⟨fun hx => ?_, fun l hx => ⟨fun hout => ?_, fun hin => ?_⟩⟩
  · rw [readXdata_invalid h hx]
  · rw [readXdata_valid h hx, if_neg (Nat.not_lt.mpr hout)]
  · rw [readXdata_valid h hx, if_pos hin]

/-- While BUSY a CDATA or XDATA read returns 0 with HAZ (20_memory.md R91, R92). -/
theorem buffer_reads_busy {s : State} (h : s.engine = .busy) :
    busAccess (readAt 0xA0) s = s.setHaz.respond false 0 ∧
      busAccess (readAt 0xB8) s = s.setHaz.respond false 0 := by
  rw [busAccess_readAt .cdata s rfl rfl, busAccess_readAt .xdata s rfl rfl, readReg, readReg, readCdata_busy h,
    readXdata_busy h]
  exact ⟨rfl, rfl⟩

/-- MDIM describes the slot MADDR names (10_state.md R63). -/
theorem mdim_read (s : State) :
    (s.slot (slotOf s.maddr.slot) = none → busAccess (readAt 0x90) s = s.respond false 0) ∧
      ∀ M, s.slot (slotOf s.maddr.slot) = some M →
        busAccess (readAt 0x90) s = s.respond false (dimWord M.rows M.cols) := by
  rw [busAccess_readAt .mdim s rfl rfl, readReg, State.mdimWord, State.windowSlot]
  exact ⟨fun h => by rw [h], fun M h => by rw [h]⟩

/-- CDIM describes the count buffer (10_state.md R67). -/
theorem cdim_read (s : State) :
    (s.cnt = none → busAccess (readAt 0xA8) s = s.respond false 0) ∧
      ∀ c, s.cnt = some c → busAccess (readAt 0xA8) s = s.respond false (dimWord c.rows c.cols) := by
  rw [busAccess_readAt .cdim s rfl rfl, readReg, State.cdimWord]
  exact ⟨fun h => by rw [h], fun c h => by rw [h]⟩

/-- XLEN reads 0 with an invalid column-index buffer (10_state.md R70). -/
theorem xlen_read_invalid {s : State} (h : s.xidx = none) : busAccess (readAt 0xC0) s = s.respond false 0 := by
  rw [busAccess_readAt .xlen s rfl rfl, readReg, State.xlenWord, h]

/-- Settles O52: the two buffer windows by their guards, and the registers that describe and report. -/
theorem countAndIndexWindows : Obligations.CountAndIndexWindows := by
  intro s
  obtain ⟨hmdim_empty, hmdim_full⟩ := mdim_read s
  obtain ⟨hcdim_invalid, hcdim_valid⟩ := cdim_read s
  refine ⟨fun v => ⟨busAccess_writeAt .cdata v s rfl rfl, busAccess_writeAt .xdata v s rfl rfl⟩,
    buffer_reads_busy, fun hidle => ?_,
    hmdim_empty, fun M hM => ⟨_, hmdim_full M hM, dimWord_fields ..⟩,
    hcdim_invalid, fun c hc => ⟨_, hcdim_valid c hc, dimWord_fields ..⟩,
    xlen_read_invalid, fun l hl => ⟨_, busAccess_readAt .xlen s rfl rfl, xlenWord_fields hl⟩,
    busAccess_readAt .res s rfl rfl, busAccess_readAt .errinfo s rfl rfl, busAccess_readAt .isdTrials s rfl rfl,
    busAccess_readAt .isdSing s rfl rfl, busAccess_readAt .isdDcnt s rfl rfl, busAccess_readAt .bfIters s rfl rfl⟩
  obtain ⟨hcdata_invalid, hcdata_valid⟩ := cdata_read_idle hidle
  obtain ⟨hxdata_invalid, hxdata_valid⟩ := xdata_read_idle hidle
  exact ⟨hcdata_invalid, hxdata_invalid, hcdata_valid, hxdata_valid⟩

/-- Settles O49: an odd access is refused, a reserved offset has no register, and a read-only register keeps
the state. -/
theorem oddAccessesAreRefused : Obligations.OddAccessesAreRefused := by
  refine ⟨fun a s h => busAccess_refused s h, fun o v s ho ha =>
    ⟨busAccess_readAt_reserved s ho ha, busAccess_writeAt_reserved v s ho ha⟩, ?_⟩
  simp only [List.forall_mem_cons, List.not_mem_nil, false_implies, implies_true, and_true]
  exact ⟨fun v s => busAccess_writeAt .id v s rfl rfl,
    fun v s => busAccess_writeAt .cap0 v s rfl rfl,
    fun v s => busAccess_writeAt .cap1 v s rfl rfl,
    fun v s => busAccess_writeAt .res v s rfl rfl,
    fun v s => busAccess_writeAt .errinfo v s rfl rfl,
    fun v s => busAccess_writeAt .isdTrials v s rfl rfl,
    fun v s => busAccess_writeAt .isdSing v s rfl rfl,
    fun v s => busAccess_writeAt .isdDcnt v s rfl rfl,
    fun v s => busAccess_writeAt .bfIters v s rfl rfl,
    fun v s => busAccess_writeAt .mdim v s rfl rfl,
    fun v s => busAccess_writeAt .cdata v s rfl rfl,
    fun v s => busAccess_writeAt .cdim v s rfl rfl,
    fun v s => busAccess_writeAt .xdata v s rfl rfl,
    fun v s => busAccess_writeAt .xlen v s rfl rfl⟩

end Sys2Proof.Machine
end

section
/-! PROOF. The opcode table decides the decoder (30_encoding.md R125 to R128): each opcode has one row, a row
builds commands of its own opcode, and a word without a row or off its row's mask is illegal. -/

namespace Sys2Proof

theorem opcodes_nodup : (opcodeTable.map OpRow.op).Nodup := by decide

/-- The row found for an opcode is in the table and has that opcode. -/
theorem mem_and_op_of_rowOf {op : BitVec 8} {r : OpRow} (h : rowOf op = some r) : r ∈ opcodeTable ∧ r.op = op :=
  ⟨List.mem_of_find?_eq_some h, eq_of_beq (List.find?_some (p := fun r : OpRow => r.op == op) h)⟩

/-- A row of the table is the row of its opcode: no opcode has two rows (30_encoding.md R126). -/
theorem rowOf_op {r : OpRow} (hr : r ∈ opcodeTable) : rowOf r.op = some r := by
  cases h : rowOf r.op with
  | none => exact absurd (beq_self_eq_true r.op) (List.find?_eq_none.mp h r hr)
  | some r' =>
    obtain ⟨hr', hop⟩ := mem_and_op_of_rowOf h
    rw [List.inj_on_of_nodup_map opcodes_nodup hr' hr hop]

/-- The opcodes without a row (30_encoding.md R128). -/
theorem rowOf_eq_none_iff (op : BitVec 8) :
    rowOf op = none ↔ (0x0A ≤ op.toNat ∧ op.toNat ≤ 0x0F) ∨ (0x18 ≤ op.toNat ∧ op.toNat ≤ 0x1F) ∨
      (0x23 ≤ op.toNat ∧ op.toNat ≤ 0x2F) ∨ 0x32 ≤ op.toNat := by
  have hrows : rowOf op = none ↔ ∀ r ∈ opcodeTable, r.op.toNat ≠ op.toNat := by
    simp [rowOf, List.find?_eq_none, BitVec.toNat_eq]
  rw [hrows]
  simp only [opcodeTable, basicRows, algebraRows, queryRows, decoderRows, List.cons_append, List.nil_append,
    List.forall_mem_cons, List.not_mem_nil, false_implies, implies_true, and_true, BitVec.reduceToNat]
  omega

/-- The opcode of a word is its low byte (30_encoding.md R121). -/
theorem op_ofWord_toNat (w : Word) : (Fields.ofWord w).op.toNat = w.toNat % 256 := by
  simp [Fields.ofWord]

/-- A row builds commands of its own opcode (30_encoding.md R126). -/
theorem opcode_build {r : OpRow} (hr : r ∈ opcodeTable) (f : Fields) : (r.build f).opcode = r.op := by
  revert r
  simp [opcodeTable, basicRows, algebraRows, queryRows, decoderRows, Instr.opcode]

/-- What a word with a row's opcode decodes to (30_encoding.md R125). -/
theorem decode_of_op {w : Word} {r : OpRow} (hr : r ∈ opcodeTable) (ho : (Fields.ofWord w).op = r.op) :
    decode w = if w &&& r.mask = r.op.setWidth 64 then .command (r.build (Fields.ofWord w))
      else .illegal .nonzeroUnused := by
  rw [decode, ho, rowOf_op hr]

/-- An opcode without a row is unassigned, and only it: a word that has a row spells its command or is illegal
for the other reason (30_encoding.md R127). -/
theorem decode_eq_unassigned_iff (w : Word) :
    decode w = .illegal .unassignedOpcode ↔ rowOf (Fields.ofWord w).op = none := by
  cases hrow : rowOf (Fields.ofWord w).op with
  | none => simp [decode, hrow]
  | some r =>
    obtain ⟨hr, ho⟩ := mem_and_op_of_rowOf hrow
    rw [decode_of_op hr ho.symm]
    split <;> simp

/-- A word that decodes has the opcode of its command. -/
theorem opcode_of_decode {w : Word} {i : Instr} (h : decode w = .command i) : (Fields.ofWord w).op = i.opcode := by
  cases hrow : rowOf (Fields.ofWord w).op with
  | none => rw [(decode_eq_unassigned_iff w).mpr hrow] at h; cases h
  | some r =>
    obtain ⟨hr, ho⟩ := mem_and_op_of_rowOf hrow
    rw [decode_of_op hr ho.symm] at h
    split at h
    · cases h
      rw [opcode_build hr, ho]
    · cases h

/-- A word with a row's opcode spells a command of that opcode exactly when its masked bits are the opcode
(30_encoding.md R125). -/
theorem decode_command_iff {w : Word} {r : OpRow} (hr : r ∈ opcodeTable) (ho : (Fields.ofWord w).op = r.op) :
    (∃ i, decode w = .command i ∧ i.opcode = r.op) ↔ w &&& r.mask = r.op.setWidth 64 := by
  rw [decode_of_op hr ho]
  split
  next hm => exact iff_of_true ⟨_, rfl, opcode_build hr _⟩ hm
  next hm => exact iff_of_false (fun ⟨_, h, _⟩ => nomatch h) hm

/-- Every bit of NOP's word must be zero (30_encoding.md R126). -/
theorem decode_eq_nop_iff (w : Word) : decode w = .command .nop ↔ w = 0 := by
  constructor
  · intro h
    have hop : (Fields.ofWord w).op = 0x00 := opcode_of_decode h
    have hnop : (⟨0x00, 0xFFFFFFFFFFFFFFFF, fun _ => .nop⟩ : OpRow) ∈ opcodeTable := List.mem_cons_self
    have hmask := (decode_command_iff hnop hop).mp ⟨_, h, rfl⟩
    exact (BitVec.and_allOnes (x := w)).symm.trans hmask
  · rintro rfl
    decide

/-- The opcode map as 30_encoding.md R126 prints it: each opcode with its mask. -/
def opcodeMasks : List (Nat × Word) := opcodeTable.map fun r => (r.op.toNat, r.mask)

end Sys2Proof
end

section
/-! PROOF. A step of a busy machine in a quiet environment, and what it makes of an illegal command word
(30_encoding.md R127, 60_exceptions.md R335). -/

namespace Sys2Proof.Machine

/-- A step of a busy machine left alone is its engine's step (60_exceptions.md R335; log 2). -/
theorem step_quiet_busy {s : State} (hin : s.inputs = []) (hb : s.engine = .busy) : step s = engineStep s := by
  simp [step, nextEdge, hin, clockEdge, quietEdge, presentAccess, State.busy, hb]

/-- An illegal word ends the command with ILLEGAL_CMD and its reason (30_encoding.md R127). -/
theorem step_illegal {s : State} {e : DecodeError} (hin : s.inputs = []) (hb : s.engine = .busy)
    (hd : decode s.cmd = .illegal e) : step s = .next (s.raised .illegalCmd (zext64 e.errinfo)) := by
  rw [step_quiet_busy hin hb, engineStep, hb]
  simp only [hd]
  rfl

end Sys2Proof.Machine
end

section
/-! PROOF. The statements of the encoding family: the reserved opcodes and the must-be-zero fields. -/

namespace Sys2Proof.Machine

/-- Settles O3: the opcodes without a row are the reserved ranges, and NOP's mask covers the whole word. -/
theorem reservedOpcodesAreIllegal : Obligations.ReservedOpcodesAreIllegal := by
  refine ⟨fun w => ?_, fun s hin hb hd => step_illegal hin hb hd, decode_eq_nop_iff⟩
  rw [decode_eq_unassigned_iff, rowOf_eq_none_iff, op_ofWord_toNat]

/-- Settles O4: the listed pairs are the rows of the opcode table, each of which tests its own mask. -/
theorem unusedFieldsMustBeZero : Obligations.UnusedFieldsMustBeZero := by
  refine ⟨?_, fun s hin hb hd => step_illegal hin hb hd⟩
  show ∀ om ∈ opcodeMasks, _
  intro om hom w hw
  obtain ⟨r, hr, rfl⟩ := List.mem_map.mp hom
  have ho : (Fields.ofWord w).op = r.op := BitVec.eq_of_toNat_eq ((op_ofWord_toNat w).trans hw)
  rw [BitVec.ofNat_toNat]
  simp only [← BitVec.toNat_eq]
  exact ⟨decode_command_iff hr ho, fun hm => by rw [decode_of_op hr ho, if_neg hm]⟩

end Sys2Proof.Machine
end

section
/-! PROOF. A command word and its command (30_encoding.md R121, R126): the word as the number its fields spell,
and the decoder on the encoder's words. -/

namespace Sys2Proof

theorem toNat_append_eq_add {v w : Nat} (x : BitVec v) (y : BitVec w) :
    (x ++ y).toNat = x.toNat * 2 ^ w + y.toNat := by
  rw [BitVec.toNat_append, ← Nat.shiftLeft_add_eq_or_of_lt y.isLt, Nat.shiftLeft_eq]

/-- A word of fields is the number its bits spell (30_encoding.md R121). -/
theorem toWord_eq_commandWord (f : Fields) :
    f.toWord = Machine.commandWord f.op.toNat f.md.toNat f.ms1.toNat f.ms2.toNat f.ms3.toNat f.immA.toNat
      f.immB.toNat := by
  rw [Machine.commandWord, ← BitVec.setWidth_eq f.toWord, ← BitVec.ofNat_toNat]
  congr 1
  simp only [Fields.toWord, toNat_append_eq_add]
  omega

/-- TGTWT's 40-bit immediate survives its two fields (30_encoding.md R123). -/
theorem toNat_immBits_append {n : Nat} (h : fitsImm40 n = true) : (immBits (n / 2 ^ 20) ++ immBits n).toNat = n := by
  have hn : n < 2 ^ 40 := of_decide_eq_true h
  rw [toNat_append_eq_add, immBits, immBits, BitVec.toNat_ofNat, BitVec.toNat_ofNat]
  omega

theorem fitsImm20_and {m n : Nat} (hm : m < 2 ^ 20) (hn : n < 2 ^ 20) : (fitsImm20 m && fitsImm20 n) = true :=
  Bool.and_eq_true_iff.mpr ⟨decide_eq_true hm, decide_eq_true hn⟩

theorem op_fields (i : Instr) : i.fields.op = i.opcode := by cases i <;> rfl

/-- Every command's word meets its row of the opcode table (30_encoding.md R125). -/
theorem maskMatch : ∀ i : Instr, Laws.MaskMatch.Statement i
  | .nop => Laws.MaskMatch.nop
  | .init .. => Laws.MaskMatch.init ..
  | .ident .. => Laws.MaskMatch.ident ..
  | .copy .. => Laws.MaskMatch.copy ..
  | .rand .. => Laws.MaskMatch.rand ..
  | .tgtwt .. => Laws.MaskMatch.tgtwt ..
  | .setbit .. => Laws.MaskMatch.setbit ..
  | .getbit .. => Laws.MaskMatch.getbit ..
  | .rowxor .. => Laws.MaskMatch.rowxor ..
  | .rowswap .. => Laws.MaskMatch.rowswap ..
  | .sample .. => Laws.MaskMatch.sample ..
  | .trans .. => Laws.MaskMatch.trans ..
  | .concat .. => Laws.MaskMatch.concat ..
  | .add .. => Laws.MaskMatch.add ..
  | .mul .. => Laws.MaskMatch.mul ..
  | .mulcnt .. => Laws.MaskMatch.mulcnt ..
  | .rot .. => Laws.MaskMatch.rot ..
  | .inv .. => Laws.MaskMatch.inv ..
  | .hwt .. => Laws.MaskMatch.hwt ..
  | .iszero .. => Laws.MaskMatch.iszero ..
  | .isut .. => Laws.MaskMatch.isut ..
  | .isd .. => Laws.MaskMatch.isd ..
  | .bitflip .. => Laws.MaskMatch.bitflip ..

/-- The row of a command's opcode reads the command back from its fields, when its immediates fit
(30_encoding.md R126). -/
theorem build_fields (i : Instr) (h : i.wellFormed = true) :
    (rowOf i.opcode).map (fun r => r.build i.fields) = some i := by
  cases i with
  | nop => rfl
  | copy | rand | trans | concat | add | mul | mulcnt | inv | hwt | iszero | isut =>
    simp [Instr.opcode, Instr.fields, rowOf, opcodeTable, basicRows, algebraRows, queryRows, decoderRows]
  | tgtwt md w =>
    simpa [Instr.opcode, Instr.fields, rowOf, opcodeTable, basicRows, imm40Of] using toNat_immBits_append h
  | ident | sample | rot | isd =>
    simp [Instr.opcode, Instr.fields, rowOf, opcodeTable, basicRows, algebraRows, queryRows, decoderRows,
      immOf_immBits h]
  | init | setbit | getbit | rowxor | rowswap | bitflip =>
    obtain ⟨hA, hB⟩ := Bool.and_eq_true_iff.mp h
    simp [Instr.opcode, Instr.fields, rowOf, opcodeTable, basicRows, algebraRows, queryRows, decoderRows, valueOf,
      immOf_immBits hA, immOf_immBits hB]

/-- The encoder's word decodes to its command, when its immediates fit (30_encoding.md R125, R126). -/
theorem decode_encode {i : Instr} (h : i.wellFormed = true) : decode (encode i) = .command i := by
  obtain ⟨r, hrow, -, hmask, hbuild⟩ := maskMatch i
  have hi := build_fields i h
  have hop : (Fields.ofWord (encode i)).op = i.opcode := by rw [encode, ofWord_toWord, op_fields]
  rw [hrow] at hi
  rw [decode, hop, hrow]
  simp only [hmask, if_true, hbuild]
  exact congrArg Decoded.command (Option.some.inj hi)

/-- The number spelled by a command's fields decodes to the command. -/
theorem decode_commandWord (i : Instr) (h : i.wellFormed = true) {op md ms1 ms2 ms3 immA immB : Nat}
    (hop : op < 2 ^ 8) (hslots : md < 16 ∧ ms1 < 16 ∧ ms2 < 16 ∧ ms3 < 16) (hA : immA < 2 ^ 20) (hB : immB < 2 ^ 20)
    (hf : i.fields = ⟨BitVec.ofNat 8 op, BitVec.ofNat 4 md, BitVec.ofNat 4 ms1, BitVec.ofNat 4 ms2,
      BitVec.ofNat 4 ms3, BitVec.ofNat 20 immA, BitVec.ofNat 20 immB⟩) :
    decode (Machine.commandWord op md ms1 ms2 ms3 immA immB) = .command i := by
  obtain ⟨hmd, hms1, hms2, hms3⟩ := hslots
  have hi := decode_encode h
  rw [encode, hf, toWord_eq_commandWord] at hi
  simpa only [BitVec.toNat_ofNat, Nat.mod_eq_of_lt, hop, hmd, hms1, hms2, hms3, hA, hB] using hi

end Sys2Proof
end

section
/-! PROOF. How the slot and row commands end (40_matrix_basic.md R150): completions and raises as the statements
name them, and the operand checks that the cell and row commands share. -/

namespace Sys2Proof.Machine

theorem raise_eq_raised (e : ErrCode) (n : Nat) (s : State) : raise e n s = .next (s.raised e (zext64 n)) := rfl

theorem complete_eq_completed (s : State) : complete s = .next s.completed := rfl

theorem completeWith_eq_completed (md : SlotId) (M : BitMatrix) (s : State) :
    completeWith md M s = .next (s.withSlotSet md M).completed := rfl

@[simp] theorem slot_withSlotSet_self (s : State) (d : SlotId) (M : BitMatrix) : (s.withSlotSet d M).slot d = some M :=
  slot_setSlot_self d M s

theorem slot_withSlotSet_ne (s : State) (M : BitMatrix) {d e : SlotId} (h : e ≠ d) :
    (s.withSlotSet d M).slot e = s.slot e :=
  slot_setSlot_ne M s h

@[simp] theorem slot_completed (s : State) (d : SlotId) : s.completed.slot d = s.slot d := rfl

theorem setResFlag_bit (b : Bool) (s : State) :
    s.setResFlag b.toNat b = { s with res := if b then 1 else 0, flag := b } := by
  cases b <;> rfl

theorem BitMatrix.get_identity {n i j : Nat} (hi : i < n) (hj : j < n) :
    (BitMatrix.identity n).get i j = decide (i = j) := by
  simp [BitMatrix.identity, hi, hj]

/-- The capacity test of a square matrix (10_state.md R32). -/
theorem fitsSlot_square_iff (p : Params) (n : Nat) :
    fitsSlot p n n = true ↔ n ≤ p.maxDim.toNat ∧ n * nwords p n ≤ p.slotWords.toNat := by
  rw [fitsSlot_iff, and_self_left]

/-- What SETBIT, GETBIT, ROWXOR and ROWSWAP check before they act: the slot is full, the first index is a row,
and the second is below the given dimension (40_matrix_basic.md R157 to R160). -/
def withIndices (f : OperandField) (d : SlotId) (dim : BitMatrix → Nat) (a b : Nat) (s : State)
    (k : BitMatrix → Result) : Result :=
  withSlot f d s fun M =>
  check (a < M.rows) .outOfRange 1 s <|
  check (b < dim M) .outOfRange 2 s <|
  k M

section
variable {f : OperandField} {d : SlotId} {dim : BitMatrix → Nat} {a b : Nat} {s : State}
  {k : BitMatrix → Result} {M : BitMatrix}

theorem withIndices_empty (h : s.slot d = none) :
    withIndices f d dim a b s k = .next (s.raised .emptyOperand (zext64 f.errinfo)) :=
  withSlot_none h

theorem withIndices_first_high (h : s.slot d = some M) (ha : M.rows ≤ a) :
    withIndices f d dim a b s k = .next (s.raised .outOfRange 1) := by
  rw [withIndices, withSlot_some h, check_neg (Nat.not_lt.mpr ha)]
  exact raise_eq_raised .outOfRange 1 s

theorem withIndices_second_high (h : s.slot d = some M) (ha : a < M.rows) (hb : dim M ≤ b) :
    withIndices f d dim a b s k = .next (s.raised .outOfRange 2) := by
  rw [withIndices, withSlot_some h, check_pos ha, check_neg (Nat.not_lt.mpr hb)]
  exact raise_eq_raised .outOfRange 2 s

theorem withIndices_inside (h : s.slot d = some M) (ha : a < M.rows) (hb : b < dim M) :
    withIndices f d dim a b s k = k M := by
  rw [withIndices, withSlot_some h, check_pos ha, check_pos hb]

end

section
variable (s : State)

theorem exec_init (md : SlotId) (r c : Nat) :
    exec (.init md r c) s = check (fitsSlot s.params r c) .alloc 0 s (completeWith md (BitMatrix.zero r c) s) := rfl

theorem exec_ident (md : SlotId) (n : Nat) :
    exec (.ident md n) s = check (fitsSlot s.params n n) .alloc 0 s (completeWith md (BitMatrix.identity n) s) := rfl

theorem exec_copy (md ms1 : SlotId) :
    exec (.copy md ms1) s = withSlot .ms1 ms1 s fun A => completeWith md A s := rfl

theorem exec_setbit (md : SlotId) (a b : Nat) (v : Bool) :
    exec (.setbit md a b v) s =
      withIndices .md md BitMatrix.cols a b s fun M => completeWith md (M.setBit a b v) s := rfl

theorem exec_getbit (ms1 : SlotId) (a b : Nat) :
    exec (.getbit ms1 a b) s =
      withIndices .ms1 ms1 BitMatrix.cols a b s fun M =>
        complete (s.setResFlag (M.get a b).toNat (M.get a b)) := rfl

theorem exec_rowxor (md : SlotId) (a b : Nat) :
    exec (.rowxor md a b) s =
      withIndices .md md BitMatrix.rows a b s fun M => completeWith md (M.rowXor a b) s := rfl

theorem exec_rowswap (md : SlotId) (a b : Nat) :
    exec (.rowswap md a b) s =
      withIndices .md md BitMatrix.rows a b s fun M => completeWith md (M.rowSwap a b) s := rfl

end

end Sys2Proof.Machine
end

section
/-! PROOF. RAND along a chain of draws (40_matrix_basic.md R155): σ k is the state after k draws below 2. -/

namespace Sys2Proof.Machine

theorem rowMajor_lt {r c i j : Nat} (hi : i < r) (hj : j < c) : i * c + j < r * c :=
  calc i * c + j < i * c + c := Nat.add_lt_add_left hj _
    _ = (i + 1) * c := (Nat.succ_mul i c).symm
    _ ≤ r * c := Nat.mul_le_mul_right c hi

theorem exec_rand (md : SlotId) (s : State) :
    exec (.rand md) s = withSlot .md md s fun M =>
      completeWith md
        (BitMatrix.ofFn M.rows M.cols fun i j => (drawBits (M.rows * M.cols) s).1.getD (i * M.cols + j) false)
        (drawBits (M.rows * M.cols) s).2 := rfl

/-- The r by c matrix filled row-major with the draws of the chain. -/
def drawnMatrix (σ : Nat → State) (r c : Nat) : BitMatrix :=
  BitMatrix.ofFn r c fun i j => decide ((draw 2 (σ (i * c + j))).1 = 1)

section
variable {σ : Nat → State} (hσ : ∀ k, σ (k + 1) = (draw 2 (σ k)).2)
include hσ

/-- RAND's draws, from any state of the chain, are the chain's next ones. -/
theorem drawBits_chain (n k : Nat) :
    drawBits n (σ k) = ((List.range' k n).map fun m => decide ((draw 2 (σ m)).1 = 1), σ (k + n)) := by
  induction n generalizing k with
  | zero => rfl
  | succ n ih =>
    rw [drawBits, ← hσ, ih, Nat.add_right_comm]
    rfl

/-- The chain changes only the generator and the coming draws. -/
theorem chain_frame (n : Nat) : ∃ g l, σ n = { σ 0 with prng := g, drawInputs := l } := by
  simpa only [drawBits_chain hσ, Nat.zero_add] using drawBits_snd n (σ 0)

/-- RAND's fill with the drawn bits is the fill with the chain's draws. -/
theorem ofFn_drawBits_chain (r c : Nat) :
    (BitMatrix.ofFn r c fun i j => (drawBits (r * c) (σ 0)).1.getD (i * c + j) false) = drawnMatrix σ r c := by
  refine BitMatrix.ext_get (by simp [drawnMatrix]) rfl fun i j hi hj => ?_
  rw [BitMatrix.rows_ofFn] at hi
  have hcell : i * c + j < r * c := rowMajor_lt hi hj
  simp [drawnMatrix, drawBits_chain hσ, hcell]

theorem exec_rand_chain {md : SlotId} {M : BitMatrix} (hM : (σ 0).slot md = some M) :
    exec (.rand md) (σ 0) =
      .next ((σ (M.rows * M.cols)).withSlotSet md (drawnMatrix σ M.rows M.cols)).completed := by
  rw [exec_rand, withSlot_some hM, ofFn_drawBits_chain hσ, drawBits_chain hσ, Nat.zero_add,
    completeWith_eq_completed]

end

end Sys2Proof.Machine
end

section
/-! PROOF. The statements of the slot and row commands, all but TGTWT (40_matrix_basic.md). -/

namespace Sys2Proof.Machine

/-- Settles O7: NOP's row masks the whole word, so any other word of opcode 0 is off its mask. -/
theorem nopOnlyCompletes : Obligations.NopOnlyCompletes := by
  refine ⟨(decode_eq_nop_iff 0).mpr rfl, fun w hop hw => ?_, complete_eq_completed⟩
  have hnop : (⟨0x00, 0xFFFFFFFFFFFFFFFF, fun _ => .nop⟩ : OpRow) ∈ opcodeTable := List.mem_cons_self
  have ho : (Fields.ofWord w).op = 0x00 := BitVec.eq_of_toNat_eq ((op_ofWord_toNat w).trans hop)
  rw [decode_of_op hnop ho]
  exact if_neg fun hmask => hw ((BitVec.and_allOnes (x := w)).symm.trans hmask)

/-- Settles O8: the one check is the capacity test of 10_state.md R32. -/
theorem initAllocatesAZeroMatrix : Obligations.InitAllocatesAZeroMatrix := by
  refine fun md r c => ⟨fun hr hc => ?_, fun s => ?_⟩
  · exact decode_commandWord (.init md r c) (fitsImm20_and hr hc) (by decide) (by omega) hr hc rfl
  · rw [exec_init, ← fitsSlot_iff]
    exact ⟨fun h => ⟨.zero r c, ⟨BitMatrix.rows_zero r c, rfl⟩, BitMatrix.get_zero r c, check_pos h⟩, check_neg⟩

/-- Settles O9: the one check is the capacity test of a square matrix. -/
theorem identMakesTheIdentity : Obligations.IdentMakesTheIdentity := by
  refine fun md n => ⟨fun hn => ?_, fun s => ?_⟩
  · exact decode_commandWord (.ident md n) (decide_eq_true hn) (by decide) (by omega) hn (by decide) rfl
  · rw [exec_ident, ← fitsSlot_square_iff]
    exact ⟨fun h => ⟨.identity n, ⟨BitMatrix.rows_identity n, rfl⟩, fun i j => BitMatrix.get_identity, check_pos h⟩,
      check_neg⟩

/-- Settles O10: a slot holds its matrix by value, so a write of one slot leaves every other. -/
theorem copyIsADeepCopy : Obligations.CopyIsADeepCopy := by
  refine fun md ms1 => ⟨?_, fun s => ?_⟩
  · exact decode_commandWord (.copy md ms1) rfl (by decide) (by omega) (by decide) (by decide) rfl
  · rw [exec_copy]
    refine ⟨withSlot_none, fun A hA => ⟨withSlot_some hA, slot_withSlotSet_self s md A,
      fun d hd => slot_withSlotSet_ne s A hd, fun hne B => ⟨?_, ?_⟩⟩⟩
    · rw [slot_withSlotSet_ne _ _ hne.symm, slot_completed, slot_withSlotSet_ne _ _ hne.symm, hA]
    · rw [slot_withSlotSet_ne _ _ hne, slot_completed, slot_withSlotSet_self]

/-- Settles O11: RAND's draws are the chain's first rows × cols ones, and cell (i, j) takes number i × cols + j. -/
theorem randFillsRowMajor : Obligations.RandFillsRowMajor := by
  refine fun md => ⟨?_, fun s => ⟨withSlot_none, ?_⟩⟩
  · exact decode_commandWord (.rand md) rfl (by decide) (by omega) (by decide) (by decide) rfl
  · rintro M σ hM rfl hσ
    obtain ⟨g, l, hframe⟩ := chain_frame hσ (M.rows * M.cols)
    refine ⟨drawnMatrix σ M.rows M.cols, g, l, ⟨BitMatrix.rows_ofFn .., rfl⟩,
      fun i j hi hj => ⟨draw_lt _ (by decide), ?_⟩, hframe, exec_rand_chain hσ hM⟩
    simp [drawnMatrix, hi, hj]

/-- Settles O14: after the shared checks SETBIT is `setBit` on its matrix. -/
theorem setbitWritesOneCell : Obligations.SetbitWritesOneCell := by
  refine fun md a b v => ⟨fun ha hb => ?_, fun s => ?_⟩
  · exact decode_commandWord (.setbit md a b v) (fitsImm20_and ha hb) (by decide)
      ⟨md.isLt, by decide, by decide, v.toNat_lt.trans (by decide)⟩ ha hb (by cases v <;> rfl)
  · rw [exec_setbit]
    exact ⟨withIndices_empty, fun M hM => ⟨withIndices_first_high hM, withIndices_second_high hM, fun ha hb =>
      ⟨M.setBit a b v, ⟨M.rows_setBit a b v, rfl⟩, fun i j => M.get_setBit a b v i j ha hb,
        withIndices_inside hM ha hb⟩⟩⟩

/-- Settles O15: after the shared checks GETBIT writes the cell to RES and FLAG. -/
theorem getbitReadsOneCell : Obligations.GetbitReadsOneCell := by
  refine fun ms1 a b => ⟨fun ha hb => ?_, fun s => ?_⟩
  · exact decode_commandWord (.getbit ms1 a b) (fitsImm20_and ha hb) (by decide) (by omega) ha hb rfl
  · rw [exec_getbit]
    refine ⟨withIndices_empty, fun M hM => ⟨withIndices_first_high hM, withIndices_second_high hM, fun ha hb => ?_⟩⟩
    rw [withIndices_inside hM ha hb, setResFlag_bit, complete_eq_completed]

/-- Settles O16: after the shared checks ROWXOR is `rowXor` on its matrix. -/
theorem rowxorAddsOneRowToAnother : Obligations.RowxorAddsOneRowToAnother := by
  refine fun md a b => ⟨fun ha hb => ?_, fun s => ?_⟩
  · exact decode_commandWord (.rowxor md a b) (fitsImm20_and ha hb) (by decide) (by omega) ha hb rfl
  · rw [exec_rowxor]
    exact ⟨withIndices_empty, fun M hM => ⟨withIndices_first_high hM, withIndices_second_high hM, fun ha hb =>
      ⟨M.rowXor a b, ⟨M.rows_rowXor a b, rfl⟩, fun i j => M.get_rowXor a b i j hb, withIndices_inside hM ha hb⟩⟩⟩

/-- Settles O17: after the shared checks ROWSWAP is `rowSwap` on its matrix. -/
theorem rowswapSwapsTwoRows : Obligations.RowswapSwapsTwoRows := by
  refine fun md a b => ⟨fun ha hb => ?_, fun s => ?_⟩
  · exact decode_commandWord (.rowswap md a b) (fitsImm20_and ha hb) (by decide) (by omega) ha hb rfl
  · rw [exec_rowswap]
    exact ⟨withIndices_empty, fun M hM => ⟨withIndices_first_high hM, withIndices_second_high hM, fun ha hb =>
      ⟨M.rowSwap a b, ⟨M.rows_rowSwap a b, rfl⟩, fun i j => M.get_rowSwap a b i j ha hb,
        withIndices_inside hM ha hb⟩⟩⟩

end Sys2Proof.Machine
end

section
/-! PROOF. The bits of the algebra's results (41_matrix_algebra.md), and the counts behind MUL, MULCNT and HWT as
cardinalities. -/

namespace Sys2Proof.Machine

/-- A sum of bits counts the ones (00_scope.md R12). -/
theorem natSum_toNat_eq_card (n : Nat) (f : Nat → Bool) :
    (natSum n fun k => (f k).toNat) = ((Finset.range n).filter fun k => f k = true).card := by
  rw [natSum_eq_sum, Finset.card_filter]
  exact Finset.sum_congr rfl fun k _ => by cases f k <;> rfl

/-- A XOR of bits is the parity of the number of ones (00_scope.md R12). -/
theorem xorSum_eq_odd_card (n : Nat) (f : Nat → Bool) :
    xorSum n f = decide (((Finset.range n).filter fun k => f k = true).card % 2 = 1) := by
  rw [← natSum_toNat_eq_card, ← xorSum_eq_natSum_mod]
  cases xorSum n f <;> rfl

/-- The k at which row i of A and column j of B both hold a 1 (41_matrix_algebra.md R212, R214). -/
def sharedOnes (A B : BitMatrix) (i j : Nat) : Finset Nat :=
  (Finset.range A.cols).filter fun k => A.get i k = true ∧ B.get k j = true

theorem filter_and_eq_sharedOnes (A B : BitMatrix) (i j : Nat) :
    ((Finset.range A.cols).filter fun k => (A.get i k && B.get k j) = true) = sharedOnes A B i j :=
  Finset.filter_congr fun _ _ => Bool.and_eq_true_iff

theorem card_sharedOnes_le (A B : BitMatrix) (i j : Nat) : (sharedOnes A B i j).card ≤ A.cols :=
  (Finset.card_filter_le _ _).trans_eq (Finset.card_range A.cols)

theorem BitMatrix.countAt_eq_card (A B : BitMatrix) (i j : Nat) : A.countAt B i j = (sharedOnes A B i j).card := by
  rw [BitMatrix.countAt, ← filter_and_eq_sharedOnes, ← natSum_toNat_eq_card]
  exact natSum_congr fun k _ => by cases A.get i k <;> cases B.get k j <;> rfl

theorem BitMatrix.get_mul {A B : BitMatrix} {i j : Nat} (hi : i < A.rows) (hj : j < B.cols) :
    (A.mul B).get i j = decide ((sharedOnes A B i j).card % 2 = 1) := by
  rw [← filter_and_eq_sharedOnes, ← xorSum_eq_odd_card]
  simp [BitMatrix.mul, hi, hj]

/-- Entry (i, j) of the counts stands at place `i × cols + j` (10_state.md R35). -/
theorem BitMatrix.getElem?_counts {A B : BitMatrix} {i j : Nat} (hi : i < A.rows) (hj : j < B.cols) :
    (A.counts B)[i * B.cols + j]? = some (A.countAt B i j) := by
  have hpos : 0 < B.cols := Nat.zero_lt_of_lt hj
  have hrow : (i * B.cols + j) / B.cols = i := by
    rw [Nat.mul_comm, Nat.mul_add_div hpos, Nat.div_eq_of_lt hj, Nat.add_zero]
  have hcol : (i * B.cols + j) % B.cols = j := by rw [Nat.mul_add_mod_self_right, Nat.mod_eq_of_lt hj]
  simp [BitMatrix.counts, rowMajor_lt hi hj, hrow, hcol]

/-- The 32-bit entry (i, j) of CNT is the plain count when that is below 2^32 (41_matrix_algebra.md R214). -/
theorem toNat_countEntry {A B : BitMatrix} {i j : Nat} (hi : i < A.rows) (hj : j < B.cols) (hA : A.cols < 2 ^ 32) :
    (((A.counts B).map (BitVec.ofNat 32)).getD (i * B.cols + j) 0).toNat = (sharedOnes A B i j).card := by
  have hsmall : (sharedOnes A B i j).card < 2 ^ 32 := (card_sharedOnes_le A B i j).trans_lt hA
  rw [List.getD_eq_getElem?_getD, List.getElem?_map, BitMatrix.getElem?_counts hi hj, BitMatrix.countAt_eq_card]
  exact (BitVec.toNat_ofNat _ _).trans (Nat.mod_eq_of_lt hsmall)

/-- The weight is the number of ones (41_matrix_algebra.md R240). -/
theorem BitMatrix.hw_eq_card (M : BitMatrix) :
    M.hw = ((Finset.range M.rows ×ˢ Finset.range M.cols).filter fun p => M.get p.1 p.2 = true).card := by
  rw [Finset.card_filter, Finset.sum_product, BitMatrix.hw, natSum_eq_sum]
  refine Finset.sum_congr rfl fun i _ => ?_
  rw [natSum_toNat_eq_card, Finset.card_filter]

theorem BitMatrix.get_transpose {M : BitMatrix} {i j : Nat} (hi : i < M.cols) (hj : j < M.rows) :
    M.transpose.get i j = M.get j i := by
  simp [BitMatrix.transpose, hi, hj]

theorem BitMatrix.get_concat_left {A B : BitMatrix} {i j : Nat} (hi : i < A.rows) (hj : j < A.cols) :
    (A.concat B).get i j = A.get i j := by
  simp [BitMatrix.concat, hi, hj, Nat.lt_add_right B.cols hj]

theorem BitMatrix.get_concat_right {A B : BitMatrix} {i j : Nat} (hi : i < A.rows) (hj : j < B.cols) :
    (A.concat B).get i (A.cols + j) = B.get i j := by
  simp [BitMatrix.concat, hi, hj]

/-- Matrices of one shape add bit by bit, outside the shape too, where all bits are 0 (41_matrix_algebra.md R210). -/
theorem BitMatrix.get_add {A B : BitMatrix} (hr : A.rows = B.rows) (hc : A.cols = B.cols) (i j : Nat) :
    (A.add B).get i j = Bool.xor (A.get i j) (B.get i j) := by
  rw [BitMatrix.add, BitMatrix.get_ofFn]
  by_cases hi : i < A.rows
  · by_cases hj : j < A.cols
    · simp [hi, hj]
    · have hj : A.cols ≤ j := Nat.le_of_not_lt hj
      simp [Nat.not_lt.mpr hj, get_eq_false_of_cols_le hj, get_eq_false_of_cols_le (hc ▸ hj)]
  · have hi : A.rows ≤ i := Nat.le_of_not_lt hi
    simp [Nat.not_lt.mpr hi, get_eq_false_of_rows_le hi, get_eq_false_of_rows_le (hr ▸ hi)]

/-- The rotation by `c - k mod c` undoes the rotation by k (41_matrix_algebra.md R216). -/
theorem rotate_back {c j : Nat} (hj : j < c) (k : Nat) : ((j + k) % c + (c - k % c)) % c = j := by
  have hlt : k % c < c := Nat.mod_lt k (Nat.zero_lt_of_lt hj)
  have hsum : j + k + (c - k % c) = j + c * (k / c + 1) := by
    have hdiv := Nat.div_add_mod k c
    rw [Nat.mul_add_one]
    omega
  rw [Nat.mod_add_mod, hsum, Nat.add_mul_mod_self_left, Nat.mod_eq_of_lt hj]

theorem BitMatrix.get_rot (M : BitMatrix) (k : Nat) {i j : Nat} (hi : i < M.rows) (hj : j < M.cols) :
    (M.rot k).get i ((j + k) % M.cols) = M.get i j := by
  have hpos : 0 < M.cols := Nat.zero_lt_of_lt hj
  simp [BitMatrix.rot, hpos.ne', hi, Nat.mod_lt _ hpos, rotate_back hj]

theorem BitMatrix.rot_of_cols_eq_zero (M : BitMatrix) (k : Nat) (h : M.cols = 0) : M.rot k = M := if_pos h

theorem BitMatrix.upperTriangular_iff {M : BitMatrix} :
    M.upperTriangular = true ↔ ∀ i j, i < M.rows → j < M.cols → j < i → M.get i j = false := by
  simp only [BitMatrix.upperTriangular, List.all_eq_true, List.mem_range, Bool.not_and, Bool.or_eq_true,
    Bool.not_eq_true', decide_eq_false_iff_not, ← imp_iff_not_or]
  exact forall_congr' fun i => forall_comm

end Sys2Proof.Machine
end

section
/-! PROOF. How the algebra commands and the queries run (41_matrix_algebra.md): the operands that the two-operand
commands read, and what each command does with its operands. -/

namespace Sys2Proof.Machine

/-- The word count of the capacity test (10_state.md R32). -/
theorem fitsWords_iff (p : Params) (r c : Nat) :
    fitsWords p r c = true ↔ r * nwords p c ≤ p.slotWords.toNat := decide_eq_true_iff

/-- How CONCAT, ADD, MUL and MULCNT read their operands: slot ms1, then slot ms2 (41_matrix_algebra.md R207 to
R214). -/
def withOperands (ms1 ms2 : SlotId) (s : State) (k : BitMatrix → BitMatrix → Result) : Result :=
  withSlot .ms1 ms1 s fun A => withSlot .ms2 ms2 s fun B => k A B

section
variable {ms1 ms2 : SlotId} {s : State} {k : BitMatrix → BitMatrix → Result} {A B : BitMatrix}

theorem withOperands_first_empty (h : s.slot ms1 = none) :
    withOperands ms1 ms2 s k = .next (s.raised .emptyOperand 1) :=
  withSlot_none h

theorem withOperands_second_empty (hA : s.slot ms1 = some A) (h : s.slot ms2 = none) :
    withOperands ms1 ms2 s k = .next (s.raised .emptyOperand 2) := by
  rw [withOperands, withSlot_some hA, withSlot_none h]
  rfl

theorem withOperands_full (hA : s.slot ms1 = some A) (hB : s.slot ms2 = some B) :
    withOperands ms1 ms2 s k = k A B := by
  rw [withOperands, withSlot_some hA, withSlot_some hB]

end

section
variable (md ms1 ms2 : SlotId) (s : State)

theorem exec_trans :
    exec (.trans md ms1) s = withSlot .ms1 ms1 s fun M =>
      check (fitsWords s.params M.cols M.rows) .alloc 0 s (completeWith md M.transpose s) := rfl

theorem exec_concat :
    exec (.concat md ms1 ms2) s = withOperands ms1 ms2 s fun A B =>
      check (A.rows = B.rows) .shapeMismatch 0 s <|
      check (A.cols + B.cols ≤ s.params.maxDim.toNat ∧ fitsWords s.params A.rows (A.cols + B.cols)) .alloc 0 s <|
      completeWith md (A.concat B) s := rfl

theorem exec_add :
    exec (.add md ms1 ms2) s = withOperands ms1 ms2 s fun A B =>
      check (A.rows = B.rows ∧ A.cols = B.cols) .shapeMismatch 0 s (completeWith md (A.add B) s) := rfl

theorem exec_mul :
    exec (.mul md ms1 ms2) s = withOperands ms1 ms2 s fun A B =>
      check (A.cols = B.rows) .shapeMismatch 0 s <|
      check (fitsWords s.params A.rows B.cols) .alloc 0 s <|
      completeWith md (A.mul B) s := rfl

theorem exec_mulcnt :
    exec (.mulcnt ms1 ms2) s = withOperands ms1 ms2 s fun A B =>
      check (A.cols = B.rows) .shapeMismatch 0 s <|
      check (A.rows * B.cols ≤ s.params.countCap.toNat) .alloc 1 s <|
      complete (s.setCnt ⟨A.rows, B.cols, (A.counts B).map (BitVec.ofNat 32)⟩) := rfl

theorem exec_rot (k : Nat) :
    exec (.rot md ms1 k) s = withSlot .ms1 ms1 s fun M => completeWith md (M.rot k) s := rfl

theorem exec_hwt : exec (.hwt ms1) s = withSlot .ms1 ms1 s fun M => complete (s.setRes M.hw) := rfl

/-- How ISZERO and ISUT end: RES and FLAG hold the answer (41_matrix_algebra.md R242, R244). -/
def answerWith (b : Bool) : Result := .next { s with res := if b then 1 else 0, flag := b }.completed

theorem complete_setResFlag_bit (b : Bool) : complete (s.setResFlag b.toNat b) = answerWith s b := by
  rw [setResFlag_bit, complete_eq_completed, answerWith]

theorem exec_iszero :
    exec (.iszero ms1) s = withSlot .ms1 ms1 s fun M => answerWith s (decide (M.hw = 0)) := by
  simp only [← complete_setResFlag_bit]
  rfl

theorem exec_isut : exec (.isut ms1) s = withSlot .ms1 ms1 s fun M => answerWith s M.upperTriangular := by
  simp only [← complete_setResFlag_bit]
  rfl

end

end Sys2Proof.Machine
end

section
/-! PROOF. The statements of the matrix algebra and the queries (41_matrix_algebra.md), all but SAMPLE and INV. -/

namespace Sys2Proof.Machine

/-- Settles O20: the one check is the word count of the transpose. -/
theorem transTransposes : Obligations.TransTransposes := by
  refine fun md ms1 => ⟨?_, fun s => ?_⟩
  · exact decode_commandWord (.trans md ms1) rfl (by decide) (by omega) (by decide) (by decide) rfl
  · rw [exec_trans]
    refine ⟨withSlot_none, fun M hM => ?_⟩
    rw [withSlot_some hM, ← Nat.not_le, ← fitsWords_iff]
    exact ⟨check_neg, fun hfit => ⟨M.transpose, ⟨M.rows_transpose, rfl⟩, fun i j => BitMatrix.get_transpose,
      check_pos hfit⟩⟩

/-- Settles O22: the row counts are compared first, then both dimensions of the capacity test. -/
theorem concatJoinsColumns : Obligations.ConcatJoinsColumns := by
  refine fun md ms1 ms2 => ⟨?_, fun s => ?_⟩
  · exact decode_commandWord (.concat md ms1 ms2) rfl (by decide) (by omega) (by decide) (by decide) rfl
  · rw [exec_concat]
    refine ⟨withOperands_first_empty, fun A => withOperands_second_empty, fun A B hA hB => ?_⟩
    rw [withOperands_full hA hB, ← fitsWords_iff]
    exact ⟨check_neg, fun hr hfit => (check_pos hr).trans (check_neg hfit), fun hr hdim hfit =>
      ⟨A.concat B, ⟨A.rows_concat B, rfl⟩, fun i j => BitMatrix.get_concat_left,
        fun i j => BitMatrix.get_concat_right, (check_pos hr).trans (check_pos ⟨hdim, hfit⟩)⟩⟩

/-- Settles O23: the one check is that the shapes agree. -/
theorem addXorsElementwise : Obligations.AddXorsElementwise := by
  refine fun md ms1 ms2 => ⟨?_, fun s => ?_⟩
  · exact decode_commandWord (.add md ms1 ms2) rfl (by decide) (by omega) (by decide) (by decide) rfl
  · rw [exec_add]
    refine ⟨withOperands_first_empty, fun A => withOperands_second_empty, fun A B hA hB => ?_⟩
    rw [withOperands_full hA hB]
    exact ⟨check_neg, fun hr hc => ⟨A.add B, ⟨A.rows_add B, rfl⟩, BitMatrix.get_add hr hc, check_pos ⟨hr, hc⟩⟩⟩

/-- Settles O24: the XOR of the ANDs is the parity of the number of shared ones. -/
theorem mulIsTheGf2Product : Obligations.MulIsTheGf2Product := by
  refine fun md ms1 ms2 => ⟨?_, fun s => ?_⟩
  · exact decode_commandWord (.mul md ms1 ms2) rfl (by decide) (by omega) (by decide) (by decide) rfl
  · rw [exec_mul]
    refine ⟨withOperands_first_empty, fun A => withOperands_second_empty, fun A B hA hB => ?_⟩
    rw [withOperands_full hA hB, ← Nat.not_le, ← fitsWords_iff]
    exact ⟨check_neg, fun hd hfit => (check_pos hd).trans (check_neg hfit), fun hd hfit =>
      ⟨A.mul B, ⟨A.rows_mul B, rfl⟩, fun i j => BitMatrix.get_mul, (check_pos hd).trans (check_pos hfit)⟩⟩

/-- Settles O25: a count is at most A.cols, so an entry of 32 bits holds it when A.cols is below 2^32. -/
theorem mulcntCountsIntoCnt : Obligations.MulcntCountsIntoCnt := by
  refine fun ms1 ms2 => ⟨?_, fun s => ?_⟩
  · exact decode_commandWord (.mulcnt ms1 ms2) rfl (by decide) (by omega) (by decide) (by decide) rfl
  · rw [exec_mulcnt]
    refine ⟨withOperands_first_empty, fun A => withOperands_second_empty, fun A B hA hB => ?_⟩
    rw [withOperands_full hA hB, ← Nat.not_le]
    exact ⟨check_neg, fun hd hcap => (check_pos hd).trans (check_neg hcap), fun hd hcap =>
      ⟨(A.counts B).map (BitVec.ofNat 32), by simp, fun i j => toNat_countEntry,
        (check_pos hd).trans (check_pos hcap)⟩⟩

/-- Settles O26: ROT reads each bit from the column that the rotation carries to its place. -/
theorem rotMovesColumnsUp : Obligations.RotMovesColumnsUp := by
  refine fun md ms1 k => ⟨fun hk => ?_, fun s => ?_⟩
  · exact decode_commandWord (.rot md ms1 k) (decide_eq_true hk) (by decide) (by omega) hk (by decide) rfl
  · rw [exec_rot]
    exact ⟨withSlot_none, fun M hM => ⟨M.rot k, ⟨M.rows_rot k, M.cols_rot k⟩,
      fun i j => M.get_rot k, M.rot_of_cols_eq_zero k, withSlot_some hM⟩⟩

/-- Settles O30: the weight that HWT writes is the number of ones. -/
theorem hwtCountsTheOnes : Obligations.HwtCountsTheOnes := by
  refine fun ms1 => ⟨?_, fun s => ?_⟩
  · exact decode_commandWord (.hwt ms1) rfl (by decide) (by omega) (by decide) (by decide) rfl
  · rw [exec_hwt]
    refine ⟨withSlot_none, fun M hM => ?_⟩
    rw [withSlot_some hM, M.hw_eq_card, complete_eq_completed, State.setRes]

/-- Settles O31: the weight is 0 exactly when every bit is 0. -/
theorem iszeroTestsEveryBit : Obligations.IszeroTestsEveryBit := by
  refine fun ms1 => ⟨?_, fun s => ?_⟩
  · exact decode_commandWord (.iszero ms1) rfl (by decide) (by omega) (by decide) (by decide) rfl
  · rw [exec_iszero]
    refine ⟨withSlot_none, fun M hM => ?_⟩
    rw [withSlot_some hM]
    refine ⟨fun hzero => ?_, fun i j hi hj hone => ?_⟩
    · have hhw : M.hw = 0 := BitMatrix.hw_eq_zero.mpr fun i hi j hj => hzero i j hi hj
      rw [decide_eq_true hhw]
      rfl
    · have hhw : M.hw ≠ 0 := fun h => by simp [BitMatrix.hw_eq_zero.mp h i hi j hj] at hone
      rw [decide_eq_false hhw]
      rfl

/-- Settles O32: the test ranges over the bits below the diagonal. -/
theorem isutTestsBelowTheDiagonal : Obligations.IsutTestsBelowTheDiagonal := by
  refine fun ms1 => ⟨?_, fun s => ?_⟩
  · exact decode_commandWord (.isut ms1) rfl (by decide) (by omega) (by decide) (by decide) rfl
  · rw [exec_isut]
    refine ⟨withSlot_none, fun M hM => ?_⟩
    rw [withSlot_some hM]
    refine ⟨fun hzero => ?_, fun i j hi hj hij hone => ?_⟩
    · rw [BitMatrix.upperTriangular_iff.mpr hzero]
      rfl
    · have hnot : M.upperTriangular = false := Bool.eq_false_iff.mpr fun h => by
        simp [BitMatrix.upperTriangular_iff.mp h i j hi hj hij] at hone
      rw [hnot]
      rfl

end Sys2Proof.Machine
end

section
/-! PROOF. All that one engine step of a command can do (60_exceptions.md R321, R324, R325, R328), said once over
the commands: go on, complete, refuse at a check, or give up after it has run. -/

namespace Sys2Proof.Machine

/-- What an engine step of a running command answers. Errors 1 to 6 are found at a check, before anything is
written (60_exceptions.md R328); the later errors leave the result registers written and no slot or buffer (R325). -/
inductive EngineMove (s : State) : Result → Prop
  | goesOn (sc : Scratch) (g : GenState) (l : List Nat) :
      EngineMove s (.next { s with scratch := sc, prng := g, drawInputs := l })
  | completes (u : State) : EngineMove s (.next (u.finish .none 0))
  | refuses {e : ErrCode} (n : Nat) (he : e ≠ .none) : EngineMove s (.next (s.finish e n))
  | givesUp {e : ErrCode} (n : Nat) (r a b c d : Word) (f : Bool) (he : 6 < e.code.toNat) :
      EngineMove s (.next ({ s with res := r, flag := f, isdTrials := a, isdSing := b, isdDcnt := c,
                                    bfIters := d }.finish e n))

section
variable {s : State}

theorem engineMove_withSlot {f : OperandField} {d : SlotId} {k : BitMatrix → Result}
    (h : ∀ M, EngineMove s (k M)) : EngineMove s (withSlot f d s k) := by
  cases hs : s.slot d with
  | none => rw [withSlot_none hs]; exact .refuses _ nofun
  | some M => rw [withSlot_some hs]; exact h M

theorem engineMove_check {p : Prop} [Decidable p] {e : ErrCode} {n : Nat} {k : Result} (he : e ≠ .none)
    (h : EngineMove s k) : EngineMove s (check p e n s k) := by
  by_cases hp : p
  · rw [check_pos hp]; exact h
  · rw [check_neg hp]; exact .refuses n he

theorem engineMove_goOn (sc : Scratch) : EngineMove s (goOn sc s) := .goesOn sc s.prng s.drawInputs

/-- A pass that drew goes on with only the draws used up. -/
theorem engineMove_goOn_of_draws {u : State} (sc : Scratch)
    (h : ∃ g l, u = { s with prng := g, drawInputs := l }) : EngineMove s (goOn sc u) := by
  obtain ⟨g, l, rfl⟩ := h
  exact .goesOn sc g l

theorem engineMove_tgtwtPass (md : SlotId) (M : BitMatrix) (w : Nat) : EngineMove s (tgtwtPass md M w s) := by
  unfold tgtwtPass
  split
  · exact engineMove_goOn_of_draws _ (draw_snd ..)
  · exact .completes _

theorem engineMove_execTgtwt (md : SlotId) (w : Nat) : EngineMove s (execTgtwt md w s) := by
  unfold execTgtwt
  split
  · exact engineMove_tgtwtPass ..
  · exact engineMove_withSlot fun _ => engineMove_check nofun (engineMove_check nofun (engineMove_goOn _))

theorem engineMove_samplePass (md : SlotId) (M : BitMatrix) (k : Nat) (idx : List Nat) :
    EngineMove s (samplePass md M k idx s) := by
  unfold samplePass
  split
  · exact engineMove_goOn_of_draws _ (drawColumn_snd ..)
  · exact .completes _

theorem engineMove_execSample (md ms1 : SlotId) (k : Nat) : EngineMove s (execSample md ms1 k s) := by
  unfold execSample
  split
  · exact engineMove_samplePass ..
  · exact engineMove_withSlot fun _ => engineMove_check nofun (engineMove_goOn _)

/-- INV writes RES and FLAG when its operand is singular (41_matrix_algebra.md R220). -/
theorem engineMove_execInv (md ms1 : SlotId) : EngineMove s (execInv md ms1 s) := by
  refine engineMove_withSlot fun M => engineMove_check nofun ?_
  cases M.invert with
  | error i => exact .givesUp i _ _ _ _ _ _ (by decide)
  | ok X => exact .completes _

/-- ISD without success writes its counters, RES and FLAG (42_prange_isd.md R270, R271). -/
theorem engineMove_isdFail {e : ErrCode} (sc : IsdScratch) (he : 6 < e.code.toNat) :
    EngineMove s (isdFail e sc s) :=
  .givesUp 0 _ _ _ _ _ _ he

theorem engineMove_isdTop (sc : IsdScratch) : EngineMove s (isdTop sc s) := by
  unfold isdTop
  split
  · exact engineMove_isdFail sc (by decide)
  · split
    · exact engineMove_isdFail sc (by decide)
    · exact engineMove_goOn _

theorem engineMove_isdTry (md : SlotId) (sc : IsdScratch) (idx : List Nat) :
    EngineMove s (isdTry md sc idx s) := by
  unfold isdTry
  split
  · exact engineMove_goOn _
  · dsimp only
    split
    · exact .completes _
    · exact engineMove_goOn _

theorem engineMove_isdPass (md : SlotId) (sc : IsdScratch) : EngineMove s (isdPass md sc s) := by
  unfold isdPass
  split
  · exact engineMove_isdTop sc
  · split
    · exact engineMove_goOn_of_draws _ (drawColumn_snd ..)
    · exact engineMove_isdTry ..

theorem engineMove_execIsd (md ms1 ms2 : SlotId) (w : Nat) : EngineMove s (execIsd md ms1 ms2 w s) := by
  unfold execIsd
  split
  · exact engineMove_isdPass ..
  · exact engineMove_withSlot fun _ => engineMove_withSlot fun _ =>
      engineMove_check nofun (engineMove_check nofun (engineMove_goOn _))

/-- BITFLIP without a result writes BF_ITERS, RES and FLAG (43_bitflip.md R300, R301, R303). -/
theorem engineMove_bitflipFail {e : ErrCode} (n : Nat) (sc : BitflipScratch) (he : 6 < e.code.toNat) :
    EngineMove s (bitflipFail e n sc s) :=
  .givesUp n _ _ _ _ _ _ he

theorem engineMove_bitflipPass (md : SlotId) (sc : BitflipScratch) : EngineMove s (bitflipPass md sc s) := by
  unfold bitflipPass
  split
  · split
    · exact .completes _
    · exact engineMove_bitflipFail _ sc (by decide)
  · split
    · exact engineMove_bitflipFail _ sc (by decide)
    · split
      · exact engineMove_bitflipFail _ sc (by decide)
      · exact engineMove_goOn _

theorem engineMove_execBitflip (md ms1 ms2 ms3 : SlotId) (T w : Nat) :
    EngineMove s (execBitflip md ms1 ms2 ms3 T w s) := by
  unfold execBitflip
  split
  · exact engineMove_bitflipPass ..
  · exact engineMove_withSlot fun _ => engineMove_withSlot fun _ => engineMove_withSlot fun _ =>
      engineMove_check nofun (engineMove_check nofun (engineMove_goOn _))

end

/-- Every command but those with a loop, and INV, is a chain of slot reads and checks that ends in a completion. -/
theorem engineMove_exec (i : Instr) (s : State) : EngineMove s (exec i s) := by
  cases i with
  | tgtwt md w => exact engineMove_execTgtwt md w
  | sample md ms1 k => exact engineMove_execSample md ms1 k
  | inv md ms1 => exact engineMove_execInv md ms1
  | isd md ms1 ms2 w => exact engineMove_execIsd md ms1 ms2 w
  | bitflip md ms1 ms2 ms3 T w => exact engineMove_execBitflip md ms1 ms2 ms3 T w
  | nop => exact .completes _
  | init | ident => exact engineMove_check nofun (.completes _)
  | copy | rand | rot | hwt | iszero | isut => exact engineMove_withSlot fun _ => .completes _
  | trans => exact engineMove_withSlot fun _ => engineMove_check nofun (.completes _)
  | setbit | getbit | rowxor | rowswap =>
    exact engineMove_withSlot fun _ => engineMove_check nofun (engineMove_check nofun (.completes _))
  | add => exact engineMove_withSlot fun _ => engineMove_withSlot fun _ => engineMove_check nofun (.completes _)
  | concat | mul | mulcnt =>
    exact engineMove_withSlot fun _ => engineMove_withSlot fun _ =>
      engineMove_check nofun (engineMove_check nofun (.completes _))

/-- The engine's step of a busy engine is a move: an illegal word is refused too (60_exceptions.md R321). -/
theorem engineMove_engineStep {s : State} (hb : s.engine = .busy) : EngineMove s (engineStep s) := by
  rw [engineStep, hb]
  dsimp only
  split
  · exact .refuses _ nofun
  · exact engineMove_exec _ s

/-- t has the engine's state and the command of s (10_state.md R39). -/
def State.SameRun (s t : State) : Prop := t.engine = s.engine ∧ t.cmd = s.cmd

theorem State.SameRun.refl (s : State) : s.SameRun s := ⟨rfl, rfl⟩

theorem State.SameRun.trans {s t u : State} : s.SameRun t → t.SameRun u → s.SameRun u :=
  fun ⟨hengine, hcmd⟩ ⟨hengine', hcmd'⟩ => ⟨hengine'.trans hengine, hcmd'.trans hcmd⟩

/-- A move completes with DONE, or the engine keeps its state and its command (60_exceptions.md R321). -/
theorem EngineMove.done_or_keeps {s t : State} (h : EngineMove s (.next t)) :
    (t.engine = .idle ∧ t.done = true) ∨ s.SameRun t := by
  cases h with
  | goesOn => exact .inr ⟨rfl, rfl⟩
  | completes | refuses | givesUp => exact .inl ⟨rfl, rfl⟩

end Sys2Proof.Machine
end

section
/-! PROOF. What a host access does to the engine (20_memory.md R85, 60_exceptions.md R322, R323): only a soft reset
and an accepted CMD write touch engine.state or engine.cmd. -/

namespace Sys2Proof.Machine

/-- A CMD write while IDLE is accepted (60_exceptions.md R322). -/
theorem writeCmd_idle {s : State} (x : Word) (h : s.engine = .idle) : writeCmd x s = s.accept x := by
  simp [writeCmd, h]

/-- A CMD write while BUSY is dropped with CMDOVR (60_exceptions.md R323). -/
theorem writeCmd_busy {s : State} (x : Word) (h : s.engine = .busy) : writeCmd x s = s.setCmdovr := by
  simp [writeCmd, h]

section
variable (s : State)

/-- A read leaves s itself, or through a guarded window s with a sticky bit set (20_memory.md R85). -/
theorem sameRun_readReg (r : Reg) : s.SameRun (readReg r s).2 := by
  cases r with
  | mdata | cdata | xdata =>
    simp only [readReg, readMdata, readCdata, readXdata]
    repeat' split
    all_goals exact ⟨rfl, rfl⟩
  | _ => exact .refl s

theorem sameRun_writeMdata (v : Word) : s.SameRun (writeMdata v s) := by
  unfold writeMdata
  repeat' split
  all_goals exact ⟨rfl, rfl⟩

theorem sameRun_writeConfig {put : State → State} (h : s.SameRun (put s)) : s.SameRun (writeConfig put s) := by
  unfold writeConfig
  split
  · exact h
  · exact ⟨rfl, rfl⟩

/-- All that a register write can do to the engine: only CTRL resets it and only CMD starts it (10_state.md R48,
60_exceptions.md R322). -/
theorem writeReg_engine_cases (r : Reg) (v : Word) :
    (r = .ctrl ∧ v.getLsbD 2 = true ∧ (writeReg r v s).engine = .idle) ∨
    (r = .cmd ∧ s.engine = .idle ∧ (writeReg r v s).cmd = v) ∨
    s.SameRun (writeReg r v s) := by
  cases r with
  | ctrl =>
    rw [writeReg]
    cases hsrst : v.getLsbD 2 with
    | true => rw [State.writeCtrl_of_srst hsrst]; exact .inl ⟨rfl, rfl, rfl⟩
    | false => rw [State.writeCtrl_of_no_srst hsrst]; exact .inr (.inr ⟨rfl, rfl⟩)
  | cmd =>
    rw [writeReg]
    cases hs : s.engine with
    | idle => rw [writeCmd_idle v hs]; exact .inr (.inl ⟨rfl, rfl, rfl⟩)
    | busy => rw [writeCmd_busy v hs]; exact .inr (.inr ⟨rfl, rfl⟩)
  | seed | isdMax | isdDthr | bfMax => exact .inr (.inr (sameRun_writeConfig s ⟨rfl, rfl⟩))
  | mdata => exact .inr (.inr (sameRun_writeMdata s v))
  | _ => exact .inr (.inr ⟨rfl, rfl⟩)

end

theorem regOrder_nodup : regOrder.Nodup := by decide

/-- A register has one offset, 8 times its place in the order (10_state.md R41). -/
theorem toNat_of_regAt {o : BitVec 8} {r : Reg} (ha : o.toNat % 8 = 0) (hr : regAt o = some r) :
    o.toNat = 8 * regOrder.idxOf r := by
  obtain ⟨hlt, rfl⟩ := List.getElem?_eq_some_iff.mp hr
  rw [regOrder_nodup.idxOf_getElem]
  omega

/-- a is an accepted write of CMD (60_exceptions.md R322). -/
def HostAccess.WritesCmd (a : HostAccess) : Prop := a.accepted = true ∧ a.we = true ∧ a.addr = 0x28

/-- All that an access can do to the engine: reset it, start it, or leave it with its command. -/
theorem busAccess_engine_cases (a : HostAccess) (s : State) :
    (a.isSoftReset = true ∧ (busAccess a s).engine = .idle) ∨
    (s.engine = .idle ∧ a.WritesCmd ∧ (busAccess a s).cmd = a.wdata) ∨
    s.SameRun (busAccess a s) := by
  by_cases hacc : a.accepted = true
  case neg => rw [busAccess, if_neg hacc]; exact .inr (.inr ⟨rfl, rfl⟩)
  case pos =>
    obtain ⟨-, halign⟩ : a.size = 8 ∧ a.addr.toNat % 8 = 0 := by simpa [HostAccess.accepted] using hacc
    rw [busAccess, if_pos hacc]
    split
    case h_1 r _ _ => exact .inr (.inr (sameRun_readReg s r))
    case h_2 | h_4 => exact .inr (.inr ⟨rfl, rfl⟩)
    case h_3 r hwe hr =>
      have hoffset := toNat_of_regAt halign hr
      rcases writeReg_engine_cases s r a.wdata with ⟨rfl, hsrst, hidle⟩ | ⟨rfl, hidle, hcmd⟩ | hsame
      · have haddr : a.addr = 0x18 := BitVec.eq_of_toNat_eq hoffset
        exact .inl ⟨by simp [HostAccess.isSoftReset, hacc, hwe, haddr, hsrst], hidle⟩
      · exact .inr (.inl ⟨hidle, ⟨hacc, hwe, BitVec.eq_of_toNat_eq hoffset⟩, hcmd⟩)
      · exact .inr (.inr hsame)

end Sys2Proof.Machine
end

section
/-! PROOF. What one step of the machine does to the engine (60_exceptions.md R321, R335): a reset, a start, a
completion, or nothing. -/

namespace Sys2Proof.Machine

/-- The edge holds a hardware or a soft reset (70_reset_and_hazards.md R360). -/
def Edge.Resets (e : Edge) : Prop := e.rstN = false ∨ ∃ a, e.access = some a ∧ a.isSoftReset = true

/-- The edge holds an accepted CMD write of x, and no reset (60_exceptions.md R322). -/
def Edge.WritesCmd (e : Edge) (x : Word) : Prop :=
  e.rstN = true ∧ ∃ a, e.access = some a ∧ a.WritesCmd ∧ x = a.wdata

/-- With no edge waiting the environment is quiet (log 2). -/
theorem step_of_inputs_nil {s : State} (h : s.inputs = []) : step s = clockEdge quietEdge s := by
  simp [step, nextEdge, h]

theorem engine_resetEdge (access : Option HostAccess) (s : State) : (resetEdge access s).engine = .idle := by
  cases access <;> rfl

theorem clockEdge_reset {e : Edge} (s : State) (h : e.rstN = false) :
    clockEdge e s = .next (resetEdge e.access s) := by
  simp [clockEdge, h]

/-- Without a reset, an edge is its access, or its access and then a step of the engine it left BUSY (log 18). -/
theorem clockEdge_run {e : Edge} {s t : State} (hr : e.rstN = true) (h : clockEdge e s = .next t) :
    t = presentAccess e.access s ∨
      (s.engine = .busy ∧ (presentAccess e.access s).engine = .busy ∧
        engineStep (presentAccess e.access s) = .next t) := by
  simp only [clockEdge, hr, if_true] at h
  split at h
  case isTrue hrun =>
    simp only [Bool.and_eq_true, State.busy, decide_eq_true_eq] at hrun
    obtain ⟨⟨-, hs⟩, hs'⟩ := hrun
    exact .inr ⟨hs, hs', h⟩
  case isFalse => cases h; exact .inl rfl

theorem presentAccess_engine_cases {e : Edge} (s : State) (hr : e.rstN = true) :
    (e.Resets ∧ (presentAccess e.access s).engine = .idle) ∨
    (s.engine = .idle ∧ e.WritesCmd (presentAccess e.access s).cmd) ∨
    s.SameRun (presentAccess e.access s) := by
  cases ha : e.access with
  | none => exact .inr (.inr (.refl s))
  | some a =>
    rcases busAccess_engine_cases a s with ⟨hsoft, hidle⟩ | ⟨hidle, hw, hcmd⟩ | hsame
    · exact .inl ⟨.inr ⟨a, ha, hsoft⟩, hidle⟩
    · exact .inr (.inl ⟨hidle, hr, a, ha, hw, hcmd⟩)
    · exact .inr (.inr hsame)

/-- All that an edge can do to the engine. -/
theorem clockEdge_engine_cases {e : Edge} {s t : State} (h : clockEdge e s = .next t) :
    (e.Resets ∧ t.engine = .idle) ∨ (s.engine = .idle ∧ e.WritesCmd t.cmd) ∨
    (t.engine = .idle ∧ t.done = true) ∨ s.SameRun t := by
  cases hr : e.rstN with
  | false =>
    rw [clockEdge_reset s hr] at h
    cases h
    exact .inl ⟨.inl hr, engine_resetEdge ..⟩
  | true =>
    have haccess := presentAccess_engine_cases s hr
    obtain rfl | ⟨hs, hs', hstep⟩ := clockEdge_run hr h
    · exact haccess.imp_right (.imp_right .inr)
    have hsame : s.SameRun (presentAccess e.access s) := by
      rcases haccess with ⟨-, hidle⟩ | ⟨hidle, -⟩ | hsame
      · rw [hs'] at hidle; cases hidle
      · rw [hs] at hidle; cases hidle
      · exact hsame
    have hmove := engineMove_engineStep hs'
    rw [hstep] at hmove
    rcases hmove.done_or_keeps with hdone | hkeeps
    · exact .inr (.inr (.inl hdone))
    · exact .inr (.inr (.inr (hsame.trans hkeeps)))

/-- All that a step can do to the engine; a quiet edge holds no reset and no write (log 2). -/
theorem step_engine_cases {s t : State} (h : step s = .next t) :
    (t.engine = .idle ∧ ∃ e rest, s.inputs = e :: rest ∧ e.Resets) ∨
    (s.engine = .idle ∧ ∃ e rest, s.inputs = e :: rest ∧ e.WritesCmd t.cmd) ∨
    (t.engine = .idle ∧ t.done = true) ∨ s.SameRun t := by
  cases hin : s.inputs with
  | nil =>
    rw [step_of_inputs_nil hin] at h
    rcases clockEdge_engine_cases h with ⟨hreset, -⟩ | ⟨-, hwrite⟩ | hrest
    · simp [Edge.Resets, quietEdge] at hreset
    · simp [Edge.WritesCmd, quietEdge] at hwrite
    · exact .inr (.inr hrest)
  | cons e rest =>
    rw [step_of_inputs_cons hin] at h
    rcases clockEdge_engine_cases h with ⟨hreset, hidle⟩ | ⟨hidle, hwrite⟩ | hrest
    · exact .inl ⟨hidle, e, rest, rfl, hreset⟩
    · exact .inr (.inl ⟨hidle, e, rest, rfl, hwrite⟩)
    · exact .inr (.inr hrest)

end Sys2Proof.Machine
end

section
/-! PROOF. The statements of the exceptions family: precise errors, the command's life, and the CMD register. -/

namespace Sys2Proof.Machine

/-- Settles O43: of a command's moves, only refusing and giving up set an error, and only going on keeps BUSY. -/
theorem errorsArePrecise : Obligations.ErrorsArePrecise := by
  intro i s t hbusy hnone hexec
  have hmove := engineMove_exec i s
  rw [hexec] at hmove
  cases hmove with
  | goesOn sc g l => exact ⟨fun _ => ⟨sc, g, l, rfl⟩, fun herr => absurd hnone herr⟩
  | completes u => exact ⟨nofun, fun herr => absurd rfl herr⟩
  | refuses n he =>
    exact ⟨nofun, fun _ => ⟨rfl, rfl, rfl,
      ⟨s.res, s.isdTrials, s.isdSing, s.isdDcnt, s.bfIters, s.flag, rfl⟩, fun _ => rfl⟩⟩
  | givesUp n r a b c d f he =>
    exact ⟨nofun, fun _ => ⟨rfl, rfl, rfl, ⟨r, a, b, c, d, f, rfl⟩, fun hle => absurd hle (Nat.not_le.mpr he)⟩⟩

/-- Settles O46: of all that a step can do to the engine, only a CMD write starts it, and only a reset or a
completion ends it. -/
theorem busyEndsOnlyByCompletionOrReset : Obligations.BusyEndsOnlyByCompletionOrReset := by
  intro s t h
  rcases step_engine_cases h with ⟨ht, e, rest, hin, hreset⟩ |
    ⟨hs, ⟨_, _, b⟩, rest, hin, rfl, a, rfl, ⟨hacc, hwe, haddr⟩, hcmd⟩ | ⟨ht, hdone⟩ | ⟨hengine, hcmd⟩
  · rw [ht]
    exact ⟨nofun, fun _ _ => .inr ⟨e, rest, hin, hreset⟩, nofun⟩
  · rw [hs]
    exact ⟨fun _ _ => ⟨a, b, rest, hin, hacc, hwe, haddr, hcmd⟩, nofun, nofun⟩
  · rw [ht]
    exact ⟨nofun, fun _ _ => .inl hdone, nofun⟩
  · rw [hengine]
    cases s.engine with
    | idle => exact ⟨nofun, nofun, nofun⟩
    | busy => exact ⟨nofun, nofun, fun _ _ => hcmd⟩

/-- Settles O48: a CMD write by the engine's state, and the CMD register read back. -/
theorem cmdWriteIsAcceptedOrDropped : Obligations.CmdWriteIsAcceptedOrDropped := by
  intro x s
  rw [busAccess_writeAt .cmd x s rfl rfl, busAccess_readAt .cmd s rfl rfl, writeReg]
  refine ⟨fun hidle => ?_, fun hbusy => ?_, rfl⟩
  · rw [writeCmd_idle x hidle]; rfl
  · rw [writeCmd_busy x hbusy]; rfl

end Sys2Proof.Machine
end

section
/-! PROOF. The encoder undoes the decoder (30_encoding.md R121 to R126): a row's mask covers exactly the fields
its command does not keep, so no bit of a word that decodes is lost. -/

namespace Sys2Proof

@[simp] theorem slotBits_slotOf (x : BitVec 4) : slotBits (slotOf x) = x :=
  BitVec.eq_of_toNat_eq (by simp [slotBits, slotOf])

@[simp] theorem immBits_immOf (x : BitVec 20) : immBits (immOf x) = x :=
  BitVec.eq_of_toNat_eq (by simp [immBits, immOf])

@[simp] theorem fitsImm20_immOf (x : BitVec 20) : fitsImm20 (immOf x) = true := decide_eq_true x.isLt

@[simp] theorem fitsImm40_imm40Of (f : Fields) : fitsImm40 (imm40Of f) = true :=
  decide_eq_true (f.immB ++ f.immA).isLt

/-- TGTWT's two fields from its 40-bit immediate (30_encoding.md R123). -/
theorem immBits_imm40Of (f : Fields) :
    immBits (imm40Of f) = f.immA ∧ immBits (imm40Of f / 2 ^ 20) = f.immB := by
  have hA := f.immA.isLt
  have hB := f.immB.isLt
  constructor <;> refine BitVec.eq_of_toNat_eq ?_ <;>
    rw [immBits, BitVec.toNat_ofNat, imm40Of, toNat_append_eq_add] <;> omega

/-- SETBIT's value field is its lowest bit when its other bits are 0 (30_encoding.md R124). -/
theorem setWidth_ofBool_lowest : ∀ x : BitVec 4, x &&& 14 = 0 → (BitVec.ofBool (x.getLsbD 0)).setWidth 4 = x := by
  decide

/-- Every row builds well-formed commands: an immediate fits the field it is read from (30_encoding.md R123). -/
theorem wellFormed_build {r : OpRow} (hr : r ∈ opcodeTable) (f : Fields) : (r.build f).wellFormed = true := by
  revert r
  simp [opcodeTable, basicRows, algebraRows, queryRows, decoderRows, Instr.wellFormed]

/-- The mask of a row, field by field (30_encoding.md R125). -/
def MasksTo (f mask : Fields) (op : BitVec 8) : Prop :=
  f.op &&& mask.op = op ∧ f.md &&& mask.md = 0 ∧ f.ms1 &&& mask.ms1 = 0 ∧ f.ms2 &&& mask.ms2 = 0 ∧
    f.ms3 &&& mask.ms3 = 0 ∧ f.immA &&& mask.immA = 0 ∧ f.immB &&& mask.immB = 0

theorem masksTo_of_and {w mask : Word} {op : BitVec 8} (h : w &&& mask = op.setWidth 64) :
    MasksTo (Fields.ofWord w) (Fields.ofWord mask) op := by
  rw [← toWord_ofWord w, toWord_and, setWidth_eq_opOnly, toWord_inj] at h
  simp only [Fields.opOnly, Fields.mk.injEq] at h
  exact h

theorem and_ones_op (x : BitVec 8) : x &&& 255#8 = x := BitVec.and_allOnes
theorem and_ones_slot (x : BitVec 4) : x &&& 15#4 = x := BitVec.and_allOnes
theorem and_ones_imm (x : BitVec 20) : x &&& 1048575#20 = x := BitVec.and_allOnes

/-- The encoder gives back every field of a word that meets its row's mask: the masked fields are 0, and the
command keeps the others (30_encoding.md R125, R126). -/
theorem fields_build {r : OpRow} (hr : r ∈ opcodeTable) {f : Fields} (h : MasksTo f (Fields.ofWord r.mask) r.op) :
    (r.build f).fields = f := by
  have hvalue : f.ms3 &&& 14 = 0 → (BitVec.ofBool (valueOf f)).setWidth 4 = f.ms3 := setWidth_ofBool_lowest f.ms3
  have himm40 := immBits_imm40Of f
  obtain ⟨op, md, ms1, ms2, ms3, immA, immB⟩ := f
  revert r
  simp only [opcodeTable, basicRows, algebraRows, queryRows, decoderRows, List.cons_append, List.nil_append,
    List.forall_mem_cons, List.not_mem_nil, false_implies, implies_true, and_true]
  and_intros
  all_goals
    intro h
    simp [MasksTo, Fields.ofWord, and_ones_op, and_ones_slot, and_ones_imm] at h
    simp_all [Instr.fields, Instr.opcode, Fields.opOnly]

/-- A word that decodes spells a well-formed command, whose encoding it is (30_encoding.md R125, R126). -/
theorem encode_of_decode {w : Word} {i : Instr} (h : decode w = .command i) :
    i.wellFormed = true ∧ encode i = w := by
  cases hrow : rowOf (Fields.ofWord w).op with
  | none => rw [(decode_eq_unassigned_iff w).mpr hrow] at h; cases h
  | some r =>
    obtain ⟨hr, ho⟩ := mem_and_op_of_rowOf hrow
    rw [decode_of_op hr ho.symm] at h
    split at h
    case isFalse => cases h
    case isTrue hmask =>
      cases h
      exact ⟨wellFormed_build hr _, by rw [encode, fields_build hr (masksTo_of_and hmask), toWord_ofWord]⟩

end Sys2Proof
end

section
/-! PROOF. The statements on the whole encoding: the round trip in both directions, and the example words. -/

namespace Sys2Proof.Machine

/-- Settles O1: a command's word meets its row's mask, and its row reads the fields back. -/
theorem decodeEncodeRoundTrip : Obligations.DecodeEncodeRoundTrip := fun _ h => decode_encode h

/-- Settles O2: a word that decodes meets its row's mask, so the encoder gives back each of its fields. -/
theorem decodedWordIsItsEncoding : Obligations.DecodedWordIsItsEncoding := fun _ _ h => encode_of_decode h

/-- Settles O5: each word is looked up in the opcode table. -/
theorem tableWordsDecode : Obligations.TableWordsDecode := by
  unfold Obligations.TableWordsDecode
  decide

end Sys2Proof.Machine
end

section
/-! PROOF. What a command leaves of the state (60_exceptions.md R324, R325): it writes slots, buffers, draws, result
registers and its own life, and nothing of the host's. -/

namespace Sys2Proof.Machine

/-- Every state the answer names meets P. -/
def AllNext (P : State → Prop) (r : Result) : Prop := ∀ t, r = .next t → P t

theorem allNext_next {P : State → Prop} {t : State} (h : P t) : AllNext P (.next t) := fun u hu => by
  cases hu; exact h

section
variable {P : State → Prop} {s : State}

theorem allNext_withSlot {f : OperandField} {d : SlotId} {k : BitMatrix → Result}
    (hraise : ∀ e n, P (s.finish e n)) (h : ∀ M, s.slot d = some M → AllNext P (k M)) :
    AllNext P (withSlot f d s k) := fun t ht => by
  rcases withSlot_next ht with ⟨-, rfl⟩ | ⟨M, hM, hk⟩
  · exact hraise _ _
  · exact h M hM t hk

theorem allNext_check {p : Prop} [Decidable p] {e : ErrCode} {n : Nat} {k : Result}
    (hraise : ∀ e n, P (s.finish e n)) (h : p → AllNext P k) : AllNext P (check p e n s k) := fun t ht => by
  rcases check_next ht with ⟨-, rfl⟩ | ⟨hp, hk⟩
  · exact hraise _ _
  · exact h hp t hk

end

/-- t differs from s at most where a command writes: the storage, the draws, the results, and the command's life
(60_exceptions.md R324, R325). -/
def State.CommandWrote (s t : State) : Prop :=
  t = { s with
    slots := t.slots, cnt := t.cnt, xidx := t.xidx, engine := t.engine, scratch := t.scratch, prng := t.prng
    done := t.done, flag := t.flag, err := t.err, res := t.res, errinfo := t.errinfo, isdTrials := t.isdTrials
    isdSing := t.isdSing, isdDcnt := t.isdDcnt, bfIters := t.bfIters, drawInputs := t.drawInputs }

section
variable {s : State}

theorem commandWrote_finish (e : ErrCode) (n : Nat) : s.CommandWrote (s.finish e n) := rfl

/-- A pass that drew goes on with only the draws used up. -/
theorem commandWrote_goOn_of_draws {u : State} (sc : Scratch) (h : ∃ g l, u = { s with prng := g, drawInputs := l }) :
    AllNext s.CommandWrote (goOn sc u) := by
  obtain ⟨g, l, rfl⟩ := h
  exact allNext_next rfl

theorem commandWrote_execRand (md : SlotId) : AllNext s.CommandWrote (execRand md s) := by
  refine allNext_withSlot commandWrote_finish fun M _ => ?_
  obtain ⟨g, l, h⟩ := drawBits_snd (M.rows * M.cols) s
  dsimp only
  rw [h]
  exact allNext_next rfl

theorem commandWrote_execTgtwt (md : SlotId) (w : Nat) : AllNext s.CommandWrote (execTgtwt md w s) := by
  unfold execTgtwt
  split
  · unfold tgtwtPass
    split
    · exact commandWrote_goOn_of_draws _ (draw_snd ..)
    · exact allNext_next rfl
  · exact allNext_withSlot commandWrote_finish fun _ _ => allNext_check commandWrote_finish fun _ =>
      allNext_check commandWrote_finish fun _ => allNext_next rfl

theorem commandWrote_execSample (md ms1 : SlotId) (k : Nat) : AllNext s.CommandWrote (execSample md ms1 k s) := by
  unfold execSample
  split
  · unfold samplePass
    split
    · exact commandWrote_goOn_of_draws _ (drawColumn_snd ..)
    · exact allNext_next rfl
  · exact allNext_withSlot commandWrote_finish fun _ _ => allNext_check commandWrote_finish fun _ => allNext_next rfl

theorem commandWrote_execInv (md ms1 : SlotId) : AllNext s.CommandWrote (execInv md ms1 s) := by
  refine allNext_withSlot commandWrote_finish fun M _ => allNext_check commandWrote_finish fun _ => ?_
  cases M.invert <;> exact allNext_next rfl

theorem commandWrote_isdTop (sc : IsdScratch) : AllNext s.CommandWrote (isdTop sc s) := by
  unfold isdTop
  split
  · exact allNext_next rfl
  · split <;> exact allNext_next rfl

theorem commandWrote_isdTry (md : SlotId) (sc : IsdScratch) (idx : List Nat) :
    AllNext s.CommandWrote (isdTry md sc idx s) := by
  unfold isdTry
  split
  · exact allNext_next rfl
  · dsimp only
    split <;> exact allNext_next rfl

theorem commandWrote_execIsd (md ms1 ms2 : SlotId) (w : Nat) : AllNext s.CommandWrote (execIsd md ms1 ms2 w s) := by
  unfold execIsd
  split
  · unfold isdPass
    split
    · exact commandWrote_isdTop _
    · split
      · exact commandWrote_goOn_of_draws _ (drawColumn_snd ..)
      · exact commandWrote_isdTry md _ _
  · exact allNext_withSlot commandWrote_finish fun _ _ => allNext_withSlot commandWrote_finish fun _ _ =>
      allNext_check commandWrote_finish fun _ => allNext_check commandWrote_finish fun _ => allNext_next rfl

theorem commandWrote_bitflipPass (md : SlotId) (sc : BitflipScratch) :
    AllNext s.CommandWrote (bitflipPass md sc s) := by
  unfold bitflipPass
  split
  · split <;> exact allNext_next rfl
  · split
    · exact allNext_next rfl
    · split <;> exact allNext_next rfl

theorem commandWrote_execBitflip (md ms1 ms2 ms3 : SlotId) (T w : Nat) :
    AllNext s.CommandWrote (execBitflip md ms1 ms2 ms3 T w s) := by
  unfold execBitflip
  split
  · exact commandWrote_bitflipPass md _
  · exact allNext_withSlot commandWrote_finish fun _ _ => allNext_withSlot commandWrote_finish fun _ _ =>
      allNext_withSlot commandWrote_finish fun _ _ =>
      allNext_check commandWrote_finish fun _ => allNext_check commandWrote_finish fun _ => allNext_next rfl

end

/-- Every command ends its slot reads and checks in one named update of s, at most after draws. -/
theorem commandWrote_exec (i : Instr) (s : State) : AllNext s.CommandWrote (exec i s) := by
  cases i with
  | rand md => exact commandWrote_execRand md
  | tgtwt md w => exact commandWrote_execTgtwt md w
  | sample md ms1 k => exact commandWrote_execSample md ms1 k
  | inv md ms1 => exact commandWrote_execInv md ms1
  | isd md ms1 ms2 w => exact commandWrote_execIsd md ms1 ms2 w
  | bitflip md ms1 ms2 ms3 T w => exact commandWrote_execBitflip md ms1 ms2 ms3 T w
  | nop => exact allNext_next rfl
  | init | ident => exact allNext_check commandWrote_finish fun _ => allNext_next rfl
  | copy | rot | hwt | iszero | isut => exact allNext_withSlot commandWrote_finish fun _ _ => allNext_next rfl
  | trans =>
    exact allNext_withSlot commandWrote_finish fun _ _ => allNext_check commandWrote_finish fun _ => allNext_next rfl
  | setbit | getbit | rowxor | rowswap =>
    exact allNext_withSlot commandWrote_finish fun _ _ => allNext_check commandWrote_finish fun _ =>
      allNext_check commandWrote_finish fun _ => allNext_next rfl
  | add =>
    exact allNext_withSlot commandWrote_finish fun _ _ => allNext_withSlot commandWrote_finish fun _ _ =>
      allNext_check commandWrote_finish fun _ => allNext_next rfl
  | concat | mul | mulcnt =>
    exact allNext_withSlot commandWrote_finish fun _ _ => allNext_withSlot commandWrote_finish fun _ _ =>
      allNext_check commandWrote_finish fun _ => allNext_check commandWrote_finish fun _ => allNext_next rfl

/-- The engine's step writes what a command writes; an illegal word is a raise (60_exceptions.md R321). -/
theorem commandWrote_engineStep (s : State) : AllNext s.CommandWrote (engineStep s) := by
  unfold engineStep
  split
  · exact allNext_next rfl
  · split
    · exact allNext_next rfl
    · exact commandWrote_exec _ s

/-- A move answers a next state (60_exceptions.md R320). -/
theorem EngineMove.exists_next {s : State} {r : Result} (h : EngineMove s r) : ∃ t, r = .next t := by
  cases h <;> exact ⟨_, rfl⟩

theorem engineStep_exists_next (s : State) : ∃ t, engineStep s = .next t := by
  cases hs : s.engine with
  | idle => exact ⟨s, by rw [engineStep, hs]⟩
  | busy => exact (engineMove_engineStep hs).exists_next

theorem clockEdge_exists_next (e : Edge) (s : State) : ∃ t, clockEdge e s = .next t := by
  unfold clockEdge
  split
  · dsimp only
    split
    · exact engineStep_exists_next _
    · exact ⟨_, rfl⟩
  · exact ⟨_, rfl⟩

end Sys2Proof.Machine
end

section
/-! PROOF. Host accesses while a command runs (20_memory.md R90, 70_reset_and_hazards.md R371 to R375): but for a soft
reset, an access touches only the sticky bits, IE, the window addresses, the response, and the abort request. -/

namespace Sys2Proof.Machine

/-- t differs from s at most where a host access to a running engine writes, and DONE is at most cleared. -/
def State.Undisturbed (s t : State) : Prop :=
  t = { s with
    ie := t.ie, done := t.done, cmdovr := t.cmdovr, haz := t.haz, winerr := t.winerr, maddr := t.maddr
    caddr := t.caddr, xaddr := t.xaddr, lastResponse := t.lastResponse, freeCount := t.freeCount } ∧
  (t.done = true → s.done = true)

theorem State.Undisturbed.refl (s : State) : s.Undisturbed s := ⟨rfl, id⟩

section
variable {s t : State}

theorem State.Undisturbed.respond (h : s.Undisturbed t) (e : Bool) (v : Word) : s.Undisturbed (t.respond e v) := by
  obtain ⟨heq, hdone⟩ := h
  exact ⟨by rw [heq]; rfl, hdone⟩

theorem State.Undisturbed.respondFree (h : s.Undisturbed t) (ack : Bool) : s.Undisturbed (t.respondFree ack) := by
  obtain ⟨heq, hdone⟩ := h
  exact ⟨by rw [heq]; rfl, hdone⟩

end

section
variable (s : State)

/-- A read leaves s, or s with a sticky bit set (20_memory.md R85). -/
theorem undisturbed_readReg (r : Reg) : s.Undisturbed (readReg r s).2 := by
  cases r with
  | mdata | cdata | xdata =>
    simp only [readReg, readMdata, readCdata, readXdata]
    repeat' split
    all_goals exact ⟨rfl, id⟩
  | _ => exact .refl s

theorem undisturbed_clearStatus (v : Word) : s.Undisturbed (s.clearStatus v) :=
  ⟨rfl, fun h => (Bool.and_eq_true_iff.mp h).1⟩

/-- While BUSY a write of any register but CTRL is dropped or touches only the host's side (20_memory.md R90,
70_reset_and_hazards.md R372). -/
theorem undisturbed_writeReg_busy {r : Reg} (v : Word) (hb : s.engine = .busy) (hr : r ≠ .ctrl) :
    s.Undisturbed (writeReg r v s) := by
  cases r with
  | ctrl => exact absurd rfl hr
  | status => exact undisturbed_clearStatus s v
  | cmd => rw [writeReg, writeCmd_busy v hb]; exact ⟨rfl, id⟩
  | seed | isdMax | isdDthr | bfMax => rw [writeReg, writeConfig_busy hb]; exact ⟨rfl, id⟩
  | mdata => rw [writeReg, writeMdata_busy v hb]; exact ⟨rfl, id⟩
  | _ => exact ⟨rfl, id⟩

end

/-- The access is an accepted CTRL write with ABORT = 1 (10_state.md R48). -/
def HostAccess.requestsAbort (a : HostAccess) : Bool :=
  a.accepted && a.we && a.addr == 0x18 && a.wdata.getLsbD 1

theorem HostAccess.requestsAbort_of_addr_ne {a : HostAccess} (h : a.addr ≠ 0x18) : a.requestsAbort = false := by
  rw [requestsAbort, beq_false_of_ne h, Bool.and_false, Bool.false_and]

/-- A CTRL write without SRST takes IE and records an abort request (10_state.md R48, 60_exceptions.md R333). -/
theorem undisturbed_writeCtrl {s : State} {v : Word} (hb : s.engine = .busy) (hsrst : v.getLsbD 2 = false) :
    ({ s with abortReq := s.abortReq || v.getLsbD 1 } : State).Undisturbed (s.writeCtrl v) := by
  have hbusy : s.busy = true := decide_eq_true hb
  rw [State.writeCtrl_of_no_srst hsrst, hbusy, Bool.and_true]
  exact ⟨rfl, id⟩

/-- While BUSY an access that is no soft reset leaves the command and what it reads alone; it may record an abort
request (20_memory.md R97, 70_reset_and_hazards.md R371). -/
theorem undisturbed_busAccess {a : HostAccess} {s : State} (hb : s.engine = .busy) (hsoft : a.isSoftReset = false) :
    ({ s with abortReq := s.abortReq || a.requestsAbort } : State).Undisturbed (busAccess a s) := by
  have hkeeps {t : State} (hno : a.requestsAbort = false) (h : s.Undisturbed t) :
      ({ s with abortReq := s.abortReq || a.requestsAbort } : State).Undisturbed t := by
    rw [hno, Bool.or_false]; exact h
  by_cases hacc : a.accepted = true
  case neg =>
    rw [busAccess, if_neg hacc]
    exact hkeeps (by simp [HostAccess.requestsAbort, hacc]) ((State.Undisturbed.refl s).respond ..)
  case pos =>
    rw [busAccess, if_pos hacc]
    split
    case h_1 r hwe _ =>
      exact hkeeps (by simp [HostAccess.requestsAbort, hwe]) ((undisturbed_readReg s r).respond ..)
    case h_2 hwe _ => exact hkeeps (by simp [HostAccess.requestsAbort, hwe]) ((State.Undisturbed.refl s).respond ..)
    case h_4 hr =>
      have haddr : a.addr ≠ 0x18 := fun h => by rw [h] at hr; cases hr
      exact hkeeps (HostAccess.requestsAbort_of_addr_ne haddr) ((State.Undisturbed.refl s).respondFree _)
    case h_3 r hwe hr =>
      refine State.Undisturbed.respondFree ?_ true
      by_cases hctrl : r = .ctrl
      case neg =>
        have haddr : a.addr ≠ 0x18 := fun h => hctrl (by rw [h] at hr; exact (Option.some.inj hr).symm)
        exact hkeeps (HostAccess.requestsAbort_of_addr_ne haddr) (undisturbed_writeReg_busy s _ hb hctrl)
      case pos =>
        subst hctrl
        obtain ⟨-, halign⟩ : a.size = 8 ∧ a.addr.toNat % 8 = 0 := by simpa [HostAccess.accepted] using hacc
        have haddr : a.addr = 0x18 := BitVec.eq_of_toNat_eq (toNat_of_regAt halign hr)
        have hsrst : a.wdata.getLsbD 2 = false := by simpa [HostAccess.isSoftReset, hacc, hwe, haddr] using hsoft
        have habort : a.requestsAbort = a.wdata.getLsbD 1 := by
          simp [HostAccess.requestsAbort, hacc, hwe, haddr]
        rw [habort]
        exact undisturbed_writeCtrl hb hsrst

/-- What an abort request is, as 10_state.md R48 states it. -/
theorem HostAccess.requestsAbort_iff (a : HostAccess) :
    a.requestsAbort = true ↔ a.size = 8 ∧ a.we = true ∧ a.addr = 0x18 ∧ a.wdata.getLsbD 1 = true := by
  simp only [requestsAbort, accepted, Bool.and_eq_true, beq_iff_eq]
  constructor
  · rintro ⟨⟨⟨⟨hsize, -⟩, hwe⟩, haddr⟩, hbit⟩
    exact ⟨hsize, hwe, haddr, hbit⟩
  · rintro ⟨hsize, hwe, haddr, hbit⟩
    exact ⟨⟨⟨⟨hsize, by rw [haddr]; rfl⟩, hwe⟩, haddr⟩, hbit⟩

/-- An accepted CTRL write with SRST resets the engine (10_state.md R48). -/
theorem busAccess_softReset {a : HostAccess} (s : State) (h : a.isSoftReset = true) :
    busAccess a s = s.resetEngine.respondFree true := by
  simp only [HostAccess.isSoftReset, HostAccess.accepted, Bool.and_eq_true, beq_iff_eq] at h
  obtain ⟨⟨⟨⟨hsize, -⟩, hwe⟩, haddr⟩, hsrst⟩ := h
  have ha : a = writeAt 0x18 a.wdata := by
    obtain ⟨we, addr, size, wdata⟩ := a
    subst hsize hwe haddr
    rfl
  rw [ha, busAccess_writeAt .ctrl a.wdata s rfl rfl, writeReg, State.writeCtrl_of_srst hsrst]

end Sys2Proof.Machine
end

section
/-! PROOF. STATUS, field by field (10_state.md R49), and the packed words as a form of the matrix (20_memory.md R84,
R86). -/

namespace Sys2Proof.Machine

theorem statusWord_fields (s : State) :
    s.statusWord.getLsbD 0 = decide (s.engine = .busy) ∧ s.statusWord.getLsbD 1 = s.done ∧
      s.statusWord.getLsbD 2 = s.flag ∧ s.statusWord.getLsbD 3 = s.cmdovr ∧ s.statusWord.getLsbD 4 = s.haz ∧
      s.statusWord.getLsbD 5 = s.winerr ∧ s.statusWord.extractLsb' 6 2 = 0 ∧
      s.statusWord.extractLsb' 8 4 = s.err.code ∧ s.statusWord.extractLsb' 12 4 = 0 ∧
      s.statusWord.extractLsb' 16 8 = s.lastop ∧ s.statusWord.extractLsb' 24 40 = 0 := by
  refine ⟨?_, ?_, ?_, ?_, ?_, ?_, ?_⟩
  iterate 6
    · simp only [State.statusWord, BitVec.getLsbD_append]
      simp [State.busy]
  simp (disch := omega) only [State.statusWord, BitVec.extractLsb'_append_eq_of_le,
    BitVec.extractLsb'_append_eq_of_add_le, BitVec.extractLsb'_eq_self, Nat.reduceSub]
  trivial

/-- Column j stands at its place in word j div W (20_memory.md R84). -/
theorem getLsbD_packedWord_column (p : Params) (M : BitMatrix) (i : Nat) {j : Nat} (hj : j < M.cols) :
    (packedWord p M i (j / p.W)).getLsbD (ew p M.cols (j / p.W) - 1 - j % p.W) = M.get i j := by
  have hq : j / p.W < nwords p M.cols :=
    (lt_nwords_iff ..).mpr ((Nat.div_mul_le_self j p.W).trans_lt hj)
  have hsplit : j / p.W * p.W + j % p.W = j := Nat.div_add_mod' j p.W
  have hk : j % p.W < ew p M.cols (j / p.W) := by
    obtain ⟨k, hk, hjk⟩ := (div_W_eq_iff hq).mp ⟨hj, rfl⟩
    omega
  rw [getLsbD_packedWord, decide_eq_true (by omega), Bool.true_and]
  congr 1
  omega

/-- The packed words of all rows determine the matrix (20_memory.md R86). -/
theorem eq_of_packedWord_eq {p : Params} {M N : BitMatrix} (hshape : N.HasShape M.rows M.cols)
    (h : ∀ i q, i < M.rows → q < nwords p M.cols → packedWord p M i q = packedWord p N i q) : M = N := by
  obtain ⟨hrows, hcols⟩ := hshape
  refine BitMatrix.ext_get hrows.symm hcols.symm fun i j hi hj => ?_
  have hq : j / p.W < nwords p M.cols :=
    (lt_nwords_iff ..).mpr ((Nat.div_mul_le_self j p.W).trans_lt hj)
  rw [← getLsbD_packedWord_column p M i hj, ← getLsbD_packedWord_column p N i (hcols ▸ hj), h i _ hi hq, hcols]

end Sys2Proof.Machine
end

section
/-! PROOF. One edge at which a command runs (60_exceptions.md R335). -/

namespace Sys2Proof.Machine

/-- At an edge after whose access the engine is still BUSY the engine steps (log 18). -/
theorem clockEdge_busy {s : State} {access : Option HostAccess} (hb : s.engine = .busy)
    (hb' : (presentAccess access s).engine = .busy) :
    clockEdge ⟨true, access, true⟩ s = engineStep (presentAccess access s) := by
  simp [clockEdge, State.busy, hb, hb']

theorem step_access_busy {s : State} {a : HostAccess} {rest : List Edge} (hb : s.engine = .busy)
    (hin : s.inputs = ⟨true, some a, true⟩ :: rest)
    (hb' : (busAccess a { s with inputs := rest }).engine = .busy) :
    step s = engineStep (busAccess a { s with inputs := rest }) :=
  (step_of_inputs_cons hin).trans (clockEdge_busy hb hb')

theorem engineStep_command {s : State} {i : Instr} (hb : s.engine = .busy) (hd : decode s.cmd = .command i) :
    engineStep s = exec i s := by
  rw [engineStep, hb]
  simp only [hd]

/-- The engine's step at such an edge keeps the command and the host's bits, and completes with DONE. -/
theorem engineStep_frame {s t : State} (hb : s.engine = .busy) (h : engineStep s = .next t) :
    t.cmd = s.cmd ∧ t.cmdovr = s.cmdovr ∧ t.abortReq = s.abortReq ∧ (t.engine = .idle → t.done = true) := by
  have hmove := engineMove_engineStep hb
  rw [h] at hmove
  have hdone : t.engine = .idle → t.done = true := fun hidle => by
    rcases hmove.done_or_keeps with ⟨-, hdone⟩ | ⟨hengine, -⟩
    · exact hdone
    · rw [hengine, hb] at hidle; cases hidle
  have hwrote : t = _ := commandWrote_engineStep s t h
  exact ⟨by rw [hwrote], by rw [hwrote], by rw [hwrote], hdone⟩

/-- What an access writes at an edge survives the engine's step there, and a completion sets DONE after it
(60_exceptions.md R335). -/
theorem step_access_frame {s t u : State} {a : HostAccess} {rest : List Edge} (hb : s.engine = .busy)
    (hin : s.inputs = ⟨true, some a, true⟩ :: rest) (haccess : busAccess a { s with inputs := rest } = u)
    (hu : u.engine = .busy) (h : step s = .next t) :
    t.cmd = u.cmd ∧ t.cmdovr = u.cmdovr ∧ t.abortReq = u.abortReq ∧ (t.engine = .idle → t.done = true) := by
  rw [step_access_busy hb hin (haccess ▸ hu), haccess] at h
  exact engineStep_frame hu h

/-- A soft reset at an edge leaves the engine no step (log 18). -/
theorem step_softReset {s t : State} {a : HostAccess} {b : Bool} {rest : List Edge} (hsoft : a.isSoftReset = true)
    (hin : s.inputs = ⟨true, some a, b⟩ :: rest) (h : step s = .next t) :
    t = ({ s with inputs := rest }.resetEngine).respondFree true := by
  rw [step_of_inputs_cons hin] at h
  rcases clockEdge_run rfl h with rfl | ⟨-, hb, -⟩
  · exact busAccess_softReset _ hsoft
  · rw [presentAccess, busAccess_softReset _ hsoft] at hb
    cases hb

end Sys2Proof.Machine
end

section
/-! PROOF. The statements on every command and on the host's side: steps, frames, STATUS, packed words, and the events
of one edge. -/

namespace Sys2Proof.Machine

/-- Settles O6: a step is one edge, and a busy engine's step runs the decoded command. -/
theorem stepRunsTheDecodedCommand : Obligations.StepRunsTheDecodedCommand := by
  refine ⟨fun s i hin hb hd => ?_, fun s i rest hin hb hd => ?_, fun s i a rest hin hb hb' hd => ?_⟩
  · rw [step_quiet_busy hin hb, engineStep_command hb hd]
  · rw [step_of_inputs_cons hin, ← engineStep_command (s := { s with inputs := rest }) hb hd]
    exact clockEdge_busy (access := none) hb hb
  · have hcmd : (busAccess a { s with inputs := rest }).cmd = s.cmd := by
      rcases busAccess_engine_cases a { s with inputs := rest } with ⟨-, hidle⟩ | ⟨hidle, -⟩ | ⟨-, hcmd⟩
      · rw [hidle] at hb'; cases hb'
      · exact absurd (hb.symm.trans hidle) nofun
      · exact hcmd
    rw [step_access_busy hb hin hb', engineStep_command hb' (hcmd.symm ▸ hd)]

/-- Settles O44: a command writes only what `State.CommandWrote` lists. -/
theorem commandsKeepTheHostsRegisters : Obligations.CommandsKeepTheHostsRegisters := by
  intro i s t h
  have hwrote : t = _ := commandWrote_exec i s t h
  rw [hwrote]
  and_intros <;> rfl

/-- Settles O45: every move of the engine answers a next state, so every edge does. -/
theorem theMachineNeverStops : Obligations.TheMachineNeverStops := by
  intro s
  cases hin : s.inputs with
  | nil => rw [step_of_inputs_nil hin]; exact clockEdge_exists_next ..
  | cons e rest => rw [step_of_inputs_cons hin]; exact clockEdge_exists_next ..

/-- Settles O47: an access to a running engine writes only what `State.Undisturbed` lists. -/
theorem onlyAResetOrAnAbortDisturbsARunningCommand : Obligations.OnlyAResetOrAnAbortDisturbsARunningCommand := by
  intro a s hb hsoft t
  obtain ⟨(h : t = _), -⟩ := undisturbed_busAccess hb hsoft
  clear_value t
  rw [← HostAccess.requestsAbort_iff, h]
  refine ⟨rfl, rfl, rfl, hb, ?_⟩
  and_intros
  iterate 18 rfl
  exact Bool.or_eq_true_iff

/-- Settles O53: a packed word's bits are its columns and 0 above them. -/
theorem packedWordsHoldTheColumns : Obligations.PackedWordsHoldTheColumns := by
  refine ⟨fun p M i j _ hj => getLsbD_packedWord_column p M i hj, fun p M i q b hb => ?_,
    fun p M N => eq_of_packedWord_eq⟩
  rw [getLsbD_packedWord, decide_eq_false (Nat.not_lt.mpr hb), Bool.false_and]

/-- Settles O54: STATUS is the concatenation of its fields, and a write of it clears the four W1C bits. -/
theorem statusFieldsAndClears : Obligations.StatusFieldsAndClears := by
  refine ⟨by decide, fun s => ⟨⟨busAccess_readAt .status s rfl rfl, statusWord_fields s⟩, ?_, fun v => ?_⟩⟩
  · obtain ⟨-, hdone, -⟩ := statusWord_fields s
    rw [hdone, State.ctrlWord_eq, State.irq]
    cases s.ie <;> rfl
  · have hclear (b c : Bool) : (b && !c) = if c then false else b := by cases b <;> cases c <;> rfl
    rw [busAccess_writeAt .status v s rfl rfl, writeReg, State.clearStatus]
    simp only [hclear]

/-- Settles O57: a reset leaves the engine no step; any other access comes before the engine's step, whose frame
keeps what the access wrote and whose completion sets DONE last. -/
theorem eventsAtOneEdgeAreOrdered : Obligations.EventsAtOneEdgeAreOrdered := by
  intro s t rest hb
  refine ⟨fun a b hin h => ?_, fun a b hsoft hin h => ?_, fun x hin h => ?_, fun v hin h => ?_,
    fun v hsrst habort hin h => ?_⟩
  · rw [step_reset hin] at h
    cases h
    have hslot := slot_afterReset s.params
    cases a with
    | none => exact ⟨rfl, rfl, rfl, hslot, rfl, fun h => absurd rfl h⟩
    | some a => exact ⟨rfl, rfl, rfl, hslot, rfl, fun _ => ⟨_, rfl⟩⟩
  · obtain rfl := step_softReset hsoft hin h
    exact ⟨rfl, rfl, rfl, slot_afterReset s.params⟩
  · obtain ⟨-, hdropped, -⟩ := cmdWriteIsAcceptedOrDropped x { s with inputs := rest }
    obtain ⟨hcmd, hovr, -, hdone⟩ := step_access_frame hb hin (hdropped hb) hb h
    exact ⟨hcmd, hovr, hdone⟩
  · have hclear := busAccess_writeAt (o := 0x20) .status v { s with inputs := rest } rfl rfl
    obtain ⟨-, -, -, hdone⟩ := step_access_frame hb hin hclear hb h
    exact hdone
  · obtain ⟨-, -, hrequested, -⟩ := ctrlWritesAct v { s with inputs := rest }
    obtain ⟨-, -, hreq, -⟩ := step_access_frame hb hin (hrequested hsrst habort hb) hb h
    exact hreq

end Sys2Proof.Machine
end

section
/-! PROOF. Bit matrices as matrices over ZMod 2 (00_scope.md R12, R14): products, sums and the identity agree, so that
the algebra of Mathlib applies to them. -/

namespace Sys2Proof.Machine

/-- A bit as an element of the field of two elements (00_scope.md R12). -/
def bit (b : Bool) : ZMod 2 := if b then 1 else 0

@[simp] theorem bit_true : bit true = 1 := rfl
@[simp] theorem bit_false : bit false = 0 := rfl
theorem bit_xor (a b : Bool) : bit (Bool.xor a b) = bit a + bit b := by revert a b; decide
theorem bit_and (a b : Bool) : bit (a && b) = bit a * bit b := by revert a b; decide
theorem bit_injective : Function.Injective bit := fun a b => by revert a b; decide

theorem bit_xorSum (n : Nat) (f : Nat → Bool) : bit (xorSum n f) = ∑ k : Fin n, bit (f k) := by
  induction n with
  | zero => rfl
  | succ n ih => rw [xorSum, bit_xor, ih, Fin.sum_univ_castSucc]; rfl

/-- The r by c upper left part of M over ZMod 2: all of M when M has that shape. -/
def BitMatrix.toMatrix (M : BitMatrix) (r c : Nat) : Matrix (Fin r) (Fin c) (ZMod 2) :=
  Matrix.of fun i j => bit (M.get i j)

@[simp] theorem BitMatrix.toMatrix_apply (M : BitMatrix) (r c : Nat) (i : Fin r) (j : Fin c) :
    M.toMatrix r c i j = bit (M.get i j) := rfl

/-- A matrix is determined by its entries over ZMod 2. -/
theorem BitMatrix.toMatrix_inj {M N : BitMatrix} {r c : Nat} (hM : M.HasShape r c) (hN : N.HasShape r c) :
    M.toMatrix r c = N.toMatrix r c ↔ M = N := by
  obtain ⟨rfl, rfl⟩ := hM
  obtain ⟨hr, hc⟩ := hN
  refine ⟨fun h => BitMatrix.ext_get hr.symm hc.symm fun i j hi hj => bit_injective ?_, fun h => by rw [h]⟩
  exact congrFun (congrFun h ⟨i, hi⟩) ⟨j, hj⟩

/-- MUL is the matrix product (41_matrix_algebra.md R212). -/
theorem BitMatrix.toMatrix_mul {A B : BitMatrix} {r n c : Nat} (hA : A.HasShape r n) (hB : B.HasShape n c) :
    (A.mul B).toMatrix r c = A.toMatrix r n * B.toMatrix n c := by
  obtain ⟨rfl, rfl⟩ := hA
  obtain ⟨-, rfl⟩ := hB
  ext i j
  simp [BitMatrix.mul, Matrix.mul_apply, bit_xorSum, bit_and]

/-- ADD is the matrix sum (41_matrix_algebra.md R210). -/
theorem BitMatrix.toMatrix_add {A B : BitMatrix} {r c : Nat} (hA : A.HasShape r c) (hB : B.HasShape r c) :
    (A.add B).toMatrix r c = A.toMatrix r c + B.toMatrix r c := by
  obtain ⟨rfl, rfl⟩ := hA
  obtain ⟨hr, hc⟩ := hB
  ext i j
  simp [BitMatrix.get_add hr.symm hc.symm, bit_xor]

@[simp] theorem BitMatrix.toMatrix_identity (n : Nat) : (BitMatrix.identity n).toMatrix n n = 1 := by
  ext i j
  rw [toMatrix_apply, get_identity i.isLt j.isLt, Matrix.one_apply]
  simp [bit, Fin.ext_iff]

@[simp] theorem BitMatrix.toMatrix_zero (r c : Nat) : (BitMatrix.zero r c).toMatrix r c = 0 := by
  ext i j
  simp

end Sys2Proof.Machine
end

section
/-! PROOF. Laws of the model's matrix operations that commands rely on, over ZMod 2. -/

namespace Sys2Proof.Machine

theorem BitMatrix.HasShape.mul {A B : BitMatrix} {r n c : Nat} (hA : A.HasShape r n) (hB : B.HasShape n c) :
    (A.mul B).HasShape r c :=
  ⟨(A.rows_mul B).trans hA.1, hB.2⟩

theorem BitMatrix.HasShape.add {A B : BitMatrix} {r c : Nat} (hA : A.HasShape r c) : (A.add B).HasShape r c :=
  ⟨(A.rows_add B).trans hA.1, hA.2⟩

theorem BitMatrix.hasShape_identity (n : Nat) : (BitMatrix.identity n).HasShape n n := ⟨rows_identity n, rfl⟩

theorem BitMatrix.hasShape_zero (r c : Nat) : (BitMatrix.zero r c).HasShape r c := ⟨rows_zero r c, rfl⟩

theorem BitMatrix.mul_assoc {A B C : BitMatrix} {r m n c : Nat} (hA : A.HasShape r m) (hB : B.HasShape m n)
    (hC : C.HasShape n c) : (A.mul B).mul C = A.mul (B.mul C) := by
  rw [← toMatrix_inj ((hA.mul hB).mul hC) (hA.mul (hB.mul hC)), toMatrix_mul (hA.mul hB) hC, toMatrix_mul hA hB,
    toMatrix_mul hA (hB.mul hC), toMatrix_mul hB hC, Matrix.mul_assoc]

theorem BitMatrix.identity_mul {A : BitMatrix} {r c : Nat} (hA : A.HasShape r c) : (identity r).mul A = A := by
  rw [← toMatrix_inj ((hasShape_identity r).mul hA) hA, toMatrix_mul (hasShape_identity r) hA, toMatrix_identity,
    Matrix.one_mul]

theorem BitMatrix.mul_add {A B C : BitMatrix} {r n c : Nat} (hA : A.HasShape r n) (hB : B.HasShape n c)
    (hC : C.HasShape n c) : A.mul (B.add C) = (A.mul B).add (A.mul C) := by
  rw [← toMatrix_inj (hA.mul hB.add) (hA.mul hB).add, toMatrix_mul hA hB.add, toMatrix_add hB hC,
    toMatrix_add (hA.mul hB) (hA.mul hC), toMatrix_mul hA hB, toMatrix_mul hA hC, Matrix.mul_add]

/-- A one-sided inverse of a square matrix is two-sided. -/
theorem BitMatrix.mul_eq_identity_comm {A B : BitMatrix} {n : Nat} (hA : A.HasShape n n) (hB : B.HasShape n n) :
    A.mul B = identity n ↔ B.mul A = identity n := by
  rw [← toMatrix_inj (hA.mul hB) (hasShape_identity n), ← toMatrix_inj (hB.mul hA) (hasShape_identity n),
    toMatrix_mul hA hB, toMatrix_mul hB hA, toMatrix_identity, mul_eq_one_comm]

theorem BitMatrix.hasShape_transpose (M : BitMatrix) : M.transpose.HasShape M.cols M.rows := ⟨rows_transpose M, rfl⟩

theorem BitMatrix.transpose_transpose (M : BitMatrix) : M.transpose.transpose = M := by
  refine ext_get (by simp) (by simp) fun i j hi hj => ?_
  simp only [rows_transpose, cols_transpose] at hi hj
  rw [get_transpose hi (by simpa using hj), get_transpose hj hi]

end Sys2Proof.Machine
end

section
/-! PROOF. A running command in a quiet environment, step by step (60_exceptions.md R321; log 2, log 3). -/

namespace Sys2Proof.Machine

/-- s runs command i with loop state sc, and no edge waits. -/
structure Running (i : Instr) (sc : Scratch) (s : State) : Prop where
  quiet : s.inputs = []
  busy : s.engine = .busy
  command : decode s.cmd = .command i
  scratch : s.scratch = sc

theorem Running.step_eq {i : Instr} {sc : Scratch} {s : State} (h : Running i sc s) : step s = exec i s := by
  rw [step_quiet_busy h.quiet h.busy, engineStep, h.busy]
  simp only [h.command]

/-- A command that goes on runs with its next loop state, whatever it drew. -/
theorem Running.goesOn {i : Instr} {sc sc' : Scratch} {s : State} (h : Running i sc s) (g : GenState)
    (l : List Nat) : Running i sc' { s with scratch := sc', prng := g, drawInputs := l } :=
  ⟨h.quiet, h.busy, h.command, rfl⟩

theorem runSteps_succ {s t : State} (n : Nat) (h : step s = .next t) : runSteps (n + 1) s = runSteps n t := by
  have hcore : Sys2Proof.core.step s = .next t := h
  show Sys2Proof.core.run (n + 1) s = Sys2Proof.core.run n t
  simp only [Host.Core.run, hcore]

theorem runSteps_one {s t : State} (h : step s = .next t) : runSteps 1 s = .next t := runSteps_succ 0 h

/-- Within n steps s reaches a state of P. -/
def ReachesWithin (n : Nat) (P : State → Prop) (s : State) : Prop := ∃ m t, m ≤ n ∧ runSteps m s = .next t ∧ P t

theorem reachesWithin_one {P : State → Prop} {s t : State} (h : step s = .next t) (ht : P t) (n : Nat) :
    ReachesWithin (n + 1) P s := ⟨1, t, by omega, runSteps_one h, ht⟩

theorem ReachesWithin.after_step {n : Nat} {P : State → Prop} {s t : State} (ht : ReachesWithin n P t)
    (h : step s = .next t) : ReachesWithin (n + 1) P s := by
  obtain ⟨m, u, hm, hrun, hu⟩ := ht
  exact ⟨m + 1, u, by omega, (runSteps_succ m h).trans hrun, hu⟩

/-- Going on with the loop state s has already changes nothing. -/
theorem goOn_of_scratch_eq {sc : Scratch} {s : State} (h : s.scratch = sc) : goOn sc s = .next s := by
  subst h; rfl

end Sys2Proof.Machine
end

section
/-! PROOF. TRANS twice (41_matrix_algebra.md section 2). -/

namespace Sys2Proof.Machine

/-- A TRANS that ends without error has written the transpose. -/
theorem exec_trans_completed {a b : SlotId} {s t : State} {M : BitMatrix} (hM : s.slot a = some M)
    (h : exec (.trans b a) s = .next t) (herr : t.err = .none) : t.slot b = some M.transpose := by
  rw [exec_trans, withSlot_some hM] at h
  rcases check_next h with ⟨-, rfl⟩ | ⟨-, hdone⟩
  · cases herr
  · cases hdone
    exact slot_setSlot_self ..

/-- Settles O21: the second TRANS reads what the first wrote, and transposing twice gives the matrix back. -/
theorem transTwiceIsTheIdentity : Obligations.TransTwiceIsTheIdentity := by
  intro a b c s t u M hM ht hterr hu huerr
  rw [exec_trans_completed (exec_trans_completed hM ht hterr) hu huerr, BitMatrix.transpose_transpose]

end Sys2Proof.Machine
end

section
/-! PROOF. TGTWT's loop (40_matrix_basic.md R156): one draw adds one 1 at a zero cell, or is rejected. -/

namespace Sys2Proof.Machine

/-- A cell number names a row and a column (40_matrix_basic.md R156). -/
theorem cell_in_range {r c x : Nat} (h : x < r * c) : x / c < r ∧ x % c < c := by
  have hc : 0 < c := Nat.pos_of_mul_pos_left (Nat.zero_lt_of_lt h)
  exact ⟨Nat.div_lt_of_lt_mul (Nat.mul_comm r c ▸ h), Nat.mod_lt x hc⟩

/-- The ones of a matrix, as cells. -/
def BitMatrix.ones (M : BitMatrix) : Finset (Nat × Nat) :=
  (Finset.range M.rows ×ˢ Finset.range M.cols).filter fun p => M.get p.1 p.2 = true

theorem BitMatrix.mem_ones {M : BitMatrix} {i j : Nat} : (i, j) ∈ M.ones ↔ M.get i j = true := by
  rw [ones, Finset.mem_filter, Finset.mem_product, Finset.mem_range, Finset.mem_range, and_iff_right_iff_imp]
  intro hone
  constructor <;> refine Nat.lt_of_not_le fun hle => ?_
  · rw [get_eq_false_of_rows_le hle] at hone; cases hone
  · rw [get_eq_false_of_cols_le hle] at hone; cases hone

theorem BitMatrix.hw_eq_card_ones (M : BitMatrix) : M.hw = M.ones.card := M.hw_eq_card

section
variable {M : BitMatrix} {a c : Nat}

/-- Setting a bit adds its cell to the ones. -/
theorem BitMatrix.get_setBit_true (ha : a < M.rows) (hc : c < M.cols) (i j : Nat) :
    (M.setBit a c true).get i j = (M.get i j || (decide (i = a) && decide (j = c))) := by
  rw [get_setBit M a c true i j ha hc]
  by_cases h : i = a ∧ j = c
  · simp [h]
  · rw [if_neg h, ← Bool.decide_and, decide_eq_false h, Bool.or_false]

theorem BitMatrix.ones_setBit_true (ha : a < M.rows) (hc : c < M.cols) :
    (M.setBit a c true).ones = insert (a, c) M.ones := by
  ext ⟨i, j⟩
  rw [Finset.mem_insert, mem_ones, mem_ones, get_setBit_true ha hc, Bool.or_eq_true, Bool.and_eq_true,
    decide_eq_true_eq, decide_eq_true_eq, Prod.mk.injEq, or_comm]

theorem BitMatrix.hw_setBit_true (ha : a < M.rows) (hc : c < M.cols) (h : M.get a c = false) :
    (M.setBit a c true).hw = M.hw + 1 := by
  rw [hw_eq_card_ones, hw_eq_card_ones, ones_setBit_true ha hc, Finset.card_insert_of_notMem]
  rw [mem_ones, h]
  nofun

end

section
variable {md : SlotId} {w : Nat} {s : State} {M : BitMatrix}

theorem exec_tgtwt_start (h : s.scratch = .none) :
    exec (.tgtwt md w) s = withSlot .md md s fun M =>
      check (w < M.rows * M.cols) .invalidWeight 0 s <|
      check (M.hw ≤ w) .invalidWeight 1 s <|
      goOn (.tgtwt M w) s := by
  show execTgtwt md w s = _
  rw [execTgtwt, h]

theorem exec_tgtwt_loop (h : s.scratch = .tgtwt M w) : exec (.tgtwt md w) s = tgtwtPass md M w s := by
  show execTgtwt md w s = _
  rw [execTgtwt, h]

theorem tgtwtPass_reached (h : w ≤ M.hw) : tgtwtPass md M w s = .next (s.withSlotSet md M).completed := by
  rw [tgtwtPass, if_neg (Nat.not_lt.mpr h), completeWith_eq_completed]

/-- The matrix after a draw of cell x: its cell is 1 (40_matrix_basic.md R156). -/
def addCell (M : BitMatrix) (x : Nat) : BitMatrix :=
  if M.get (x / M.cols) (x % M.cols) then M else M.setBit (x / M.cols) (x % M.cols) true

theorem tgtwtPass_draw {x : Nat} {s' : State} (hd : draw (M.rows * M.cols) s = (x, s')) (h : M.hw < w) :
    tgtwtPass md M w s = goOn (.tgtwt (addCell M x) w) s' := by
  simp only [tgtwtPass, if_pos h, hd, addCell]

theorem addCell_of_one {x : Nat} (h : M.get (x / M.cols) (x % M.cols) = true) : addCell M x = M := if_pos h

theorem addCell_of_zero {x : Nat} (h : M.get (x / M.cols) (x % M.cols) = false) :
    addCell M x = M.setBit (x / M.cols) (x % M.cols) true := if_neg (Bool.eq_false_iff.mp h)

/-- TGTWT has ended with a matrix of M's shape and weight w that keeps M's ones. -/
def TgtwtEnded (md : SlotId) (w : Nat) (M : BitMatrix) (t : State) : Prop :=
  t.engine = .idle ∧ t.err = .none ∧ ∃ R : BitMatrix, t.slot md = some R ∧ R.HasShape M.rows M.cols ∧ R.hw = w ∧
    ∀ i j, M.get i j = true → R.get i j = true

/-- The supplied draws that name a zero cell of M. -/
def zeroDraws (M : BitMatrix) (ds : List Nat) : Finset Nat :=
  ds.toFinset.filter fun x => M.get (x / M.cols) (x % M.cols) = false

/-- A draw of a cell that holds a 1 names no zero cell. -/
theorem zeroDraws_cons_of_one {x : Nat} (ds : List Nat) (h : M.get (x / M.cols) (x % M.cols) = true) :
    zeroDraws M (x :: ds) = zeroDraws M ds := by
  rw [zeroDraws, List.toFinset_cons, Finset.filter_insert, if_neg (by simp [h]), zeroDraws]

/-- A draw that is accepted uses up one zero cell and no other. -/
theorem card_zeroDraws_cons_le {x : Nat} (ds : List Nat) (hx : x < M.rows * M.cols) :
    (zeroDraws M (x :: ds)).card ≤ (zeroDraws (M.setBit (x / M.cols) (x % M.cols) true) ds).card + 1 := by
  obtain ⟨hrow, hcol⟩ := cell_in_range hx
  have hsub : zeroDraws M (x :: ds) ⊆ insert x (zeroDraws (M.setBit (x / M.cols) (x % M.cols) true) ds) := by
    intro y hy
    rw [zeroDraws, Finset.mem_filter, List.mem_toFinset, List.mem_cons] at hy
    obtain ⟨hmem, hzero⟩ := hy
    rw [Finset.mem_insert, zeroDraws, Finset.mem_filter, List.mem_toFinset]
    rcases eq_or_ne y x with rfl | hne
    · exact .inl rfl
    refine .inr ⟨hmem.resolve_left hne, ?_⟩
    have hcell : ¬ (y / M.cols = x / M.cols ∧ y % M.cols = x % M.cols) := fun ⟨hdiv, hmod⟩ => hne (by
      rw [← Nat.div_add_mod y M.cols, hdiv, hmod, Nat.div_add_mod])
    rw [BitMatrix.cols_setBit, BitMatrix.get_setBit _ _ _ _ _ _ hrow hcol, if_neg hcell, hzero]
  exact (Finset.card_le_card hsub).trans (Finset.card_insert_le ..)

/-- With its weight reached TGTWT completes with the matrix it has. -/
theorem tgtwt_reached_ends (h : Running (.tgtwt md w) (.tgtwt M w) s) (hw : M.hw = w) (n : Nat) :
    ReachesWithin (n + 1) (TgtwtEnded md w M) s := by
  have hstep : step s = .next (s.withSlotSet md M).completed := by
    rw [h.step_eq, exec_tgtwt_loop h.scratch, tgtwtPass_reached hw.ge]
  exact reachesWithin_one hstep ⟨rfl, rfl, M, slot_withSlotSet_self .., ⟨rfl, rfl⟩, hw, fun _ _ hone => hone⟩ n

/-- An accepted draw keeps the shape and every 1, so an end from there is an end from here. -/
theorem TgtwtEnded.of_addCell {x : Nat} {t : State} (hx : x < M.rows * M.cols)
    (h : TgtwtEnded md w (M.setBit (x / M.cols) (x % M.cols) true) t) : TgtwtEnded md w M t := by
  obtain ⟨hrow, hcol⟩ := cell_in_range hx
  obtain ⟨hidle, herr, R, hslot, ⟨hr, hc⟩, hweight, hkeeps⟩ := h
  refine ⟨hidle, herr, R, hslot, ⟨hr.trans (M.rows_setBit ..), hc⟩, hweight, fun i j hone => hkeeps i j ?_⟩
  rw [BitMatrix.get_setBit_true hrow hcol, hone, Bool.true_or]

/-- TGTWT's loop ends as soon as its supplied draws have named enough zero cells. -/
theorem tgtwt_loop_ends (ds : List Nat) {s : State} {M : BitMatrix} (h : Running (.tgtwt md w) (.tgtwt M w) s)
    (hds : s.drawInputs = ds) (hrange : ∀ x ∈ ds, x < M.rows * M.cols) (hle : M.hw ≤ w)
    (henough : w ≤ M.hw + (zeroDraws M ds).card) :
    ReachesWithin (ds.length + 1) (TgtwtEnded md w M) s := by
  induction ds generalizing s M with
  | nil => exact tgtwt_reached_ends h (le_antisymm hle henough) _
  | cons x ds ih =>
    rcases hle.eq_or_lt with hw | hlt
    · exact tgtwt_reached_ends h hw _
    obtain ⟨hx, hrest⟩ := List.forall_mem_cons.mp hrange
    have hdraw := draw_supplied (M.rows * M.cols) hds
    rw [Nat.mod_eq_of_lt hx] at hdraw
    have hstep := h.step_eq
    rw [exec_tgtwt_loop h.scratch, tgtwtPass_draw hdraw hlt] at hstep
    refine ReachesWithin.after_step ?_ hstep
    have hnext := h.goesOn (sc' := .tgtwt (addCell M x) w) s.prng ds
    cases hcell : M.get (x / M.cols) (x % M.cols) with
    | true =>
      rw [addCell_of_one hcell] at hnext ⊢
      rw [zeroDraws_cons_of_one ds hcell] at henough
      exact ih hnext rfl hrest hle henough
    | false =>
      obtain ⟨hrow, hcol⟩ := cell_in_range hx
      have hcard := card_zeroDraws_cons_le ds hx
      have hhw := BitMatrix.hw_setBit_true hrow hcol hcell
      rw [addCell_of_zero hcell] at hnext ⊢
      obtain ⟨m, t, hm, hrun, hended⟩ := ih hnext rfl (by simpa using hrest) (by omega) (by omega)
      exact ⟨m, t, hm, hrun, hended.of_addCell hx⟩

end

/-- Settles O12: TGTWT's checks in order, and one pass of its loop: a draw of a 1 is rejected, a draw of a 0 sets
that cell. -/
theorem tgtwtAddsOnesAtDrawnZeroCells : Obligations.TgtwtAddsOnesAtDrawnZeroCells := by
  refine fun md w => ⟨fun hw => ?_, fun s => ⟨fun hsc hs => ?_, fun M hsc hs => ?_, fun M hsc => ?_⟩⟩
  · have hlow : BitVec.ofNat 20 w = BitVec.ofNat 20 (w % 2 ^ 20) := BitVec.eq_of_toNat_eq (by simp)
    exact decode_commandWord (.tgtwt md w) (decide_eq_true hw) (by decide) (by omega) (by omega) (by omega)
      (by rw [← hlow]; rfl)
  · rw [exec_tgtwt_start hsc, withSlot_none hs]; rfl
  · rw [exec_tgtwt_start hsc, withSlot_some hs]
    exact ⟨fun h => check_neg (Nat.not_lt.mpr h),
      fun h h' => (check_pos h).trans (check_neg (Nat.not_le.mpr h')),
      fun h h' => (check_pos h).trans (check_pos h')⟩
  · rw [exec_tgtwt_loop hsc]
    refine ⟨tgtwtPass_reached, fun x s' hd hlt => ?_⟩
    rw [tgtwtPass_draw hd hlt]
    refine ⟨fun hone => ?_, fun hzero hx => ?_⟩
    · have hsc' : s'.scratch = .tgtwt M w := by
        rw [← hsc, ← draw_scratch (M.rows * M.cols) s, hd]
      rw [addCell_of_one hone, goOn_of_scratch_eq hsc']
    · obtain ⟨hrow, hcol⟩ := cell_in_range hx
      rw [addCell_of_zero hzero]
      exact ⟨_, ⟨M.rows_setBit .., rfl⟩, BitMatrix.get_setBit_true hrow hcol, rfl⟩

/-- Settles O13: after the step that checks, the loop uses up its draws one by one. -/
theorem tgtwtReachesTheExactWeight : Obligations.TgtwtReachesTheExactWeight := by
  intro s md w M hin hb hd hsc hs hw hle hrange henough
  have hrun : Running (.tgtwt md w) .none s := ⟨hin, hb, hd, hsc⟩
  have hstep : step s = .next (s.setScratch (.tgtwt M w)) := by
    rw [hrun.step_eq, exec_tgtwt_start hsc, withSlot_some hs, check_pos hw, check_pos hle, goOn_eq]
  have hloop := tgtwt_loop_ends (md := md) (w := w) s.drawInputs (hrun.goesOn s.prng s.drawInputs) rfl hrange hle
    henough
  obtain ⟨n, t, hn, hsteps, hidle, herr, R, hslot, hshape, hweight, hkeeps⟩ := hloop.after_step hstep
  exact ⟨n, t, R, hn, hsteps, hidle, herr, hslot, hshape, hweight, hkeeps⟩

end Sys2Proof.Machine
end

section
/-! PROOF. SAMPLE's loop (41_matrix_algebra.md R200): one draw accepts a column not yet taken, or is rejected. -/

namespace Sys2Proof.Machine

/-- The accepted columns after a draw of x (41_matrix_algebra.md R200). -/
def acceptColumn (idx : List Nat) (x : Nat) : List Nat := if idx.contains x then idx else idx ++ [x]

theorem acceptColumn_of_mem {idx : List Nat} {x : Nat} (h : x ∈ idx) : acceptColumn idx x = idx :=
  if_pos (List.contains_iff_mem.mpr h)

theorem acceptColumn_of_not_mem {idx : List Nat} {x : Nat} (h : x ∉ idx) : acceptColumn idx x = idx ++ [x] :=
  if_neg fun hc => h (List.contains_iff_mem.mp hc)

/-- The columns accepted from idx on through the draws ds. -/
def acceptColumns (idx ds : List Nat) : List Nat := ds.foldl acceptColumn idx

theorem firstDistinct_eq (ds : List Nat) : firstDistinct ds = acceptColumns [] ds := rfl

/-- Accepted columns stay, in their order. -/
theorem take_acceptColumns (ds idx : List Nat) : (acceptColumns idx ds).take idx.length = idx := by
  induction ds generalizing idx with
  | nil => exact List.take_length
  | cons x ds ih =>
    have hnext : (acceptColumn idx x).take idx.length = idx := by
      by_cases h : x ∈ idx
      · rw [acceptColumn_of_mem h, List.take_length]
      · rw [acceptColumn_of_not_mem h, List.take_left]
    have hle : idx.length ≤ (acceptColumn idx x).length := by
      have := congrArg List.length hnext
      rw [List.length_take] at this
      omega
    calc (acceptColumns (acceptColumn idx x) ds).take idx.length
        = ((acceptColumns (acceptColumn idx x) ds).take (acceptColumn idx x).length).take idx.length := by
          rw [List.take_take, min_eq_left hle]
      _ = idx := by rw [ih, hnext]

theorem drawColumn_eq {c x : Nat} {idx : List Nat} {s s' : State} (hd : draw c s = (x, s')) :
    drawColumn c idx s = (acceptColumn idx x, s') := by
  simp only [drawColumn, hd, acceptColumn]

section
variable {md ms1 : SlotId} {k : Nat} {s : State} {M : BitMatrix} {idx : List Nat}

theorem exec_sample_start (h : s.scratch = .none) :
    exec (.sample md ms1 k) s = withSlot .ms1 ms1 s fun M =>
      check (k ≤ M.cols) .shapeMismatch 0 s (goOn (.sample M k []) s) := by
  show execSample md ms1 k s = _
  rw [execSample, h]

theorem exec_sample_loop (h : s.scratch = .sample M k idx) :
    exec (.sample md ms1 k) s = samplePass md M k idx s := by
  show execSample md ms1 k s = _
  rw [execSample, h]

theorem samplePass_full (h : k ≤ idx.length) :
    samplePass md M k idx s = .next
      { s.withSlotSet md (M.selectCols idx) with xidx := some (idx.map (BitVec.ofNat 20)) }.completed := by
  rw [samplePass, if_neg (Nat.not_lt.mpr h), completeWith_eq_completed]
  rfl

theorem samplePass_draw {x : Nat} {s' : State} (hd : draw M.cols s = (x, s')) (h : idx.length < k) :
    samplePass md M k idx s = goOn (.sample M k (acceptColumn idx x)) s' := by
  simp only [samplePass, if_pos h, drawColumn_eq hd]

theorem BitMatrix.get_selectCols {i a : Nat} (hi : i < M.rows) (ha : a < idx.length) :
    (M.selectCols idx).get i a = M.get i (idx.getD a 0) := by
  simp [BitMatrix.selectCols, hi, ha]

/-- SAMPLE has ended with the columns idx. -/
def SampleEnded (md : SlotId) (M : BitMatrix) (idx : List Nat) (t : State) : Prop :=
  t.engine = .idle ∧ t.err = .none ∧ t.xidx = some (idx.map (BitVec.ofNat 20)) ∧
    t.slot md = some (M.selectCols idx)

/-- With its columns accepted SAMPLE completes with them. -/
theorem sample_full_ends (h : Running (.sample md ms1 k) (.sample M k idx) s) (hk : idx.length = k) (n : Nat) :
    ReachesWithin (n + 1) (SampleEnded md M idx) s := by
  have hstep := h.step_eq
  rw [exec_sample_loop h.scratch, samplePass_full hk.ge] at hstep
  exact reachesWithin_one hstep ⟨rfl, rfl, rfl, slot_withSlotSet_self ..⟩ n

theorem length_acceptColumn_le (idx : List Nat) (x : Nat) : (acceptColumn idx x).length ≤ idx.length + 1 := by
  by_cases h : x ∈ idx
  · rw [acceptColumn_of_mem h]; exact Nat.le_succ _
  · rw [acceptColumn_of_not_mem h, List.length_append]; exact le_rfl

/-- SAMPLE's loop ends as soon as its supplied draws have named enough columns. -/
theorem sample_loop_ends (ds : List Nat) {s : State} {idx : List Nat}
    (h : Running (.sample md ms1 k) (.sample M k idx) s) (hds : s.drawInputs = ds) (hrange : ∀ x ∈ ds, x < M.cols)
    (hle : idx.length ≤ k) (henough : k ≤ (acceptColumns idx ds).length) :
    ReachesWithin (ds.length + 1) (SampleEnded md M ((acceptColumns idx ds).take k)) s := by
  induction ds generalizing s idx with
  | nil =>
    have hk : idx.length = k := le_antisymm hle henough
    rw [← hk, take_acceptColumns]
    exact sample_full_ends h hk _
  | cons x ds ih =>
    rcases hle.eq_or_lt with hk | hlt
    · rw [← hk, take_acceptColumns]
      exact sample_full_ends h hk _
    obtain ⟨hx, hrest⟩ := List.forall_mem_cons.mp hrange
    have hdraw := draw_supplied M.cols hds
    rw [Nat.mod_eq_of_lt hx] at hdraw
    have hstep := h.step_eq
    rw [exec_sample_loop h.scratch, samplePass_draw hdraw hlt] at hstep
    have hlen := length_acceptColumn_le idx x
    exact (ih (h.goesOn s.prng ds) rfl hrest (by omega) henough).after_step hstep

end

/-- Settles O18: SAMPLE's checks in order, one pass of its loop, and its end. -/
theorem sampleAcceptsDistinctColumns : Obligations.SampleAcceptsDistinctColumns := by
  refine fun md ms1 k => ⟨fun hk => ?_, fun s => ⟨fun hsc hs => ?_, fun M hsc hs => ?_, fun M idx hsc => ?_⟩⟩
  · exact decode_commandWord (.sample md ms1 k) (decide_eq_true hk) (by decide) (by omega) hk (by decide) rfl
  · rw [exec_sample_start hsc, withSlot_none hs]; rfl
  · rw [exec_sample_start hsc, withSlot_some hs]
    exact ⟨fun h => check_neg (Nat.not_le.mpr h), check_pos⟩
  · rw [exec_sample_loop hsc]
    refine ⟨fun x s' hd hlt => ?_, fun hfull => ?_⟩
    · rw [samplePass_draw hd hlt]
      refine ⟨fun hmem => ?_, fun hnew => ?_⟩
      · have hsc' : s'.scratch = .sample M k idx := by rw [← hsc, ← draw_scratch M.cols s, hd]
        rw [acceptColumn_of_mem hmem, goOn_of_scratch_eq hsc']
      · rw [acceptColumn_of_not_mem hnew]; rfl
    · refine ⟨M.selectCols idx, ⟨M.rows_selectCols idx, rfl⟩, fun i a hi ha => ?_, samplePass_full hfull⟩
      rw [BitMatrix.get_selectCols hi ha, List.getD_eq_getElem idx 0 ha]

/-- Settles O19: after the step that checks, the loop uses up its draws one by one. -/
theorem sampleRunsOnSuppliedDraws : Obligations.SampleRunsOnSuppliedDraws := by
  intro s md ms1 k M hin hb hd hsc hs hk hrange henough
  have hrun : Running (.sample md ms1 k) .none s := ⟨hin, hb, hd, hsc⟩
  have hstep : step s = .next (s.setScratch (.sample M k [])) := by
    rw [hrun.step_eq, exec_sample_start hsc, withSlot_some hs, check_pos hk, goOn_eq]
  rw [firstDistinct_eq] at henough ⊢
  have hloop := sample_loop_ends (ms1 := ms1) (md := md) (idx := []) s.drawInputs
    (hrun.goesOn s.prng s.drawInputs) rfl hrange (Nat.zero_le k) henough
  obtain ⟨n, t, hn, hsteps, hidle, herr, hxidx, hslot⟩ := hloop.after_step hstep
  have hlen : ((acceptColumns [] s.drawInputs).take k).length = k := by rw [List.length_take, min_eq_left henough]
  refine ⟨n, t, _, hn, hsteps, hidle, herr, hxidx, hslot, ⟨M.rows_selectCols _, hlen⟩, fun i a hi ha => ?_⟩
  rw [BitMatrix.get_selectCols hi (hlen.symm ▸ ha), List.getD_eq_getElem?_getD, List.getElem?_take_of_lt ha,
    List.getD_eq_getElem?_getD]

end Sys2Proof.Machine
end

section
/-! PROOF. The row operations of INV's elimination (41_matrix_algebra.md R220): what they make of each row, and that
they keep every property of all rows that sums of rows inherit. -/

namespace Sys2Proof.Machine

section
variable {m n : Nat}

/-- The sum of two rows of the pair (X, I). -/
def rowSum (x y : BitVec m × BitVec n) : BitVec m × BitVec n := (x.1 ^^^ y.1, x.2 ^^^ y.2)

theorem rowSum_cancel (x y : BitVec m × BitVec n) : rowSum (rowSum x y) y = x := by
  simp [rowSum]

/-- Bit j of row r of the working copy X. -/
def augBit (R : Aug m n) (r j : Nat) : Bool := (augRow R r).1.getMsbD j

theorem augRow_of_length_le {R : Aug m n} {r : Nat} (h : R.length ≤ r) : augRow R r = (0, 0) := by
  rw [augRow, List.getD_eq_default _ _ h]

theorem forall_mem_iff_augRow {R : Aug m n} {P : BitVec m × BitVec n → Prop} :
    (∀ x ∈ R, P x) ↔ ∀ r < R.length, P (augRow R r) := by
  rw [List.forall_mem_iff_getElem]
  exact forall₂_congr fun r hr => by rw [augRow, List.getD_eq_getElem _ _ hr]

section
variable {R : Aug m n} {i p : Nat}

theorem augRow_swapRows_right (hp : p < R.length) : augRow (swapRows R i p) p = augRow R i := by
  simp [swapRows, augRow, List.getD_eq_getElem?_getD, hp]

theorem augRow_swapRows_left (hi : i < R.length) : augRow (swapRows R i p) i = augRow R p := by
  by_cases h : p = i
  · subst h; exact augRow_swapRows_right hi
  · simp [swapRows, augRow, List.getD_eq_getElem?_getD, hi, h]

theorem augRow_swapRows_ne {r : Nat} (hi : r ≠ i) (hp : r ≠ p) : augRow (swapRows R i p) r = augRow R r := by
  simp [swapRows, augRow, List.getD_eq_getElem?_getD, hi.symm, hp.symm]

end

theorem augRow_addRowInto (into : Nat → Bool) (i : Nat) (R : Aug m n) (r : Nat) :
    augRow (addRowInto into i R) r =
      if into r && augBit R r i then rowSum (augRow R r) (augRow R i) else augRow R r := by
  by_cases hr : r < R.length
  · simp [augRow, augBit, addRowInto, rowSum, List.getD_eq_getElem?_getD, hr]
  · have hle : R.length ≤ r := Nat.le_of_not_lt hr
    have hrow : augRow R r = (0, 0) := augRow_of_length_le hle
    rw [augRow_of_length_le (by rw [length_addRowInto]; exact hle)]
    simp [augBit, hrow]

/-- Properties of rows that sums of rows inherit. -/
def SumClosed (P : BitVec m × BitVec n → Prop) : Prop := ∀ x y, P x → P y → P (rowSum x y)

/-- The rows of R' are sums of rows of R, and the other way round: a property that sums inherit holds of all rows
of both or of neither. -/
def SameSpan (R R' : Aug m n) : Prop :=
  R'.length = R.length ∧ ∀ P, SumClosed P → ((∀ x ∈ R', P x) ↔ ∀ x ∈ R, P x)

theorem SameSpan.refl (R : Aug m n) : SameSpan R R := ⟨rfl, fun _ _ => Iff.rfl⟩

theorem SameSpan.trans {R R' R'' : Aug m n} (h : SameSpan R R') (h' : SameSpan R' R'') : SameSpan R R'' :=
  ⟨h'.1.trans h.1, fun P hP => (h'.2 P hP).trans (h.2 P hP)⟩

theorem sameSpan_swapRows {R : Aug m n} {i p : Nat} (hi : i < R.length) (hp : p < R.length) :
    SameSpan R (swapRows R i p) := by
  refine ⟨length_swapRows R i p, fun P _ => ?_⟩
  rw [forall_mem_iff_augRow, forall_mem_iff_augRow, length_swapRows]
  constructor
  · intro h r hr
    rcases eq_or_ne r i with rfl | hri
    · exact augRow_swapRows_right hp ▸ h p hp
    rcases eq_or_ne r p with rfl | hrp
    · exact augRow_swapRows_left hi ▸ h i hi
    · exact augRow_swapRows_ne hri hrp ▸ h r hr
  · intro h r hr
    rcases eq_or_ne r i with rfl | hri
    · rw [augRow_swapRows_left hi]; exact h p hp
    rcases eq_or_ne r p with rfl | hrp
    · rw [augRow_swapRows_right hp]; exact h i hi
    · rw [augRow_swapRows_ne hri hrp]; exact h r hr

/-- Adding a row to other rows. -/
theorem sameSpan_addRowInto {R : Aug m n} {into : Nat → Bool} {i : Nat} (hi : i < R.length) (hinto : into i = false) :
    SameSpan R (addRowInto into i R) := by
  refine ⟨length_addRowInto into i R, fun P hP => ?_⟩
  rw [forall_mem_iff_augRow, forall_mem_iff_augRow, length_addRowInto]
  simp only [augRow_addRowInto]
  constructor
  · intro h r hr
    have hPi : P (augRow R i) := by simpa [hinto] using h i hi
    have := h r hr
    split_ifs at this
    · rw [← rowSum_cancel (augRow R r) (augRow R i)]
      exact hP _ _ this hPi
    · exact this
  · intro h r hr
    split_ifs
    · exact hP _ _ (h r hr) (h i hi)
    · exact h r hr

end

end Sys2Proof.Machine
end

section
/-! PROOF. Forward elimination and back substitution (41_matrix_algebra.md R220): how far the working copy is reduced
when they end. -/

namespace Sys2Proof.Machine

section
variable {m n : Nat} {R : Aug m n}

theorem getMsbD_rowSum_fst (x y : BitVec m × BitVec n) (j : Nat) :
    (rowSum x y).1.getMsbD j = Bool.xor (x.1.getMsbD j) (y.1.getMsbD j) := BitVec.getMsbD_xor

theorem augBit_addRowInto (into : Nat → Bool) (i : Nat) (R : Aug m n) (r j : Nat) :
    augBit (addRowInto into i R) r j =
      if into r && augBit R r i then Bool.xor (augBit R r j) (augBit R i j) else augBit R r j := by
  rw [augBit, augRow_addRowInto]
  split_ifs
  · exact getMsbD_rowSum_fst ..
  · rfl

/-- The pivot is a row from i on with a 1 in column i (41_matrix_algebra.md R220). -/
theorem lastPivot_some {i p : Nat} (h : lastPivot R i = some p) : p < R.length ∧ i ≤ p ∧ augBit R p i = true := by
  have hmem := List.mem_of_getLast? h
  simpa [augBit] using hmem

/-- Without a pivot column i is 0 from row i on. -/
theorem lastPivot_none {i : Nat} (h : lastPivot R i = none) {r : Nat} (hr : i ≤ r) : augBit R r i = false := by
  have hnil := List.getLast?_eq_none_iff.mp h
  by_cases hlen : r < R.length
  · have := List.filter_eq_nil_iff.mp hnil r (List.mem_range.mpr hlen)
    simpa [hr, augBit] using this
  · simp [augBit, augRow_of_length_le (Nat.le_of_not_lt hlen)]

/-- The first k columns are 1 on the diagonal and 0 below it. -/
def Echelon (k : Nat) (R : Aug m n) : Prop :=
  ∀ j < k, augBit R j j = true ∧ ∀ r, j < r → augBit R r j = false

theorem echelon_zero (R : Aug m n) : Echelon 0 R := fun _ hj => absurd hj (Nat.not_lt_zero _)

/-- Bringing the pivot up keeps the reduced columns: both rows are 0 there. -/
theorem echelon_swapRows {k p : Nat} (h : Echelon k R) (hp : p < R.length) (hkp : k ≤ p) :
    Echelon k (swapRows R k p) := by
  intro j hj
  obtain ⟨hdiag, hbelow⟩ := h j hj
  refine ⟨by rw [augBit, augRow_swapRows_ne (by omega) (by omega)]; exact hdiag, fun r hr => ?_⟩
  rw [augBit]
  rcases eq_or_ne r k with rfl | hrk
  · rw [augRow_swapRows_left (hkp.trans_lt hp)]; exact hbelow p (by omega)
  rcases eq_or_ne r p with rfl | hrp
  · rw [augRow_swapRows_right hp]; exact hbelow k hj
  · rw [augRow_swapRows_ne hrk hrp]; exact hbelow r hr

/-- Adding the pivot's row below it reduces its column. -/
theorem echelon_addRowInto_below {k : Nat} (h : Echelon k R) (hpivot : augBit R k k = true) :
    Echelon (k + 1) (addRowInto (fun r => decide (k < r)) k R) := by
  intro j hj
  simp only [augBit_addRowInto]
  rcases Nat.lt_succ_iff_lt_or_eq.mp hj with hlt | rfl
  · obtain ⟨hdiag, hbelow⟩ := h j hlt
    refine ⟨by simp [hdiag, hlt.le], fun r hr => ?_⟩
    simp [hbelow r hr, hbelow k hlt]
  · refine ⟨by simp [hpivot], fun r hr => ?_⟩
    simp [hpivot, hr]

/-- Elimination is stuck at column i: the columns before it are reduced and it has no pivot. -/
def Stuck (i : Nat) (R : Aug m n) : Prop := Echelon i R ∧ ∀ r, i ≤ r → augBit R r i = false

/-- How elimination of the columns k to k + l - 1 ends: all of them reduced, or stuck at one of them. -/
theorem eliminate_range' (l k : Nat) (R : Aug m n) (h : Echelon k R) :
    match eliminate (List.range' k l) R with
    | .ok R' => SameSpan R R' ∧ Echelon (k + l) R'
    | .error i => i < k + l ∧ ∃ R', SameSpan R R' ∧ Stuck i R' := by
  induction l generalizing k R with
  | zero => exact ⟨.refl R, h⟩
  | succ l ih =>
    rw [List.range'_succ, eliminate]
    cases hpivot : lastPivot R k with
    | none => exact ⟨by omega, R, .refl R, h, fun r hr => lastPivot_none hpivot hr⟩
    | some p =>
      obtain ⟨hp, hkp, hone⟩ := lastPivot_some hpivot
      have hk : k < R.length := hkp.trans_lt hp
      have hup : augBit (swapRows R k p) k k = true := by
        rw [augBit, augRow_swapRows_left hk]; exact hone
      have hspan : SameSpan R (addRowInto (fun r => decide (k < r)) k (swapRows R k p)) :=
        (sameSpan_swapRows hk hp).trans (sameSpan_addRowInto (by rwa [length_swapRows]) (by simp))
      have hnext := ih (k + 1) _ (echelon_addRowInto_below (echelon_swapRows h hp hkp) hup)
      dsimp only
      rw [show k + (l + 1) = k + 1 + l by omega]
      split at hnext
      · obtain ⟨hspan', hech⟩ := hnext
        exact ⟨hspan.trans hspan', hech⟩
      · obtain ⟨hlt, R', hspan', hstuck⟩ := hnext
        exact ⟨hlt, R', hspan.trans hspan', hstuck⟩

/-- The columns from k on below c are 0 above the diagonal. -/
def Cleared (k c : Nat) (R : Aug m n) : Prop := ∀ j, k ≤ j → j < c → ∀ r < j, augBit R r j = false

/-- Adding row k above it keeps the echelon: row k is 0 in the columns before k. -/
theorem echelon_addRowInto_above {c k : Nat} (h : Echelon c R) :
    Echelon c (addRowInto (fun r => decide (r < k)) k R) := by
  intro j hj
  obtain ⟨hdiag, hbelow⟩ := h j hj
  simp only [augBit_addRowInto]
  by_cases hjk : j < k
  · refine ⟨by simp [hdiag, hbelow k hjk], fun r hr => ?_⟩
    simp [hbelow r hr, hbelow k hjk]
  · refine ⟨by simp [hdiag, hjk], fun r hr => ?_⟩
    simp [hbelow r hr, show ¬ r < k by omega]

/-- Adding row k above it clears column k and keeps the cleared columns: row k is 0 there. -/
theorem cleared_addRowInto_above {c k : Nat} (h : Cleared (k + 1) c R) (hpivot : augBit R k k = true) :
    Cleared k c (addRowInto (fun r => decide (r < k)) k R) := by
  intro j hkj hj r hr
  rw [augBit_addRowInto]
  rcases hkj.eq_or_lt with rfl | hlt
  · simp [hr, hpivot]
  · simp [h j hlt hj r hr, h j hlt hj k hlt]

/-- Back substitution of the columns below k clears them too and keeps the rest. -/
theorem backSubstitute_range {c : Nat} (k : Nat) (R : Aug m n) (hkc : k ≤ c) (hc : c ≤ R.length) (hech : Echelon c R)
    (hcl : Cleared k c R) :
    SameSpan R (backSubstitute (List.range k).reverse R) ∧ Echelon c (backSubstitute (List.range k).reverse R) ∧
      Cleared 0 c (backSubstitute (List.range k).reverse R) := by
  induction k generalizing R with
  | zero => exact ⟨.refl R, hech, hcl⟩
  | succ k ih =>
    obtain ⟨hdiag, -⟩ := hech k hkc
    rw [List.range_succ, List.reverse_append, List.reverse_singleton, List.singleton_append, backSubstitute]
    have hspan : SameSpan R (addRowInto (fun r => decide (r < k)) k R) :=
      sameSpan_addRowInto (by omega) (by simp)
    obtain ⟨hspan', hech', hcl'⟩ := ih _ (by omega) (by rwa [length_addRowInto]) (echelon_addRowInto_above hech)
      (cleared_addRowInto_above hcl hdiag)
    exact ⟨hspan.trans hspan', hech', hcl'⟩

/-- Reduced on and off the diagonal, the columns are those of the identity. -/
theorem augBit_of_reduced {c : Nat} (hech : Echelon c R) (hcl : Cleared 0 c R) (r : Nat) {j : Nat} (hj : j < c) :
    augBit R r j = decide (r = j) := by
  obtain ⟨hdiag, hbelow⟩ := hech j hj
  rcases lt_trichotomy r j with h | rfl | h
  · rw [hcl j (Nat.zero_le j) hj r h, decide_eq_false h.ne]
  · rw [hdiag, decide_eq_true rfl]
  · rw [hbelow r h, decide_eq_false h.ne']

end

end Sys2Proof.Machine
end

section
/-! PROOF. INV's algorithm finds the inverse or the first dependent column (41_matrix_algebra.md R220): each working row
stays X-part = I-part times M, and the dependences among the columns of X stay those of M. -/

namespace Sys2Proof.Machine

/-- The first n bits of a row over ZMod 2. -/
def rowVec {m : Nat} (n : Nat) (x : BitVec m) : Fin n → ZMod 2 := fun j => bit (x.getMsbD j)

theorem rowVec_xor {m : Nat} (n : Nat) (x y : BitVec m) : rowVec n (x ^^^ y) = rowVec n x + rowVec n y := by
  ext j
  simp [rowVec, BitVec.getMsbD_xor, bit_xor]

section
variable {m n : Nat}

/-- The X-part of the row is its I-part times A. -/
def IsMultiple {l : Nat} (A : Matrix (Fin n) (Fin l) (ZMod 2)) (x : BitVec l × BitVec n) : Prop :=
  rowVec l x.1 = Matrix.vecMul (rowVec n x.2) A

theorem sumClosed_isMultiple {l : Nat} (A : Matrix (Fin n) (Fin l) (ZMod 2)) : SumClosed (IsMultiple A) :=
  fun x y hx hy => by
    unfold IsMultiple at *
    rw [rowSum, rowVec_xor, rowVec_xor, Matrix.add_vecMul, hx, hy]

/-- The X-part of the row is orthogonal to v. -/
def Annihilates (v : Fin m → ZMod 2) (x : BitVec m × BitVec n) : Prop := rowVec m x.1 ⬝ᵥ v = 0

theorem sumClosed_annihilates (v : Fin m → ZMod 2) : SumClosed (Annihilates (n := n) v) := fun x y hx hy => by
  unfold Annihilates at *
  rw [rowSum, rowVec_xor, add_dotProduct, hx, hy, add_zero]

/-- v combines column i and columns before it. -/
def EndsAt (i : Fin m) (v : Fin m → ZMod 2) : Prop := v i = 1 ∧ ∀ j, i < j → v j = 0

/-- In reduced columns no vector ends at one of them and is orthogonal to every row: its own row gives 1. -/
theorem not_annihilates_of_echelon {R : Aug m n} {k : Nat} (hech : Echelon k R) {i : Fin m} (hi : i < k)
    {v : Fin m → ZMod 2} (hv : EndsAt i v) : ¬ Annihilates v (augRow R i) := by
  obtain ⟨hone, hzero⟩ := hv
  have hdot : rowVec m (augRow R i).1 ⬝ᵥ v = 1 := by
    rw [dotProduct, Finset.sum_eq_single i]
    · obtain ⟨hdiag, -⟩ := hech i hi
      have : rowVec m (augRow R i).1 i = 1 := congrArg bit hdiag
      rw [this, hone, mul_one]
    · intro j _ hji
      rcases lt_or_gt_of_ne hji with hlt | hgt
      · obtain ⟨-, hbelow⟩ := hech j (Nat.lt_trans hlt hi)
        have : rowVec m (augRow R i).1 j = 0 := congrArg bit (hbelow i hlt)
        rw [this, zero_mul]
      · rw [hzero j hgt, mul_zero]
    · exact fun h => absurd (Finset.mem_univ i) h
  rw [Annihilates, hdot]
  decide

/-- v with entry j changed so that row j annihilates it. -/
def solveRow (R : Aug m n) (j : Fin m) (v : Fin m → ZMod 2) : Fin m → ZMod 2 :=
  v + Pi.single j (rowVec m (augRow R j).1 ⬝ᵥ v)

theorem dotProduct_solveRow (R : Aug m n) (r : Nat) (j : Fin m) (v : Fin m → ZMod 2) :
    rowVec m (augRow R r).1 ⬝ᵥ solveRow R j v =
      rowVec m (augRow R r).1 ⬝ᵥ v + bit (augBit R r j) * (rowVec m (augRow R j).1 ⬝ᵥ v) := by
  rw [solveRow, dotProduct_add, dotProduct_single]
  rfl

/-- Solving row j for a reduced column j keeps the rows below it solved. -/
theorem annihilates_solveRow {R : Aug m n} {k : Nat} (hech : Echelon k R) {j : Fin m} (hj : j.val < k)
    {v : Fin m → ZMod 2} (hv : ∀ r, j.val < r → Annihilates v (augRow R r)) {r : Nat} (hr : j.val ≤ r) :
    Annihilates (solveRow R j v) (augRow R r) := by
  obtain ⟨hdiag, hbelow⟩ := hech j hj
  rw [Annihilates, dotProduct_solveRow]
  rcases hr.eq_or_lt with rfl | hlt
  · rw [hdiag, bit_true, one_mul, CharTwo.add_self_eq_zero]
  · rw [hbelow r hlt, bit_false, zero_mul, add_zero]
    exact hv r hlt

theorem endsAt_solveRow (R : Aug m n) {i j : Fin m} (hj : j < i) {v : Fin m → ZMod 2} (hv : EndsAt i v) :
    EndsAt i (solveRow R j v) := by
  obtain ⟨hone, hzero⟩ := hv
  refine ⟨?_, fun l hl => ?_⟩
  · rw [solveRow, Pi.add_apply, Pi.single_eq_of_ne hj.ne', add_zero, hone]
  · rw [solveRow, Pi.add_apply, Pi.single_eq_of_ne (hj.trans hl).ne', add_zero, hzero l hl]

/-- Stuck at column i, some vector that ends at i is orthogonal to every row: the reduced columns are solved for its
earlier entries, from the last one back. -/
theorem exists_annihilates_of_stuck {R : Aug m n} {i : Fin m} (h : Stuck i R) :
    ∃ v, EndsAt i v ∧ ∀ r, Annihilates v (augRow R r) := by
  obtain ⟨hech, hcol⟩ := h
  have hsolve : ∀ d ≤ i.val, ∃ v, EndsAt i v ∧ ∀ r, i.val - d ≤ r → Annihilates v (augRow R r) := by
    intro d
    induction d with
    | zero =>
      refine fun _ => ⟨Pi.single i 1, ⟨Pi.single_eq_same i 1, fun j hj => Pi.single_eq_of_ne hj.ne' 1⟩, fun r hr => ?_⟩
      rw [Annihilates, dotProduct_single_one]
      exact congrArg bit (hcol r hr)
    | succ d ih =>
      intro hd
      obtain ⟨v, hends, hrows⟩ := ih (by omega)
      let j : Fin m := ⟨i.val - (d + 1), by omega⟩
      have hji : j < i := show i.val - (d + 1) < i.val by omega
      exact ⟨solveRow R j v, endsAt_solveRow R hji hends, fun r hr =>
        annihilates_solveRow hech hji (fun r (hjr : i.val - (d + 1) < r) => hrows r (by omega)) hr⟩
  obtain ⟨v, hv, hrows⟩ := hsolve i le_rfl
  exact ⟨v, hv, fun r => hrows r (by omega)⟩

end

section
variable {M : BitMatrix}

theorem augRow_augmented {r : Nat} (hr : r < M.rows) :
    augRow M.augmented r = (M.row r, bitRow M.rows fun j => decide (r = j)) := by
  have hdata : r < M.data.length := hr
  simp [augRow, BitMatrix.augmented, identityRows, BitMatrix.row, List.getD_eq_getElem?_getD, hr, hdata]

theorem rowVec_identityRow {n r : Nat} (hr : r < n) :
    rowVec n (bitRow n fun j => decide (r = j)) = Pi.single ⟨r, hr⟩ 1 := by
  ext j
  simp [rowVec, Pi.single_apply, Fin.ext_iff, bit, eq_comm]

/-- INV starts with X = M beside the identity, so each row is a multiple of M. -/
theorem isMultiple_augmented (M : BitMatrix) :
    ∀ x ∈ M.augmented, IsMultiple (M.toMatrix M.rows M.cols) x := by
  rw [forall_mem_iff_augRow, length_augmented]
  intro r hr
  rw [augRow_augmented hr, IsMultiple, rowVec_identityRow hr, Matrix.single_one_vecMul]
  rfl

/-- A vector is orthogonal to the rows of M exactly when M maps it to 0. -/
theorem annihilates_augmented_iff (M : BitMatrix) (v : Fin M.cols → ZMod 2) :
    (∀ x ∈ M.augmented, Annihilates v x) ↔ Matrix.mulVec (M.toMatrix M.rows M.cols) v = 0 := by
  rw [forall_mem_iff_augRow, length_augmented, funext_iff, Fin.forall_iff]
  exact forall₂_congr fun r hr => by rw [augRow_augmented hr]; rfl

theorem get_map_fst {m n : Nat} (R : Aug m n) (r j : Nat) :
    (BitMatrix.mk m (R.map Prod.fst)).get r j = augBit R r j := by
  rw [BitMatrix.get_mk, List.getElem?_map, augBit, augRow, List.getD_eq_getElem?_getD]
  cases R[r]? <;> rfl

theorem get_map_snd {m n : Nat} (R : Aug m n) (r j : Nat) :
    (BitMatrix.mk n (R.map Prod.snd)).get r j = (augRow R r).2.getMsbD j := by
  rw [BitMatrix.get_mk, List.getElem?_map, augRow, List.getD_eq_getElem?_getD]
  cases R[r]? <;> rfl

/-- The final test of R220 passes: the columns are reduced. -/
theorem upperTriangular_of_echelon {m n : Nat} {R : Aug m n} (hech : Echelon m R) :
    BitMatrix.upperTriangular ⟨m, R.map Prod.fst⟩ = true := by
  refine BitMatrix.upperTriangular_iff.mpr fun i j _ hj hji => ?_
  obtain ⟨-, hbelow⟩ := hech j hj
  rw [get_map_fst, hbelow i hji]

/-- When the working copy has become the identity, the carried matrix is a left inverse of M. -/
theorem BitMatrix.mul_of_isMultiple {M : BitMatrix} {R : Aug M.cols M.rows} (hlen : R.length = M.cols)
    (hmult : ∀ x ∈ R, IsMultiple (M.toMatrix M.rows M.cols) x)
    (hone : ∀ r, ∀ j < M.cols, augBit R r j = decide (r = j)) :
    BitMatrix.mul ⟨M.rows, R.map Prod.snd⟩ M = .identity M.cols := by
  have hX : BitMatrix.HasShape ⟨M.rows, R.map Prod.snd⟩ M.cols M.rows := ⟨(List.length_map _).trans hlen, rfl⟩
  have hM : M.HasShape M.rows M.cols := ⟨rfl, rfl⟩
  rw [← toMatrix_inj (hX.mul hM) (hasShape_identity _), toMatrix_mul hX hM, toMatrix_identity]
  ext i j
  have hrow : rowVec M.cols (augRow R i).1 = _ := forall_mem_iff_augRow.mp hmult i (hlen.symm ▸ i.isLt)
  calc _ = Matrix.vecMul (rowVec M.rows (augRow R i).2) (M.toMatrix M.rows M.cols) j := by
        rw [Matrix.mul_apply_eq_vecMul]
        exact congrArg (fun u => Matrix.vecMul u (M.toMatrix M.rows M.cols) j)
          (funext fun l => congrArg bit (get_map_snd R i l))
    _ = rowVec M.cols (augRow R i).1 j := by rw [hrow]
    _ = bit (decide (i.val = j.val)) := congrArg bit (hone i j j.isLt)
    _ = _ := by rw [Matrix.one_apply]; simp [bit, Fin.ext_iff]

/-- How INV's algorithm ends on a square matrix: with a left inverse, or stuck at one of its columns. -/
theorem BitMatrix.invert_cases (hsq : M.rows = M.cols) :
    match M.invert with
    | .ok X => X.mul M = identity M.rows
    | .error i => i < M.rows ∧ ∃ R, SameSpan M.augmented R ∧ Stuck i R := by
  have helim := eliminate_range' M.rows 0 M.augmented (echelon_zero _)
  rw [← List.range_eq_range', Nat.zero_add] at helim
  rw [invert]
  cases hR : eliminate (List.range M.rows) M.augmented with
  | error i => rw [hR] at helim; exact helim
  | ok R =>
    rw [hR] at helim
    obtain ⟨hspan, hech⟩ := helim
    have hlen : R.length = M.rows := hspan.1.trans (length_augmented M)
    obtain ⟨hspan', hech', hcl'⟩ :=
      backSubstitute_range M.rows R le_rfl hlen.ge hech (fun j hj hj' => absurd hj (Nat.not_le.mpr hj'))
    have hmult := ((hspan.trans hspan').2 _ (sumClosed_isMultiple _)).mpr (isMultiple_augmented M)
    have hone : ∀ r, ∀ j < M.cols, augBit (backSubstitute (List.range M.rows).reverse R) r j = decide (r = j) :=
      fun r j hj => augBit_of_reduced hech' hcl' r (hsq.symm ▸ hj)
    have hut : upperTriangular ⟨M.cols, R.map Prod.fst⟩ = true :=
      upperTriangular_of_echelon fun j hj => hech j (hsq.symm ▸ hj)
    dsimp only
    rw [if_pos hut]
    exact (mul_of_isMultiple (hspan'.1.trans (hlen.trans hsq)) hmult hone).trans (congrArg identity hsq.symm)

theorem BitMatrix.mul_eq_identity_of_invert {X : BitMatrix} (hsq : M.rows = M.cols) (h : M.invert = .ok X) :
    X.mul M = identity M.rows := by
  have hcases := invert_cases hsq
  rwa [h] at hcases

/-- Column i of M is a sum of earlier columns (41_matrix_algebra.md R223): some combination of column i and columns
before it is zero. -/
def BitMatrix.DependentColumn (M : BitMatrix) (i : Nat) : Prop :=
  ∃ y : BitMatrix, y.HasShape M.rows 1 ∧ y.get i 0 = true ∧ (∀ j, i < j → y.get j 0 = false) ∧
    M.mul y = zero M.rows 1

theorem BitMatrix.mul_eq_zero_iff {y : BitMatrix} (hy : y.HasShape M.cols 1) :
    M.mul y = zero M.rows 1 ↔ Matrix.mulVec (M.toMatrix M.rows M.cols) (fun j => bit (y.get j 0)) = 0 := by
  have hM : M.HasShape M.rows M.cols := ⟨rfl, rfl⟩
  rw [← toMatrix_inj (hM.mul hy) (hasShape_zero _ _), toMatrix_mul hM hy, toMatrix_zero]
  constructor
  · exact fun h => funext fun r => congrFun (congrFun h r) 0
  · intro h
    ext r c
    rw [Fin.fin_one_eq_zero c]
    exact congrFun h r

theorem bit_eq_one {b : Bool} : bit b = 1 ↔ b = true := by revert b; decide

theorem bit_eq_zero {b : Bool} : bit b = 0 ↔ b = false := by revert b; decide

theorem bit_decide_eq_one (a : ZMod 2) : bit (decide (a = 1)) = a := by revert a; decide

theorem BitMatrix.dependentColumn_iff (hsq : M.rows = M.cols) (i : Fin M.cols) :
    M.DependentColumn i ↔ ∃ v, EndsAt i v ∧ ∀ x ∈ M.augmented, Annihilates v x := by
  constructor
  · rintro ⟨y, hy, hone, hzero, hmul⟩
    rw [mul_eq_zero_iff (hsq ▸ hy)] at hmul
    exact ⟨_, ⟨bit_eq_one.mpr hone, fun j hj => bit_eq_zero.mpr (hzero j hj)⟩,
      (annihilates_augmented_iff M _).mpr hmul⟩
  · rintro ⟨v, ⟨hone, hzero⟩, hann⟩
    let y := ofFn M.cols 1 fun j _ => if h : j < M.cols then decide (v ⟨j, h⟩ = 1) else false
    have hy : y.HasShape M.cols 1 := ⟨rows_ofFn .., rfl⟩
    have hget (j : Fin M.cols) : y.get j 0 = decide (v j = 1) := by simp [y]
    refine ⟨y, hsq.symm ▸ hy, by rw [hget, hone]; rfl, fun j hj => ?_, ?_⟩
    · by_cases hlt : j < M.cols
      · rw [hget ⟨j, hlt⟩, hzero ⟨j, hlt⟩ hj]; rfl
      · exact get_eq_false_of_rows_le (by rw [hy.1]; exact Nat.le_of_not_lt hlt)
    · rw [mul_eq_zero_iff hy, ← annihilates_augmented_iff]
      convert hann using 3
      ext j
      rw [hget, bit_decide_eq_one]

/-- The column INV's algorithm is stuck at is the first dependent one. -/
theorem BitMatrix.dependentColumn_of_stuck (hsq : M.rows = M.cols) {i : Nat} (hi : i < M.rows) {R : Aug M.cols M.rows}
    (hspan : SameSpan M.augmented R) (hstuck : Stuck i R) :
    M.DependentColumn i ∧ ∀ i' < i, ¬ M.DependentColumn i' := by
  refine ⟨?_, fun i' hi' hdep => ?_⟩
  · rw [dependentColumn_iff hsq ⟨i, hsq ▸ hi⟩]
    obtain ⟨v, hv, hann⟩ := exists_annihilates_of_stuck (i := ⟨i, hsq ▸ hi⟩) hstuck
    exact ⟨v, hv, (hspan.2 _ (sumClosed_annihilates v)).mp (forall_mem_iff_augRow.mpr fun r _ => hann r)⟩
  · rw [dependentColumn_iff hsq ⟨i', hsq ▸ hi'.trans hi⟩] at hdep
    obtain ⟨v, hv, hann⟩ := hdep
    have hall := forall_mem_iff_augRow.mp ((hspan.2 _ (sumClosed_annihilates v)).mpr hann)
    exact not_annihilates_of_echelon hstuck.1 hi' hv
      (hall i' (by rw [hspan.1, length_augmented]; exact hi'.trans hi))

/-- INV's algorithm finds the inverse of an invertible matrix. -/
theorem BitMatrix.invert_of_invertible (h : M.Invertible) :
    ∃ X, M.invert = .ok X ∧ X.HasShape M.rows M.rows ∧ M.mul X = identity M.rows ∧ X.mul M = identity M.rows := by
  obtain ⟨hsq, N, hN, hMN⟩ := h
  have hM : M.HasShape M.rows M.rows := ⟨rfl, hsq.symm⟩
  cases hinv : M.invert with
  | ok X =>
    have hX : X.HasShape M.rows M.rows := shape_of_invert hinv
    have hXM := mul_eq_identity_of_invert hsq hinv
    exact ⟨X, rfl, hX, (mul_eq_identity_comm hM hX).mpr hXM, hXM⟩
  | error i =>
    have hcases := invert_cases hsq
    rw [hinv] at hcases
    obtain ⟨hi, R, hspan, hstuck⟩ := hcases
    obtain ⟨⟨y, hy, hone, -, hmul⟩, -⟩ := dependentColumn_of_stuck hsq hi hspan hstuck
    have hNM : N.mul M = identity M.rows := (mul_eq_identity_comm hM hN).mp hMN
    have hyzero : y = N.mul (zero M.rows 1) := by
      rw [← hmul, ← mul_assoc hN hM hy, hNM, identity_mul hy]
    have hzero : N.mul (zero M.rows 1) = zero M.rows 1 := by
      rw [← toMatrix_inj (hN.mul (hasShape_zero _ _)) (hasShape_zero _ _), toMatrix_mul hN (hasShape_zero _ _),
        toMatrix_zero, Matrix.mul_zero]
    rw [hyzero, hzero, get_zero] at hone
    cases hone

/-- On a singular matrix INV's algorithm ends at the first dependent column. -/
theorem BitMatrix.invert_of_not_invertible (hsq : M.rows = M.cols) (h : ¬ M.Invertible) :
    ∃ i, M.invert = .error i ∧ i < M.rows ∧ M.DependentColumn i ∧ ∀ i' < i, ¬ M.DependentColumn i' := by
  cases hinv : M.invert with
  | ok X =>
    have hX : X.HasShape M.rows M.rows := shape_of_invert hinv
    have hXM := mul_eq_identity_of_invert hsq hinv
    exact absurd ⟨hsq, X, hX, (mul_eq_identity_comm ⟨rfl, hsq.symm⟩ hX).mpr hXM⟩ h
  | error i =>
    have hcases := invert_cases hsq
    rw [hinv] at hcases
    obtain ⟨hi, R, hspan, hstuck⟩ := hcases
    exact ⟨i, rfl, hi, dependentColumn_of_stuck hsq hi hspan hstuck⟩

/-- The inverse of a matrix is unique. -/
theorem BitMatrix.invert_eq_of_mul {N : BitMatrix} (hsq : M.rows = M.cols) (hN : N.HasShape M.rows M.rows)
    (h : M.mul N = identity M.rows) : M.invert = .ok N := by
  obtain ⟨X, hinv, hX, -, hXM⟩ := invert_of_invertible ⟨hsq, N, hN, h⟩
  have hM : M.HasShape M.rows M.rows := ⟨rfl, hsq.symm⟩
  have hX' : X.mul (identity M.rows) = X := by
    rw [← toMatrix_inj (hX.mul (hasShape_identity _)) hX, toMatrix_mul hX (hasShape_identity _), toMatrix_identity,
      Matrix.mul_one]
  have hXN : X = N := by rw [← hX', ← h, ← mul_assoc hX hM hN, hXM, identity_mul hN]
  rw [hinv, hXN]

end

end Sys2Proof.Machine
end

section
/-! PROOF. INV (41_matrix_algebra.md section 5). -/

namespace Sys2Proof.Machine

section
variable {md ms1 : SlotId} {s : State} {M : BitMatrix}

theorem exec_inv_none (hs : s.slot ms1 = none) : exec (.inv md ms1) s = .next (s.raised .emptyOperand 1) := by
  show execInv md ms1 s = _
  rw [execInv, withSlot_none hs]
  rfl

theorem exec_inv_of_not_square (hs : s.slot ms1 = some M) (hsq : M.rows ≠ M.cols) :
    exec (.inv md ms1) s = .next (s.raised .shapeMismatch 0) := by
  show execInv md ms1 s = _
  rw [execInv, withSlot_some hs]
  exact check_neg hsq

theorem exec_inv_ok {X : BitMatrix} (hs : s.slot ms1 = some M) (hsq : M.rows = M.cols) (hX : M.invert = .ok X) :
    exec (.inv md ms1) s = .next ({ s with res := 1, flag := true }.withSlotSet md X).completed := by
  show execInv md ms1 s = _
  rw [execInv, withSlot_some hs, check_pos hsq]
  simp only [hX, completeWith_eq_completed]
  rfl

theorem exec_inv_error {i : Nat} (hs : s.slot ms1 = some M) (hsq : M.rows = M.cols) (hi : M.invert = .error i) :
    exec (.inv md ms1) s = .next ({ s with res := 0, flag := false }.raised .notInvertible (BitVec.ofNat 64 i)) := by
  show execInv md ms1 s = _
  rw [execInv, withSlot_some hs, check_pos hsq]
  simp only [hi]
  rfl

/-- Row a of M is zero, so row a of every product M N is. -/
theorem BitMatrix.not_invertible_of_zero_row {a : Nat} (ha : a < M.rows) (h : ∀ j, M.get a j = false) :
    ¬ M.Invertible := by
  rintro ⟨-, N, ⟨-, hcols⟩, hMN⟩
  have hzero : (M.mul N).get a a = false := by
    have : sharedOnes M N a a = ∅ := by simp [sharedOnes, h]
    rw [get_mul ha (hcols.symm ▸ ha), this]
    rfl
  rw [hMN, get_identity ha ha, decide_eq_true rfl] at hzero
  cases hzero

theorem BitMatrix.not_invertible_of_equal_rows {a b : Nat} (ha : a < M.rows) (hb : b < M.rows) (hab : a ≠ b)
    (h : ∀ j, M.get a j = M.get b j) : ¬ M.Invertible := by
  rintro ⟨-, N, ⟨-, hcols⟩, hMN⟩
  have hsame : (M.mul N).get a b = (M.mul N).get b b := by
    have : sharedOnes M N a b = sharedOnes M N b b := by simp [sharedOnes, h]
    rw [get_mul ha (hcols.symm ▸ hb), get_mul hb (hcols.symm ▸ hb), this]
  rw [hMN, get_identity ha hb, get_identity hb hb, decide_eq_true rfl, decide_eq_false hab] at hsame
  cases hsame

end

/-- Settles O27: INV's checks, and the identity by uniqueness of the inverse. -/
theorem invChecksAndIdentity : Obligations.InvChecksAndIdentity := by
  refine fun md ms1 => ⟨?_, fun s => ⟨fun hs => ?_, fun M hs hsq => ?_, fun n hs => ?_⟩⟩
  · exact decode_commandWord (.inv md ms1) rfl (by decide) (by omega) (by decide) (by decide) rfl
  · exact exec_inv_none hs
  · exact exec_inv_of_not_square hs hsq
  · have hI := BitMatrix.hasShape_identity n
    refine exec_inv_ok hs hI.1 (BitMatrix.invert_eq_of_mul hI.1 ?_ ?_)
    · rw [hI.1]; exact hI
    · rw [BitMatrix.identity_mul hI, hI.1]

/-- Settles O28. -/
theorem invInvertsTheInvertible : Obligations.InvInvertsTheInvertible := by
  intro md ms1 s M hs hM
  obtain ⟨X, hinv, hX, hMX, hXM⟩ := BitMatrix.invert_of_invertible hM
  exact ⟨X, hX, hMX, hXM, exec_inv_ok hs hM.1 hinv⟩

/-- Settles O29: the column INV is stuck at, and zero or equal rows by the diagonal of the product. -/
theorem invNamesTheFirstDependentColumn : Obligations.InvNamesTheFirstDependentColumn := by
  refine ⟨fun md ms1 s M hs hsq hM => ?_, fun M a b ha hb hrows => ?_⟩
  · obtain ⟨i, hinv, hi, hdep, hfirst⟩ := BitMatrix.invert_of_not_invertible hsq hM
    exact ⟨i, hi, exec_inv_error hs hsq hinv, hdep, hfirst⟩
  · rcases hrows with hzero | ⟨hab, hsame⟩
    · exact BitMatrix.not_invertible_of_zero_row ha hzero
    · exact BitMatrix.not_invertible_of_equal_rows ha hb hab hsame

end Sys2Proof.Machine
end

section
/-! PROOF. Scattering a vector to distinct rows (42_prange_isd.md R269, section 4). -/

namespace Sys2Proof.Machine

section
variable {n : Nat} {idx : List Nat} {e : BitMatrix}

theorem BitMatrix.get_scatter (n : Nat) (idx : List Nat) (e : BitMatrix) (i : Nat) :
    (scatter n idx e).get i 0 = true ↔
      i < n ∧ ∃ a < idx.length, idx.getD a 0 = i ∧ e.get a 0 = true := by
  simp [scatter]

/-- Row idx[a] of the scattered vector is row a. -/
theorem BitMatrix.get_scatter_at (h : ColumnList n idx) {a : Nat} (ha : a < idx.length) :
    (scatter n idx e).get idx[a] 0 = e.get a 0 := by
  obtain ⟨hnodup, hrange⟩ := h
  rw [Bool.eq_iff_iff, get_scatter]
  constructor
  · rintro ⟨-, b, hb, hbrow, hone⟩
    rw [List.getD_eq_getElem _ _ hb, hnodup.getElem_inj_iff] at hbrow
    exact hbrow ▸ hone
  · exact fun hone => ⟨hrange _ (List.getElem_mem ha), a, ha, List.getD_eq_getElem _ _ ha, hone⟩

theorem BitMatrix.get_scatter_off {i : Nat} (h : i ∉ idx) : (scatter n idx e).get i 0 = false := by
  rw [← Bool.not_eq_true, get_scatter]
  rintro ⟨-, a, ha, rfl, -⟩
  rw [List.getD_eq_getElem _ _ ha] at h
  exact h (List.getElem_mem ha)

theorem BitMatrix.hasShape_scatter (n : Nat) (idx : List Nat) (e : BitMatrix) : (scatter n idx e).HasShape n 1 :=
  ⟨rows_scatter .., rfl⟩

theorem BitMatrix.hasShape_selectCols (M : BitMatrix) (idx : List Nat) :
    (M.selectCols idx).HasShape M.rows idx.length :=
  ⟨rows_selectCols .., rfl⟩

/-- A scattered vector selects columns: H times it is the product of H's columns idx with the vector. -/
theorem BitMatrix.mul_scatter {H : BitMatrix} (h : ColumnList H.cols idx) (he : e.HasShape idx.length 1) :
    H.mul (scatter H.cols idx e) = (H.selectCols idx).mul e := by
  have hH : H.HasShape H.rows H.cols := ⟨rfl, rfl⟩
  have hS := hasShape_scatter H.cols idx e
  have hsel := hasShape_selectCols H idx
  have hin (a : Fin idx.length) : idx[a] < H.cols := h.2 _ (List.getElem_mem _)
  rw [← toMatrix_inj (hH.mul hS) (hsel.mul he), toMatrix_mul hH hS, toMatrix_mul hsel he]
  ext r c
  rw [Fin.fin_one_eq_zero c, Matrix.mul_apply, Matrix.mul_apply]
  refine (Fintype.sum_of_injective (fun a => ⟨idx[a], hin a⟩) (fun a b hab => ?_) _ _ (fun i hi => ?_) fun a => ?_).symm
  · exact Fin.ext (h.1.getElem_inj_iff.mp (Fin.mk.inj hab))
  · have hoff : i.val ∉ idx := fun hmem => by
      obtain ⟨a, ha, hai⟩ := List.mem_iff_getElem.mp hmem
      exact hi ⟨⟨a, ha⟩, Fin.ext hai⟩
    have hzero : (scatter H.cols idx e).toMatrix H.cols 1 i 0 = 0 := congrArg bit (get_scatter_off hoff)
    rw [hzero, mul_zero]
  · have hrow : (scatter H.cols idx e).get idx[a] 0 = e.get a 0 := get_scatter_at h a.isLt
    simp only [toMatrix_apply, get_selectCols r.isLt a.isLt, List.getD_eq_getElem idx 0 a.isLt, Fin.val_zero]
    exact congrArg (bit (H.get r idx[a]) * bit ·) hrow.symm

/-- Scattering keeps the weight. -/
theorem BitMatrix.hw_scatter (h : ColumnList n idx) (he : e.HasShape idx.length 1) : (scatter n idx e).hw = e.hw := by
  have hone {a j : Nat} (hmem : (a, j) ∈ e.ones) : a < idx.length ∧ j = 0 := by
    rw [mem_ones] at hmem
    constructor
    · by_contra hle
      rw [get_eq_false_of_rows_le (by rw [he.1]; omega)] at hmem
      cases hmem
    · by_contra hne
      rw [get_eq_false_of_cols_le (by rw [he.2]; omega)] at hmem
      cases hmem
  have himage : (scatter n idx e).ones = e.ones.image fun p => (idx.getD p.1 0, p.2) := by
    ext ⟨i, j⟩
    rw [mem_ones, Finset.mem_image]
    constructor
    · intro hget
      obtain rfl : j = 0 := by
        by_contra hne
        rw [get_eq_false_of_cols_le (by rw [cols_scatter]; omega)] at hget
        cases hget
      obtain ⟨-, a, ha, rfl, hbit⟩ := (get_scatter ..).mp hget
      exact ⟨(a, 0), mem_ones.mpr hbit, rfl⟩
    · rintro ⟨⟨a, b⟩, hmem, heq⟩
      obtain ⟨ha, rfl⟩ := hone hmem
      obtain ⟨rfl, rfl⟩ := Prod.mk.inj heq
      rw [List.getD_eq_getElem _ _ ha, get_scatter_at h ha]
      exact mem_ones.mp hmem
  rw [hw_eq_card_ones, hw_eq_card_ones, himage, Finset.card_image_of_injOn]
  rintro ⟨a, j⟩ ha ⟨b, k⟩ hb heq
  obtain ⟨hrow, hcol⟩ := Prod.mk.inj heq
  obtain ⟨ha, -⟩ := hone ha
  obtain ⟨hb, -⟩ := hone hb
  rw [List.getD_eq_getElem _ _ ha, List.getD_eq_getElem _ _ hb, h.1.getElem_inj_iff] at hrow
  exact Prod.ext hrow hcol

end

end Sys2Proof.Machine
end

section
/-! PROOF. ISD's checks, its trials and its ends (42_prange_isd.md R260 to R271; steps of log 3). -/

namespace Sys2Proof.Machine

section
variable {md ms1 ms2 : SlotId} {t : Nat} {s : State} {sc : IsdScratch} {idx : List Nat}

/-- The loop state ISD starts with (42_prange_isd.md R261, R262). -/
def isdStart (H syn : BitMatrix) (t : Nat) (s : State) : IsdScratch where
  H := H
  syn := syn
  t := t
  budget := s.isdMax
  dthr := s.isdDthr
  trials := 0
  sing := 0
  dcnt := 0
  drawn := none

theorem exec_isd_start (h : s.scratch = .none) :
    exec (.isd md ms1 ms2 t) s = withSlot .ms1 ms1 s fun H => withSlot .ms2 ms2 s fun syn =>
      check (H.rows ≤ H.cols ∧ syn.rows = H.rows ∧ syn.cols = 1) .shapeMismatch 0 s <|
      check (fitsSlot s.params H.cols 1) .alloc 0 s <|
      goOn (.isd (isdStart H syn t s)) s := by
  show execIsd md ms1 ms2 t s = _
  rw [execIsd, h]
  rfl

theorem exec_isd_loop (h : s.scratch = .isd sc) : exec (.isd md ms1 ms2 t) s = isdPass md sc s := by
  show execIsd md ms1 ms2 t s = _
  rw [execIsd, h]

theorem isdPass_top (h : sc.drawn = none) : isdPass md sc s = isdTop sc s := by rw [isdPass, h]

theorem isdPass_draw (h : sc.drawn = some idx) (hlt : idx.length < sc.H.rows) {x : Nat} {s' : State}
    (hd : draw sc.H.cols s = (x, s')) :
    isdPass md sc s = goOn (.isd { sc with drawn := some (acceptColumn idx x) }) s' := by
  rw [isdPass, h]
  simp only [if_pos hlt, drawColumn_eq hd]

theorem isdPass_try (h : sc.drawn = some idx) (hle : sc.H.rows ≤ idx.length) :
    isdPass md sc s = isdTry md sc idx s := by
  rw [isdPass, h]
  exact if_neg (Nat.not_lt.mpr hle)

/-- The loop state after a trial with candidate e: it counts, and counts as a low weight below the threshold
(42_prange_isd.md R265, R268). -/
def IsdScratch.counted (sc : IsdScratch) (e : BitMatrix) : IsdScratch :=
  { sc with
    trials := sc.trials + 1
    dcnt := if e.hw < sc.dthr.toNat then sc.dcnt + 1 else sc.dcnt
    drawn := none }

theorem isdTry_singular {e : Nat} (h : (sc.H.selectCols idx).invert = .error e) :
    isdTry md sc idx s = goOn (.isd { sc with trials := sc.trials + 1, sing := sc.sing + 1, drawn := none }) s := by
  simp only [isdTry, h]

section
variable {X : BitMatrix}

theorem isdTry_miss (h : (sc.H.selectCols idx).invert = .ok X) (hw : (X.mul sc.syn).hw ≠ sc.t) :
    isdTry md sc idx s = goOn (.isd (sc.counted (X.mul sc.syn))) s := by
  simp only [isdTry, h, if_neg hw, IsdScratch.counted]

theorem isdTry_hit (h : (sc.H.selectCols idx).invert = .ok X) (hw : (X.mul sc.syn).hw = sc.t) :
    isdTry md sc idx s = isdSucceed md (sc.counted (X.mul sc.syn)) idx (X.mul sc.syn) s := by
  simp only [isdTry, h, if_pos hw, IsdScratch.counted]

/-- The state a successful ISD leaves (42_prange_isd.md R269). -/
theorem isdSucceed_eq (md : SlotId) (sc : IsdScratch) (idx : List Nat) (e : BitMatrix) (s : State) :
    isdSucceed md sc idx e s = .next ({ s with
      xidx := some (idx.map (BitVec.ofNat 20))
      isdTrials := sc.trials
      isdSing := sc.sing
      isdDcnt := sc.dcnt
      res := BitVec.ofNat 64 e.hw
      flag := true }.withSlotSet md (BitMatrix.scatter sc.H.cols idx e)).completed := by
  rw [isdSucceed, completeWith_eq_completed]
  rfl

end

/-- In a trial ISD either goes on, changing of the state only the draws, or succeeds with a candidate of weight t. -/
theorem isdPass_trial (h : sc.drawn = some idx) :
    (∃ sc' s', isdPass md sc s = goOn (.isd sc') s' ∧ s'.engine = s.engine ∧ s'.err = s.err) ∨
    ∃ X, sc.H.rows ≤ idx.length ∧ (sc.H.selectCols idx).invert = .ok X ∧ (X.mul sc.syn).hw = sc.t ∧
      isdPass md sc s = isdSucceed md (sc.counted (X.mul sc.syn)) idx (X.mul sc.syn) s := by
  rcases Nat.lt_or_ge idx.length sc.H.rows with hlt | hle
  · exact .inl ⟨_, _, isdPass_draw h hlt rfl, draw_engine .., draw_err ..⟩
  rw [isdPass_try h hle]
  cases hinv : (sc.H.selectCols idx).invert with
  | error e => exact .inl ⟨_, s, isdTry_singular hinv, rfl, rfl⟩
  | ok X =>
    by_cases hw : (X.mul sc.syn).hw = sc.t
    · exact .inr ⟨X, hle, rfl, hw, isdTry_hit hinv hw⟩
    · exact .inl ⟨_, s, isdTry_miss hinv hw, rfl, rfl⟩

theorem acceptColumn_eq_ite (idx : List Nat) (x : Nat) :
    acceptColumn idx x = if x ∈ idx then idx else idx ++ [x] := by
  split_ifs with h
  · exact acceptColumn_of_mem h
  · exact acceptColumn_of_not_mem h

/-- The candidate of an invertible sample is a solution: H times it is the syndrome (42_prange_isd.md section 4). -/
theorem BitMatrix.mul_scatter_of_invert {H syn X : BitMatrix} (hcols : ColumnList H.cols idx)
    (hlen : idx.length = H.rows) (hsyn : syn.HasShape H.rows 1) (hX : (H.selectCols idx).invert = .ok X) :
    H.mul (scatter H.cols idx (X.mul syn)) = syn := by
  have hsel : (H.selectCols idx).HasShape H.rows H.rows := ⟨rows_selectCols .., hlen⟩
  have hXs := shape_of_invert hX
  rw [hsel.1] at hXs
  have hleft := mul_eq_identity_of_invert (hsel.1.trans hsel.2.symm) hX
  rw [hsel.1] at hleft
  have he : (X.mul syn).HasShape H.rows 1 := HasShape.mul (A := X) hXs hsyn
  calc H.mul (scatter H.cols idx (X.mul syn))
      = (H.selectCols idx).mul (X.mul syn) := mul_scatter hcols (hlen ▸ he)
    _ = ((H.selectCols idx).mul X).mul syn := (mul_assoc hsel hXs hsyn).symm
    _ = syn := by rw [(mul_eq_identity_comm hsel hXs).mpr hleft, identity_mul hsyn]

end

/-- Settles O33: ISD's checks in order, then its first loop state. -/
theorem isdChecksAndLatches : Obligations.IsdChecksAndLatches := by
  refine fun md ms1 ms2 t => ⟨fun ht => ?_, fun s hsc => ?_⟩
  · exact decode_commandWord (.isd md ms1 ms2 t) (decide_eq_true ht) (by decide) (by omega) ht (by decide) rfl
  rw [exec_isd_start hsc]
  refine ⟨fun h1 => withSlot_none h1, fun H h1 h2 => ?_, fun H syn h1 h2 => ?_⟩
  · rw [withSlot_some h1, withSlot_none h2]; rfl
  rw [withSlot_some h1, withSlot_some h2]
  refine ⟨fun hshape => check_neg hshape, fun hle hsyn hfit => ?_, fun hle hsyn hr hc hw => ?_⟩
  · exact (check_pos ⟨hle, hsyn⟩).trans (check_neg fun h => hfit ((fitsSlot_iff ..).mp h))
  · exact (check_pos ⟨hle, hsyn⟩).trans (check_pos ((fitsSlot_iff ..).mpr ⟨hr, hc, hw⟩))

/-- Settles O34: the branches of the top of the loop, and that a trial's step ends only in success. -/
theorem isdStopsAtBudgetOrAbort : Obligations.IsdStopsAtBudgetOrAbort := by
  intro md ms1 ms2 t s sc hsc hdrawn
  rw [exec_isd_loop hsc, isdPass_top hdrawn, isdTop]
  refine ⟨fun hb ht => ?_, fun hb habort => ?_, fun hb habort => ?_, fun s' t' sc' idx hsc' hd hexec herr => ?_⟩
  · rw [if_pos ⟨hb, ht⟩, ← ht]; rfl
  · rw [if_neg (by tauto), if_pos habort]; rfl
  · rw [if_neg (by tauto), if_neg (Bool.eq_false_iff.mp habort)]; rfl
  · rw [exec_isd_loop hsc'] at hexec
    rcases isdPass_trial hd with ⟨sc'', s'', hgo, -, herr''⟩ | ⟨X, -, -, -, hdone⟩
    · rw [hgo, goOn_eq] at hexec
      cases hexec
      exact herr''.symm.trans herr
    · rw [hdone, isdSucceed_eq] at hexec
      cases hexec
      cases herr

/-- Settles O35: what one step of a trial does. -/
theorem isdTrialCountsAndContinues : Obligations.IsdTrialCountsAndContinues := by
  intro md ms1 ms2 t s sc idx hsc hdrawn
  rw [exec_isd_loop hsc]
  refine ⟨fun x s' hd hlt => ?_, fun e hle hinv => ?_, fun X hle hinv hw => ?_, fun X hle hinv hw => ?_⟩
  · rw [isdPass_draw hdrawn hlt hd, acceptColumn_eq_ite]; rfl
  · rw [isdPass_try hdrawn hle, isdTry_singular hinv]; rfl
  · rw [isdPass_try hdrawn hle, isdTry_miss hinv hw, IsdScratch.counted]
    refine ⟨fun hlow => ?_, fun hhigh => ?_⟩
    · rw [if_pos hlow]; rfl
    · rw [if_neg (Nat.not_lt.mpr hhigh)]; rfl
  · rw [isdPass_try hdrawn hle, isdTry_hit hinv hw, isdSucceed_eq]
    exact ⟨_, rfl, rfl, rfl, rfl⟩

/-- Settles O36: a hit ends ISD with the scattered candidate. -/
theorem isdSuccessScattersTheCandidate : Obligations.IsdSuccessScattersTheCandidate := by
  intro md ms1 ms2 t s sc idx X hsc hdrawn hlen hcols hinv hw hsyn
  refine ⟨_, BitMatrix.hasShape_scatter .., fun a ha => BitMatrix.get_scatter_at hcols ha,
    fun i hi => BitMatrix.get_scatter_off hi, ?_⟩
  rw [exec_isd_loop hsc, isdPass_try hdrawn hlen.ge, isdTry_hit hinv hw, isdSucceed_eq, hw, IsdScratch.counted, hw]

/-- Settles O37: ISD ends without error only by a hit, whose candidate solves H e = s. -/
theorem isdResultSolvesTheInstance : Obligations.IsdResultSolvesTheInstance := by
  intro md ms1 ms2 t s s' sc hsafe hsc hexec hidle herr
  have hbusy : s.engine ≠ .idle := fun h => by
    have := hsafe.idle h
    rw [hsc] at this
    cases this
  have hscratch := hsafe.scratch
  rw [hsc] at hscratch
  obtain ⟨-, -, -, hsyn, hdrawn⟩ := hscratch
  rw [exec_isd_loop hsc] at hexec
  cases hd : sc.drawn with
  | none =>
    rw [isdPass_top hd, isdTop] at hexec
    split_ifs at hexec
    · cases hexec; cases herr
    · cases hexec; cases herr
    · cases hexec; exact absurd hidle hbusy
  | some idx =>
    obtain ⟨hle, hcols⟩ := hdrawn idx hd
    rcases isdPass_trial hd with ⟨sc'', s'', hgo, hengine, -⟩ | ⟨X, hge, hinv, hw, hdone⟩
    · rw [hgo, goOn_eq] at hexec
      cases hexec
      exact absurd (hengine.symm.trans hidle) hbusy
    · have hlen : idx.length = sc.H.rows := le_antisymm hle hge
      rw [hdone, isdSucceed_eq] at hexec
      cases hexec
      refine ⟨_, slot_withSlotSet_self .., BitMatrix.hasShape_scatter .., ?_, ?_⟩
      · exact BitMatrix.mul_scatter_of_invert hcols hlen hsyn hinv
      · have hX := BitMatrix.shape_of_invert hinv
        rw [BitMatrix.rows_selectCols] at hX
        have he : (X.mul sc.syn).HasShape idx.length 1 :=
          ⟨(BitMatrix.rows_mul ..).trans (hX.1.trans hlen.symm), hsyn.2⟩
        exact (BitMatrix.hw_scatter hcols he).trans hw

end Sys2Proof.Machine
end

section
/-! PROOF. The vectors of BITFLIP (43_bitflip.md section 2): stacking, the vote, and the flip, bit by bit. -/

namespace Sys2Proof.Machine

section
variable {u v : BitMatrix}

theorem BitMatrix.get_stack_left {i : Nat} (hi : i < u.rows) : (u.stack v).get i 0 = u.get i 0 := by
  simp [stack, hi, Nat.lt_add_right v.rows hi]

theorem BitMatrix.get_stack_right {i : Nat} (hi : i < v.rows) : (u.stack v).get (u.rows + i) 0 = v.get i 0 := by
  simp [stack, hi]

theorem BitMatrix.hasShape_stack {n : Nat} (hu : u.rows = n) (hv : v.rows = n) : (u.stack v).HasShape (2 * n) 1 :=
  ⟨by rw [rows_stack, hu, hv, Nat.two_mul], rfl⟩

theorem get_rowsFrom {lo n i : Nat} (x : BitMatrix) (hi : i < n) : (rowsFrom lo n x).get i 0 = x.get (lo + i) 0 := by
  simp [rowsFrom, hi]

theorem hasShape_rowsFrom (lo n : Nat) (x : BitMatrix) : (rowsFrom lo n x).HasShape n 1 :=
  ⟨BitMatrix.rows_ofFn .., rfl⟩

theorem BitMatrix.add_comm {A B : BitMatrix} {r c : Nat} (hA : A.HasShape r c) (hB : B.HasShape r c) :
    A.add B = B.add A := by
  rw [← toMatrix_inj hA.add hB.add, toMatrix_add hA hB, toMatrix_add hB hA]
  abel

theorem BitMatrix.add_assoc {A B C : BitMatrix} {r c : Nat} (hA : A.HasShape r c) (hB : B.HasShape r c)
    (hC : C.HasShape r c) : (A.add B).add C = A.add (B.add C) := by
  rw [← toMatrix_inj hA.add.add hA.add, toMatrix_add hA.add hC, toMatrix_add hA hB, toMatrix_add hA hB.add,
    toMatrix_add hB hC]
  abel

end

/-- The syndrome bits implicated with column j of H (43_bitflip.md R295). -/
def implicated (syn H : BitMatrix) (j : Nat) : Finset Nat :=
  (Finset.range H.rows).filter fun i => syn.get i 0 = true ∧ H.get i j = true

/-- The flip of one iteration (43_bitflip.md R295, R296). -/
def bitflipFlip (sc : BitflipScratch) : BitMatrix := flipVector sc.threshold (vote sc.syn sc.H)

section
variable {syn H : BitMatrix}

theorem sharedOnes_transpose (hsyn : syn.HasShape H.rows 1) (j : Nat) :
    sharedOnes syn.transpose H 0 j = implicated syn H j := by
  obtain ⟨hr, hc⟩ := hsyn
  rw [sharedOnes, implicated, BitMatrix.cols_transpose, hr]
  refine Finset.filter_congr fun k hk => ?_
  rw [BitMatrix.get_transpose (by omega) (hr.symm ▸ Finset.mem_range.mp hk)]

/-- The vote of column j counts the implicated syndrome bits. -/
theorem getD_vote (hsyn : syn.HasShape H.rows 1) {j : Nat} (hj : j < H.cols) :
    (vote syn H).getD j 0 = (implicated syn H j).card := by
  have hrows : 0 < syn.transpose.rows := by rw [BitMatrix.rows_transpose, hsyn.2]; exact Nat.one_pos
  have hentry := BitMatrix.getElem?_counts hrows hj
  rw [Nat.zero_mul, Nat.zero_add, BitMatrix.countAt_eq_card, sharedOnes_transpose hsyn] at hentry
  rw [vote, List.getD_eq_getElem?_getD, hentry]
  rfl

theorem length_vote (hsyn : syn.HasShape H.rows 1) : (vote syn H).length = H.cols := by
  rw [vote, BitMatrix.length_counts, BitMatrix.rows_transpose, hsyn.2, Nat.one_mul]

end

section
variable {sc : BitflipScratch}

theorem hasShape_bitflipFlip (hsyn : sc.syn.HasShape sc.H.rows 1) : (bitflipFlip sc).HasShape sc.H.cols 1 :=
  ⟨(BitMatrix.rows_ofFn ..).trans (length_vote hsyn), rfl⟩

/-- Column j flips when its vote reaches the threshold. -/
theorem get_bitflipFlip (hsyn : sc.syn.HasShape sc.H.rows 1) {j : Nat} (hj : j < sc.H.cols) :
    (bitflipFlip sc).get j 0 = decide (sc.threshold ≤ (implicated sc.syn sc.H j).card) := by
  rw [bitflipFlip, flipVector, BitMatrix.get_ofFn, length_vote hsyn, getD_vote hsyn hj]
  simp [hj]

theorem sharedOnes_bitflipFlip (hsyn : sc.syn.HasShape sc.H.rows 1) (i : Nat) :
    sharedOnes sc.H (bitflipFlip sc) i 0 = (Finset.range sc.H.cols).filter fun j =>
      sc.H.get i j = true ∧ sc.threshold ≤ (implicated sc.syn sc.H j).card :=
  Finset.filter_congr fun j hj => by
    rw [get_bitflipFlip hsyn (Finset.mem_range.mp hj), decide_eq_true_eq]

end

end Sys2Proof.Machine
end

section
/-! PROOF. BITFLIP's checks, its iterations and its ends (43_bitflip.md R290 to R304; steps of log 3). -/

namespace Sys2Proof.Machine

section
variable {md ms1 ms2 ms3 : SlotId} {T t : Nat} {s : State} {sc : BitflipScratch}

theorem exec_bitflip_start (h : s.scratch = .none) :
    exec (.bitflip md ms1 ms2 ms3 T t) s =
      withSlot .ms1 ms1 s fun h0 => withSlot .ms2 ms2 s fun h1 => withSlot .ms3 ms3 s fun c =>
      check (h0.cols = h0.rows ∧ h1.rows = h0.rows ∧ h1.cols = h0.rows ∧ c.rows = h0.rows ∧ c.cols = 1)
        .shapeMismatch 0 s <|
      check (fitsSlot s.params (2 * h0.rows) 1) .alloc 0 s <|
      goOn (.bitflip (bitflipSetup h0 h1 c T t s.bfMax)) s := by
  show execBitflip md ms1 ms2 ms3 T t s = _
  rw [execBitflip, h]

theorem exec_bitflip_loop (h : s.scratch = .bitflip sc) :
    exec (.bitflip md ms1 ms2 ms3 T t) s = bitflipPass md sc s := by
  show execBitflip md ms1 ms2 ms3 T t s = _
  rw [execBitflip, h]

theorem bitflipStops_iff : bitflipStops sc = true ↔ (sc.u.hw = sc.t ∧ sc.v.hw = sc.t) ∨ sc.syn.hw = 0 := by
  simp [bitflipStops]

/-- BITFLIP's success (43_bitflip.md R302). -/
theorem bitflipPass_success (hstop : bitflipStops sc = true) (hres : (residual sc).hw = 0) :
    bitflipPass md sc s =
      .next ({ s with bfIters := sc.it, res := 1, flag := true }.withSlotSet md (sc.u.stack sc.v)).completed := by
  rw [bitflipPass, if_pos hstop, if_pos hres, completeWith_eq_completed]
  rfl

/-- BITFLIP's failures (43_bitflip.md R300 to R303). -/
theorem bitflipFail_eq (code : ErrCode) (info : Nat) (sc : BitflipScratch) (s : State) :
    bitflipFail code info sc s =
      .next ({ s with bfIters := sc.it, res := 0, flag := false }.raised code (BitVec.ofNat 64 info)) := rfl

theorem bitflipPass_residual (hstop : bitflipStops sc = true) (hres : (residual sc).hw ≠ 0) :
    bitflipPass md sc s = bitflipFail .decodeFailure 0 sc s := by
  rw [bitflipPass, if_pos hstop, if_neg hres]

theorem bitflipPass_budget (hstop : bitflipStops sc ≠ true) (hb : sc.budget ≠ 0 ∧ sc.it = sc.budget) :
    bitflipPass md sc s = bitflipFail .decodeFailure 1 sc s := by
  rw [bitflipPass, if_neg hstop, if_pos hb]

theorem bitflipPass_abort (hstop : bitflipStops sc ≠ true) (hb : ¬ (sc.budget ≠ 0 ∧ sc.it = sc.budget))
    (ha : s.abortReq = true) : bitflipPass md sc s = bitflipFail .aborted 0 sc s := by
  rw [bitflipPass, if_neg hstop, if_neg hb, if_pos ha]

theorem bitflipPass_iterate (hstop : bitflipStops sc ≠ true) (hb : ¬ (sc.budget ≠ 0 ∧ sc.it = sc.budget))
    (ha : s.abortReq = false) : bitflipPass md sc s = goOn (.bitflip (bitflipIterate sc)) s := by
  rw [bitflipPass, if_neg hstop, if_neg hb, if_neg (Bool.eq_false_iff.mp ha)]

/-- A pass ends in success, ends in an error, or goes on, which it does not at the budget. -/
theorem bitflipPass_cases (md : SlotId) (sc : BitflipScratch) (s : State) :
    (bitflipStops sc = true ∧ (residual sc).hw = 0) ∨
    (∃ code info, code ≠ ErrCode.none ∧ bitflipPass md sc s = bitflipFail code info sc s) ∨
    (¬ (sc.budget ≠ 0 ∧ sc.it = sc.budget) ∧ bitflipPass md sc s = goOn (.bitflip (bitflipIterate sc)) s) := by
  by_cases hstop : bitflipStops sc = true
  · by_cases hres : (residual sc).hw = 0
    · exact .inl ⟨hstop, hres⟩
    · exact .inr (.inl ⟨.decodeFailure, 0, by decide, bitflipPass_residual hstop hres⟩)
  refine .inr ?_
  by_cases hb : sc.budget ≠ 0 ∧ sc.it = sc.budget
  · exact .inl ⟨.decodeFailure, 1, by decide, bitflipPass_budget hstop hb⟩
  cases ha : s.abortReq with
  | true => exact .inl ⟨.aborted, 0, by decide, bitflipPass_abort hstop hb ha⟩
  | false => exact .inr ⟨hb, bitflipPass_iterate hstop hb ha⟩

/-- In a safe loop state the residual is the running syndrome (43_bitflip.md R304). -/
theorem residual_eq_syn {p : Params} (h : sc.Safe p) : residual sc = sc.syn := by
  obtain ⟨-, -, hv, hs0, -, hH, hsyn⟩ := h
  rw [hsyn, residual]
  exact BitMatrix.add_comm (hH.mul (BitMatrix.hasShape_stack rfl hv.1)) hs0

/-- The residual is zero exactly when H (u above v) and s0 agree. -/
theorem hw_residual_eq_zero {n : Nat} (hs0 : sc.s0.HasShape n 1) (hH : sc.H.HasShape n (2 * n)) :
    (residual sc).hw = 0 ↔ ∀ i < n, (sc.H.mul (sc.u.stack sc.v)).get i 0 = sc.s0.get i 0 := by
  have hrows : (sc.H.mul (sc.u.stack sc.v)).rows = n := (BitMatrix.rows_mul ..).trans hH.1
  rw [BitMatrix.hw_eq_zero]
  simp [residual, hrows, BitMatrix.get_add (hrows.trans hs0.1.symm) hs0.2.symm]

/-- Row i and column j + 1 of a rotated transpose hold row j and column i. -/
theorem get_transpose_rot_one {M : BitMatrix} {n i j : Nat} (hM : M.HasShape n n) (hi : i < n) (hj : j < n) :
    (M.transpose.rot 1).get i ((j + 1) % n) = M.get j i := by
  obtain ⟨rfl, hc⟩ := hM
  have hi' : i < M.cols := hc.symm ▸ hi
  exact (BitMatrix.get_rot M.transpose 1 ((BitMatrix.rows_transpose M).symm ▸ hi') hj).trans
    (BitMatrix.get_transpose hi' hj)

theorem hasShape_parityOf {h0 h1 : BitMatrix} {n : Nat} (hh0 : h0.HasShape n n) (hh1 : h1.HasShape n n) :
    (parityOf h0 h1).HasShape n (2 * n) := by
  constructor
  · rw [parityOf, BitMatrix.rows_concat, BitMatrix.rows_rot, BitMatrix.rows_transpose, hh0.2]
  · rw [parityOf, BitMatrix.cols_concat, BitMatrix.cols_rot, BitMatrix.cols_rot, BitMatrix.cols_transpose,
      BitMatrix.cols_transpose, hh0.1, hh1.1, Nat.two_mul]

/-- The cells of H as BITFLIP sets it up (43_bitflip.md R293). -/
theorem get_parityOf {h0 h1 : BitMatrix} {n i j : Nat} (hh0 : h0.HasShape n n) (hh1 : h1.HasShape n n) (hi : i < n)
    (hj : j < n) :
    (parityOf h0 h1).get i ((j + 1) % n) = h0.get j i ∧ (parityOf h0 h1).get i (n + (j + 1) % n) = h1.get j i := by
  have hrows : i < (h0.transpose.rot 1).rows := by
    rw [BitMatrix.rows_rot, BitMatrix.rows_transpose, hh0.2]; exact hi
  have hcols {M : BitMatrix} (hM : M.HasShape n n) : (M.transpose.rot 1).cols = n := by
    rw [BitMatrix.cols_rot, BitMatrix.cols_transpose, hM.1]
  have hlt : (j + 1) % n < n := Nat.mod_lt _ (Nat.zero_lt_of_lt hj)
  constructor
  · rw [parityOf, BitMatrix.get_concat_left hrows ((hcols hh0).symm ▸ hlt), get_transpose_rot_one hh0 hi hj]
  · have hlt1 : (j + 1) % n < (h1.transpose.rot 1).cols := (hcols hh1).symm ▸ hlt
    have hright := BitMatrix.get_concat_right hrows hlt1
    rw [hcols hh0] at hright
    exact hright.trans (get_transpose_rot_one hh1 hi hj)

/-- A BITFLIP with a budget ends once its iterations have used the budget up. -/
theorem bitflip_loop_ends (d : Nat) (h : Running (.bitflip md ms1 ms2 ms3 T t) (.bitflip sc) s) (hb : sc.budget ≠ 0)
    (hd : sc.budget.toNat = sc.it.toNat + d) : ReachesWithin (d + 1) (fun t => t.engine = .idle) s := by
  induction d generalizing s sc with
  | zero =>
    have hstep := h.step_eq
    rw [exec_bitflip_loop h.scratch] at hstep
    rcases bitflipPass_cases md sc s with ⟨hstop, hres⟩ | ⟨code, info, -, hfail⟩ | ⟨hit, -⟩
    · exact reachesWithin_one (hstep.trans (bitflipPass_success hstop hres)) (by rfl) 0
    · exact reachesWithin_one (hstep.trans (hfail.trans (bitflipFail_eq ..))) (by rfl) 0
    · exact absurd ⟨hb, BitVec.eq_of_toNat_eq hd.symm⟩ hit
  | succ d ih =>
    have hstep := h.step_eq
    rw [exec_bitflip_loop h.scratch] at hstep
    rcases bitflipPass_cases md sc s with ⟨hstop, hres⟩ | ⟨code, info, -, hfail⟩ | ⟨-, hgo⟩
    · exact reachesWithin_one (hstep.trans (bitflipPass_success hstop hres)) (by rfl) _
    · exact reachesWithin_one (hstep.trans (hfail.trans (bitflipFail_eq ..))) (by rfl) _
    · have hlt := sc.budget.isLt
      have hit : (sc.it + 1).toNat = sc.it.toNat + 1 := by bv_omega
      have hnext : Running (.bitflip md ms1 ms2 ms3 T t) (.bitflip (bitflipIterate sc)) _ :=
        h.goesOn s.prng s.drawInputs
      refine (ih hnext hb ?_).after_step (hstep.trans hgo)
      calc sc.budget.toNat = (sc.it + 1).toNat + d := by omega
        _ = (bitflipIterate sc).it.toNat + d := rfl

/-- The step that checks BITFLIP's operands ends it or starts its loop at iteration 0. -/
theorem bitflip_start_cases (h : s.scratch = .none) :
    AllNext (fun u => u.engine = .idle ∨ ∃ sc, u = s.setScratch (.bitflip sc) ∧ sc.budget = s.bfMax ∧ sc.it = 0)
      (exec (.bitflip md ms1 ms2 ms3 T t) s) := by
  have hraise (e : ErrCode) (n : Nat) : (s.finish e n).engine = .idle := rfl
  rw [exec_bitflip_start h]
  exact allNext_withSlot (fun e n => .inl (hraise e n)) fun h0 _ =>
    allNext_withSlot (fun e n => .inl (hraise e n)) fun h1 _ =>
    allNext_withSlot (fun e n => .inl (hraise e n)) fun c _ =>
    allNext_check (fun e n => .inl (hraise e n)) fun _ =>
    allNext_check (fun e n => .inl (hraise e n)) fun _ => allNext_next (.inr ⟨_, rfl, rfl, rfl⟩)

end

/-- Settles O38: BITFLIP's checks in order, and its first loop state. -/
theorem bitflipChecksAndSetup : Obligations.BitflipChecksAndSetup := by
  refine fun md ms1 ms2 ms3 T t => ⟨fun hT ht => ?_, fun s hsc => ?_⟩
  · exact decode_commandWord (.bitflip md ms1 ms2 ms3 T t) 
      (by simp only [Instr.wellFormed, fitsImm20, hT, ht, decide_true, Bool.and_self]) (by decide) (by omega) hT ht rfl
  rw [exec_bitflip_start hsc]
  refine ⟨fun h1 => withSlot_none h1, fun h0 h1 h2 => ?_, fun h0 h1 e1 e2 e3 => ?_, fun h0 h1 c e1 e2 e3 => ?_⟩
  · rw [withSlot_some h1, withSlot_none h2]; rfl
  · rw [withSlot_some e1, withSlot_some e2, withSlot_none e3]; rfl
  rw [withSlot_some e1, withSlot_some e2, withSlot_some e3]
  refine ⟨fun hshape => check_neg fun ⟨hc0, hr1, hc1, hrc, hcc⟩ => hshape ⟨⟨rfl, hc0⟩, ⟨hr1, hc1⟩, hrc, hcc⟩,
    fun hh0 hh1 hc => ?_⟩
  rw [check_pos ⟨hh0.2, hh1.1, hh1.2, hc.1, hc.2⟩]
  refine ⟨fun hfit => check_neg fun h => hfit ((fitsSlot_iff ..).mp h), fun hr hone hw => ?_⟩
  rw [check_pos ((fitsSlot_iff ..).mpr ⟨hr, hone, hw⟩), goOn_eq]
  exact ⟨_, rfl, rfl, rfl, rfl, rfl, rfl, rfl, rfl, rfl, hasShape_parityOf hh0 hh1,
    fun i j hi hj => get_parityOf hh0 hh1 hi hj⟩

/-- Settles O39: the cells of an iteration's u, v and syndrome. -/
theorem bitflipIterationFlipsByVote : Obligations.BitflipIterationFlipsByVote := by
  intro md ms1 ms2 ms3 T t s sc n hsc hu hv hsyn hH hstop hb ha
  have hsyn' : sc.syn.HasShape sc.H.rows 1 := hH.1.symm ▸ hsyn
  have hcount (j : Nat) : implicated sc.syn sc.H j =
      (Finset.range n).filter fun i => sc.syn.get i 0 = true ∧ sc.H.get i j = true := by rw [implicated, hH.1]
  have hexec : exec (.bitflip md ms1 ms2 ms3 T t) s = goOn (.bitflip (bitflipIterate sc)) s := by
    rw [exec_bitflip_loop hsc, bitflipPass_iterate (fun h => hstop (bitflipStops_iff.mp h)) (by tauto) ha]
  have hflip {j : Nat} (hj : j < 2 * n) := get_bitflipFlip hsyn' (hH.2.symm ▸ hj)
  refine ⟨_, _, _, hu.add, hv.add, hsyn.add, fun j hj => ?_, fun j hj => ?_, fun i hi => ?_, hexec⟩
  · have hshape := hasShape_rowsFrom 0 sc.u.rows (bitflipFlip sc)
    refine (BitMatrix.get_add hshape.1.symm hu.2 ..).trans ?_
    rw [get_rowsFrom _ (hu.1.symm ▸ hj), Nat.zero_add]
    exact congrArg _ ((hflip (by omega)).trans (by rw [hcount]))
  · have hshape := hasShape_rowsFrom sc.u.rows sc.v.rows (bitflipFlip sc)
    refine (BitMatrix.get_add hshape.1.symm hv.2 ..).trans ?_
    rw [get_rowsFrom _ (hv.1.symm ▸ hj), hu.1]
    exact congrArg _ ((hflip (by omega)).trans (by rw [hcount]))
  · have hmul := hH.mul (hH.2 ▸ hasShape_bitflipFlip hsyn')
    refine (BitMatrix.get_add (hsyn.1.trans hmul.1.symm) (hsyn.2.trans hmul.2.symm) ..).trans ?_
    have hget := BitMatrix.get_mul (B := bitflipFlip sc) (j := 0) (hH.1.symm ▸ hi) Nat.one_pos
    rw [sharedOnes_bitflipFlip hsyn', hH.2] at hget
    simp only [hcount] at hget
    exact congrArg _ hget

/-- Settles O40: the four ends, the first two told apart by the residual. -/
theorem bitflipEnds : Obligations.BitflipEnds := by
  intro md ms1 ms2 ms3 T t s sc n hsc hu hv hs0 hH
  rw [exec_bitflip_loop hsc]
  refine ⟨sc.u.stack sc.v, BitMatrix.hasShape_stack hu.1 hv.1,
    fun j hj => BitMatrix.get_stack_left (hu.1.symm ▸ hj), fun j hj => ?_, fun hstop hres => ?_,
    fun hstop i hi hne => ?_, fun hstop hb hit => ?_, fun hstop hb ha => ?_⟩
  · rw [← hu.1]; exact BitMatrix.get_stack_right (hv.1.symm ▸ hj)
  · exact bitflipPass_success (bitflipStops_iff.mpr hstop) ((hw_residual_eq_zero hs0 hH).mpr hres)
  · exact bitflipPass_residual (bitflipStops_iff.mpr hstop) fun h => hne ((hw_residual_eq_zero hs0 hH).mp h i hi)
  · exact bitflipPass_budget (fun h => hstop (bitflipStops_iff.mp h)) ⟨hb, hit⟩
  · exact bitflipPass_abort (fun h => hstop (bitflipStops_iff.mp h)) (by tauto) ha

/-- Settles O41: in a safe loop state the residual is the running syndrome, and only success ends without error. -/
theorem bitflipSucceedsExactlyAtZeroSyndrome : Obligations.BitflipSucceedsExactlyAtZeroSyndrome := by
  intro md ms1 ms2 ms3 T t s s' sc hsafe hsc hexec
  have hscratch := hsafe.scratch
  rw [hsc] at hscratch
  have hres : residual sc = sc.syn := residual_eq_syn hscratch
  rw [exec_bitflip_loop hsc] at hexec
  constructor
  · rintro ⟨hidle, herr⟩
    rcases bitflipPass_cases md sc s with ⟨-, hzero⟩ | ⟨code, info, hcode, hfail⟩ | ⟨-, hgo⟩
    · exact hres ▸ hzero
    · rw [hfail, bitflipFail_eq] at hexec
      cases hexec
      exact absurd herr hcode
    · rw [hgo, goOn_eq] at hexec
      cases hexec
      have := hsafe.idle hidle
      rw [hsc] at this
      cases this
  · intro hzero
    rw [bitflipPass_success (bitflipStops_iff.mpr (.inr hzero)) (hres.symm ▸ hzero)] at hexec
    cases hexec
    exact ⟨rfl, rfl⟩

/-- Settles O42: one step checks, then the loop uses its budget up. -/
theorem bitflipEndsWithinItsBudget : Obligations.BitflipEndsWithinItsBudget := by
  intro s md ms1 ms2 ms3 T t hin hb hd hsc hmax
  have hrun : Running (.bitflip md ms1 ms2 ms3 T t) .none s := ⟨hin, hb, hd, hsc⟩
  obtain ⟨u, hu⟩ := (engineStep_exists_next s)
  have hstep : step s = .next u := by rw [step_quiet_busy hin hb]; exact hu
  have hexec := hrun.step_eq.symm.trans hstep
  rcases bitflip_start_cases hsc u hexec with hidle | ⟨sc, rfl, hbudget, hit⟩
  · exact ⟨1, u, by omega, runSteps_one hstep, hidle⟩
  · have hloop := bitflip_loop_ends sc.budget.toNat (hrun.goesOn (sc' := .bitflip sc) s.prng s.drawInputs)
      (hbudget ▸ hmax) (by rw [hit]; simp)
    rw [hbudget] at hloop
    exact hloop.after_step hstep

end Sys2Proof.Machine
end

section
/-! PROOF. What keeps a state safe: writes of matrices that fit, of a consistent CNT, of an XIDX of distinct columns,
and loop states that go on (10_state.md section 1, section 2). -/

namespace Sys2Proof.Machine

section
variable {p : Params} {M N : BitMatrix}

theorem BitMatrix.Fits.of_fitsSlot {r c : Nat} (h : fitsSlot p r c = true) (hN : N.HasShape r c) : N.Fits p := by
  obtain ⟨rfl, rfl⟩ := hN
  exact (fitsSlot_iff ..).mp h

theorem BitMatrix.Fits.of_hasShape (h : M.Fits p) (hN : N.HasShape M.rows M.cols) : N.Fits p :=
  .of_fitsSlot ((fitsSlot_iff ..).mpr h) hN

theorem fitsSlot_of_fitsWords {r c : Nat} (hr : r ≤ p.maxDim.toNat) (hc : c ≤ p.maxDim.toNat)
    (h : fitsWords p r c = true) : fitsSlot p r c = true := by
  rw [fitsSlot, decide_eq_true hr, decide_eq_true hc, h]; rfl

/-- Fewer columns fit too. -/
theorem BitMatrix.Fits.of_cols_le (h : M.Fits p) (hr : N.rows = M.rows) (hc : N.cols ≤ M.cols) : N.Fits p := by
  obtain ⟨hrows, hcols, hwords⟩ := h
  rw [← hr] at hrows hwords
  exact ⟨hrows, hc.trans hcols, (Nat.mul_le_mul_left _ (nwords_mono p hc)).trans hwords⟩

/-- A new column keeps the accepted ones distinct. -/
theorem ColumnList.acceptColumn {c x : Nat} {idx : List Nat} (h : ColumnList c idx) (hx : x < c) :
    ColumnList c (acceptColumn idx x) := by
  obtain ⟨hnodup, hrange⟩ := h
  by_cases hmem : x ∈ idx
  · rw [acceptColumn_of_mem hmem]; exact ⟨hnodup, hrange⟩
  · rw [acceptColumn_of_not_mem hmem]
    refine ⟨List.nodup_append.mpr ⟨hnodup, List.nodup_singleton x, ?_⟩, ?_⟩
    · rintro a ha b hb rfl
      exact hmem (List.mem_singleton.mp hb ▸ ha)
    · intro y hy
      rcases List.mem_append.mp hy with hy | hy
      · exact hrange y hy
      · exact List.mem_singleton.mp hy ▸ hx

end

/-- The part of the invariant about the parameters, the slots and the buffers. -/
structure State.StorageSafe (s : State) : Prop where
  params : s.params.legal = true
  slots : ∀ d M, s.slot d = some M → M.Fits s.params
  cnt : ∀ c, s.cnt = some c → c.Safe s.params
  xidx : ∀ l, s.xidx = some l →
    l.Nodup ∧ l.length ≤ s.params.xidxCap ∧ ∀ x ∈ l, x.toNat < s.params.maxDim.toNat

section
variable {s u : State} {M : BitMatrix}

theorem State.Safe.storage (h : s.Safe) : s.StorageSafe := ⟨h.params, h.slots, h.cnt, h.xidx⟩

theorem State.StorageSafe.setSlot (h : s.StorageSafe) (d : SlotId) (hM : M.Fits s.params) :
    (s.setSlot d M).StorageSafe := by
  refine ⟨h.params, fun e N hN => ?_, h.cnt, h.xidx⟩
  by_cases hed : e = d
  · rw [hed, slot_setSlot_self] at hN
    cases hN
    exact hM
  · rw [slot_setSlot_ne M s hed] at hN
    exact h.slots e N hN

theorem State.StorageSafe.setCnt (h : s.StorageSafe) {c : CountBuffer} (hc : c.Safe s.params) :
    (s.setCnt c).StorageSafe :=
  ⟨h.params, h.slots, fun _ heq => Option.some.inj heq ▸ hc, h.xidx⟩

/-- Columns of a matrix that fits are below 2^20, so XIDX keeps them distinct. -/
theorem State.StorageSafe.setXidx (h : s.StorageSafe) {idx : List Nat} {c : Nat} (hidx : ColumnList c idx)
    (hlen : idx.length ≤ s.params.maxDim.toNat) (hc : c ≤ s.params.maxDim.toNat) : (s.setXidx idx).StorageSafe := by
  obtain ⟨hnodup, hrange⟩ := hidx
  have hval {x : Nat} (hx : x ∈ idx) : (BitVec.ofNat 20 x).toNat = x := by
    rw [BitVec.toNat_ofNat]
    exact Nat.mod_eq_of_lt (((hrange x hx).trans_le hc).trans s.params.maxDim.isLt)
  refine ⟨h.params, h.slots, h.cnt, fun l hl => ?_⟩
  obtain rfl : idx.map (BitVec.ofNat 20) = l := Option.some.inj hl
  refine ⟨hnodup.map_on fun x hx y hy hxy => ?_, by rw [List.length_map]; exact hlen, fun v hv => ?_⟩
  · rw [← hval hx, ← hval hy, hxy]
  · obtain ⟨x, hx, rfl⟩ := List.mem_map.mp hv
    rw [hval hx]
    exact (hrange x hx).trans_le hc

theorem State.StorageSafe.setResFlag (h : s.StorageSafe) (r : Nat) (b : Bool) : (s.setResFlag r b).StorageSafe :=
  ⟨h.params, h.slots, h.cnt, h.xidx⟩

theorem State.StorageSafe.setIsdCounters (h : s.StorageSafe) (sc : IsdScratch) : (s.setIsdCounters sc).StorageSafe :=
  ⟨h.params, h.slots, h.cnt, h.xidx⟩

theorem State.StorageSafe.setBfIters (h : s.StorageSafe) (it : Word) : (s.setBfIters it).StorageSafe :=
  ⟨h.params, h.slots, h.cnt, h.xidx⟩

/-- A command that ends leaves a safe state. -/
theorem State.StorageSafe.finish (h : s.StorageSafe) (e : ErrCode) (n : Nat) : (s.finish e n).Safe where
  params := h.params
  slots := h.slots
  cnt := h.cnt
  xidx := h.xidx
  scratch := trivial
  idle := fun _ => rfl
  busy := nofun

theorem State.StorageSafe.complete (h : s.StorageSafe) : AllNext State.Safe (complete s) :=
  allNext_next (h.finish _ _)

theorem State.StorageSafe.raise (h : s.StorageSafe) (e : ErrCode) (n : Nat) : AllNext State.Safe (raise e n s) :=
  allNext_next (h.finish e n)

theorem State.StorageSafe.completeWith (h : s.StorageSafe) (d : SlotId) (hM : M.Fits s.params) :
    AllNext State.Safe (completeWith d M s) :=
  (h.setSlot d hM).complete

theorem State.Safe.finish (h : s.Safe) (e : ErrCode) (n : Nat) : (s.finish e n).Safe := h.storage.finish e n

/-- A command that goes on, after draws or without, leaves a safe state when its loop state is safe. -/
theorem State.Safe.goOn (h : s.Safe) (hb : s.engine = .busy) {sc : Scratch} (hsc : sc.Safe s.params)
    (hu : ∃ g l, u = { s with prng := g, drawInputs := l }) : AllNext State.Safe (goOn sc u) := by
  obtain ⟨g, l, rfl⟩ := hu
  refine allNext_next ⟨h.params, h.slots, h.cnt, h.xidx, hsc, fun hidle => ?_, h.busy⟩
  have hidle : s.engine = .idle := hidle
  rw [hb] at hidle
  cases hidle

end

end Sys2Proof.Machine
end

section
/-! PROOF. The loops keep their loop states safe and end with what fits (40_matrix_basic.md R156, 41_matrix_algebra.md
R200, 42_prange_isd.md R260, 43_bitflip.md R290). -/

namespace Sys2Proof.Machine

/-- TGTWT's loop state stays safe when a draw below its weight adds at most one 1. -/
theorem safe_addCell {p : Params} {M : BitMatrix} {w x : Nat} (hfits : M.Fits p) (hcap : w < M.rows * M.cols)
    (hlt : M.hw < w) (hx : x < M.rows * M.cols) : Scratch.Safe p (.tgtwt (addCell M x) w) := by
  obtain ⟨hrow, hcol⟩ := cell_in_range hx
  cases hcell : M.get (x / M.cols) (x % M.cols) with
  | true => rw [addCell_of_one hcell]; exact ⟨hfits, hcap, hlt.le⟩
  | false =>
    rw [addCell_of_zero hcell]
    refine ⟨hfits.of_hasShape ⟨M.rows_setBit .., rfl⟩, by rw [M.rows_setBit, M.cols_setBit]; exact hcap, ?_⟩
    rw [BitMatrix.hw_setBit_true hrow hcol hcell]
    exact hlt

section
variable {s : State} (h : s.Safe) (hb : s.engine = .busy)
include h hb

theorem safe_tgtwtPass (md : SlotId) {M : BitMatrix} {w : Nat} (hsc : Scratch.Safe s.params (.tgtwt M w)) :
    AllNext State.Safe (tgtwtPass md M w s) := by
  obtain ⟨hfits, hcap, hle⟩ := hsc
  rcases hle.eq_or_lt with heq | hlt
  · rw [tgtwtPass, if_neg (Nat.not_lt.mpr heq.ge)]
    exact h.storage.completeWith md hfits
  · have hx : (draw (M.rows * M.cols) s).1 < M.rows * M.cols := draw_lt s (Nat.zero_lt_of_lt hcap)
    rw [tgtwtPass_draw (x := (draw (M.rows * M.cols) s).1) rfl hlt]
    exact h.goOn hb (safe_addCell hfits hcap hlt hx) (draw_snd ..)

theorem safe_execTgtwt (md : SlotId) (w : Nat) : AllNext State.Safe (execTgtwt md w s) := by
  unfold execTgtwt
  split
  next M w' hsc => exact safe_tgtwtPass h hb md (hsc ▸ h.scratch)
  next =>
    exact allNext_withSlot h.finish fun M hM => allNext_check h.finish fun hcap => allNext_check h.finish fun hle =>
      h.goOn hb ⟨h.slots _ M hM, hcap, hle⟩ ⟨_, _, rfl⟩

theorem safe_samplePass (md : SlotId) {M : BitMatrix} {k : Nat} {idx : List Nat}
    (hsc : Scratch.Safe s.params (.sample M k idx)) : AllNext State.Safe (samplePass md M k idx s) := by
  obtain ⟨hfits, hk, hlen, hidx⟩ := hsc
  rcases hlen.eq_or_lt with heq | hlt
  · rw [samplePass, if_neg (Nat.not_lt.mpr heq.ge)]
    have hcols : idx.length ≤ M.cols := heq ▸ hk
    have hsel : (M.selectCols idx).Fits s.params := hfits.of_cols_le (M.rows_selectCols idx) hcols
    exact (h.storage.setXidx hidx (hcols.trans hfits.2.1) hfits.2.1).completeWith md hsel
  · have hx : (draw M.cols s).1 < M.cols := draw_lt s (Nat.zero_lt_of_lt (hlt.trans_le hk))
    rw [samplePass_draw rfl hlt]
    exact h.goOn hb ⟨hfits, hk, (length_acceptColumn_le ..).trans hlt, hidx.acceptColumn hx⟩ (draw_snd ..)

theorem safe_execSample (md ms1 : SlotId) (k : Nat) : AllNext State.Safe (execSample md ms1 k s) := by
  unfold execSample
  split
  next M k' idx hsc => exact safe_samplePass h hb md (hsc ▸ h.scratch)
  next =>
    exact allNext_withSlot h.finish fun M hM => allNext_check h.finish fun hk =>
      h.goOn hb ⟨h.slots _ M hM, hk, Nat.zero_le k, List.nodup_nil, nofun⟩ ⟨_, _, rfl⟩

theorem safe_isdTop {sc : IsdScratch} (hsc : sc.Safe s.params) : AllNext State.Safe (isdTop sc s) := by
  obtain ⟨hfits, hslot, hle, hsyn, -⟩ := hsc
  have hfail (code : ErrCode) : AllNext State.Safe (isdFail code sc s) :=
    ((h.storage.setIsdCounters sc).setResFlag 0 false).raise code 0
  unfold isdTop
  split
  · exact hfail _
  split
  · exact hfail _
  · refine h.goOn hb ⟨hfits, hslot, hle, hsyn, fun idx hidx => ?_⟩ ⟨_, _, rfl⟩
    obtain rfl : [] = idx := Option.some.inj hidx
    exact ⟨Nat.zero_le _, List.nodup_nil, nofun⟩

theorem safe_isdTry (md : SlotId) {sc : IsdScratch} {idx : List Nat} (hsc : sc.Safe s.params)
    (hlen : idx.length ≤ sc.H.rows) (hidx : ColumnList sc.H.cols idx) :
    AllNext State.Safe (isdTry md sc idx s) := by
  obtain ⟨hfits, hslot, hle, hsyn, -⟩ := hsc
  cases hinv : (sc.H.selectCols idx).invert with
  | error e =>
    rw [isdTry_singular hinv]
    exact h.goOn hb ⟨hfits, hslot, hle, hsyn, nofun⟩ ⟨_, _, rfl⟩
  | ok X =>
    by_cases hw : (X.mul sc.syn).hw = sc.t
    · rw [isdTry_hit hinv hw]
      have hxidx := h.storage.setXidx hidx ((hlen.trans hle).trans hfits.2.1) hfits.2.1
      exact ((hxidx.setIsdCounters _).setResFlag _ _).completeWith md
        (.of_fitsSlot hslot (BitMatrix.hasShape_scatter ..))
    · rw [isdTry_miss hinv hw]
      exact h.goOn hb ⟨hfits, hslot, hle, hsyn, nofun⟩ ⟨_, _, rfl⟩

theorem safe_isdPass (md : SlotId) {sc : IsdScratch} (hsc : sc.Safe s.params) :
    AllNext State.Safe (isdPass md sc s) := by
  cases hdrawn : sc.drawn with
  | none => rw [isdPass_top hdrawn]; exact safe_isdTop h hb hsc
  | some idx =>
    obtain ⟨hlen, hidx⟩ := hsc.2.2.2.2 idx hdrawn
    rcases hlen.eq_or_lt with heq | hlt
    · rw [isdPass_try hdrawn heq.ge]
      exact safe_isdTry h hb md hsc hlen hidx
    · obtain ⟨hfits, hslot, hle, hsyn, -⟩ := hsc
      have hx : (draw sc.H.cols s).1 < sc.H.cols := draw_lt s (Nat.zero_lt_of_lt (hlt.trans_le hle))
      rw [isdPass_draw hdrawn hlt rfl]
      refine h.goOn hb ⟨hfits, hslot, hle, hsyn, fun l hl => ?_⟩ (draw_snd ..)
      obtain rfl := Option.some.inj hl
      exact ⟨(length_acceptColumn_le ..).trans hlt, hidx.acceptColumn hx⟩

theorem safe_execIsd (md ms1 ms2 : SlotId) (t : Nat) : AllNext State.Safe (execIsd md ms1 ms2 t s) := by
  unfold execIsd
  split
  next sc hsc => exact safe_isdPass h hb md (show Scratch.Safe s.params (.isd sc) from hsc ▸ h.scratch)
  next =>
    exact allNext_withSlot h.finish fun H hH => allNext_withSlot h.finish fun syn _ =>
      allNext_check h.finish fun ⟨hle, hsyn⟩ => allNext_check h.finish fun hslot =>
      h.goOn hb ⟨h.slots _ H hH, hslot, hle, hsyn, nofun⟩ ⟨_, _, rfl⟩

end

/-- A flip of u and of v is a flip of u above v (43_bitflip.md R297). -/
theorem BitMatrix.stack_add {u v x : BitMatrix} {n : Nat} (hu : u.HasShape n 1) (hv : v.HasShape n 1)
    (hx : x.HasShape (2 * n) 1) :
    (u.add (rowsFrom 0 n x)).stack (v.add (rowsFrom n n x)) = (u.stack v).add x := by
  have hf := hasShape_rowsFrom 0 n x
  have hg := hasShape_rowsFrom n n x
  have huv := hasShape_stack hu.1 hv.1
  refine ext_get (by simp) rfl fun i j hi hj => ?_
  obtain rfl : j = 0 := Nat.lt_one_iff.mp hj
  rw [get_add (huv.1.trans hx.1.symm) hx.2.symm]
  rcases Nat.lt_or_ge i n with hlt | hge
  · rw [get_stack_left (by rw [rows_add, hu.1]; exact hlt), get_stack_left (hu.1.symm ▸ hlt),
      get_add (hu.1.trans hf.1.symm) hu.2, get_rowsFrom x hlt, Nat.zero_add]
  · obtain ⟨k, rfl⟩ := Nat.exists_eq_add_of_le hge
    have hk : k < n := by
      rw [rows_stack, rows_add, rows_add, hu.1, hv.1] at hi
      omega
    have hleft := get_stack_right (u := u.add (rowsFrom 0 n x)) (v := v.add (rowsFrom n n x)) (i := k)
      (by rw [rows_add, hv.1]; exact hk)
    have hright := get_stack_right (u := u) (v := v) (i := k) (hv.1.symm ▸ hk)
    rw [rows_add, hu.1] at hleft
    rw [hu.1] at hright
    rw [hleft, hright, get_add (hv.1.trans hg.1.symm) hv.2, get_rowsFrom x hk]

/-- An iteration keeps BITFLIP's invariant: the syndrome moves by H times the flip (43_bitflip.md R298, R304). -/
theorem BitflipScratch.Safe.iterate {p : Params} {sc : BitflipScratch} (h : sc.Safe p) :
    (bitflipIterate sc).Safe p := by
  obtain ⟨hslot, hu, hv, hs0, hsyn, hH, heq⟩ := h
  have hu : sc.u.HasShape sc.u.rows 1 := ⟨rfl, hu⟩
  have hflip : (bitflipFlip sc).HasShape (2 * sc.u.rows) 1 := hH.2 ▸ hasShape_bitflipFlip (hH.1.symm ▸ hsyn)
  have huv := BitMatrix.hasShape_stack hu.1 hv.1
  have hrows : (bitflipIterate sc).u.rows = sc.u.rows := BitMatrix.rows_add ..
  have hvrows : (bitflipIterate sc).v = sc.v.add (rowsFrom sc.u.rows sc.u.rows (bitflipFlip sc)) :=
    congrArg (fun k => sc.v.add (rowsFrom sc.u.rows k (bitflipFlip sc))) hv.1
  have hstack : (bitflipIterate sc).u.stack (bitflipIterate sc).v = (sc.u.stack sc.v).add (bitflipFlip sc) :=
    (congrArg (BitMatrix.stack _) hvrows).trans (BitMatrix.stack_add hu hv hflip)
  unfold BitflipScratch.Safe
  rw [hrows, hstack]
  refine ⟨hslot, hu.2, hv.add, hs0, hsyn.add, hH, ?_⟩
  calc (bitflipIterate sc).syn
      = (sc.s0.add (sc.H.mul (sc.u.stack sc.v))).add (sc.H.mul (bitflipFlip sc)) := by rw [← heq]; rfl
    _ = sc.s0.add ((sc.H.mul (sc.u.stack sc.v)).add (sc.H.mul (bitflipFlip sc))) :=
      BitMatrix.add_assoc hs0 (hH.mul huv) (hH.mul hflip)
    _ = sc.s0.add (sc.H.mul ((sc.u.stack sc.v).add (bitflipFlip sc))) := by rw [BitMatrix.mul_add hH huv hflip]

/-- BITFLIP starts in its invariant: u and v are zero (43_bitflip.md R293). -/
theorem BitflipScratch.Safe.setup {p : Params} {h0 h1 c : BitMatrix} {n : Nat} (T t : Nat) (budget : Word)
    (hh0 : h0.HasShape n n) (hh1 : h1.HasShape n n) (hc : c.HasShape n 1) (hslot : fitsSlot p (2 * n) 1 = true) :
    (bitflipSetup h0 h1 c T t budget).Safe p := by
  have hzero : (BitMatrix.zero h0.rows 1).rows = n := (BitMatrix.rows_zero ..).trans hh0.1
  have hH : (parityOf h0 h1).HasShape n (2 * n) := hasShape_parityOf hh0 hh1
  have hs0 : (h0.mul c).HasShape n 1 := hh0.mul hc
  have hstack : (BitMatrix.zero h0.rows 1).stack (BitMatrix.zero h0.rows 1) = .zero (2 * n) 1 := by
    refine BitMatrix.ext_get ?_ rfl fun i j _ _ => ?_
    · rw [BitMatrix.rows_stack, hzero, BitMatrix.rows_zero, Nat.two_mul]
    · simp [BitMatrix.stack]
  unfold BitflipScratch.Safe
  simp only [bitflipSetup, hzero, hstack]
  refine ⟨hslot, rfl, ⟨hzero, rfl⟩, hs0, hs0, hH, ?_⟩
  have hz := BitMatrix.hasShape_zero (2 * n) 1
  rw [← BitMatrix.toMatrix_inj hs0 hs0.add, BitMatrix.toMatrix_add hs0 (hH.mul hz), BitMatrix.toMatrix_mul hH hz,
    BitMatrix.toMatrix_zero, Matrix.mul_zero, add_zero]

section
variable {s : State} (h : s.Safe) (hb : s.engine = .busy)
include h hb

theorem safe_bitflipPass (md : SlotId) {sc : BitflipScratch} (hsc : sc.Safe s.params) :
    AllNext State.Safe (bitflipPass md sc s) := by
  have hstorage := h.storage.setBfIters sc.it
  have hfail (code : ErrCode) (info : Nat) : AllNext State.Safe (bitflipFail code info sc s) :=
    (hstorage.setResFlag 0 false).raise code info
  unfold bitflipPass
  split
  · split
    · obtain ⟨hslot, -, hv, -⟩ := hsc
      exact (hstorage.setResFlag 1 true).completeWith md (.of_fitsSlot hslot (BitMatrix.hasShape_stack rfl hv.1))
    · exact hfail _ _
  split
  · exact hfail _ _
  split
  · exact hfail _ _
  · exact h.goOn hb hsc.iterate ⟨_, _, rfl⟩

theorem safe_execBitflip (md ms1 ms2 ms3 : SlotId) (T t : Nat) :
    AllNext State.Safe (execBitflip md ms1 ms2 ms3 T t s) := by
  unfold execBitflip
  split
  next sc hsc => exact safe_bitflipPass h hb md (show Scratch.Safe s.params (.bitflip sc) from hsc ▸ h.scratch)
  next =>
    exact allNext_withSlot h.finish fun h0 _ => allNext_withSlot h.finish fun h1 _ =>
      allNext_withSlot h.finish fun c _ => allNext_check h.finish fun ⟨hc0, hr1, hc1, hc⟩ =>
      allNext_check h.finish fun hslot =>
      h.goOn hb (BitflipScratch.Safe.setup T t _ ⟨rfl, hc0⟩ ⟨hr1, hc1⟩ hc hslot) ⟨_, _, rfl⟩

end

end Sys2Proof.Machine
end

section
/-! PROOF. Every step keeps the safe states: the commands, the host's accesses, and the events of an edge
(60_exceptions.md R321, R335). -/

namespace Sys2Proof.Machine

section
variable {s : State} (h : s.Safe) (hb : s.engine = .busy)
include h

theorem safe_execRand (md : SlotId) : AllNext State.Safe (execRand md s) :=
  allNext_withSlot h.finish fun M hM => by
    have hfits : (BitMatrix.ofFn M.rows M.cols fun i j =>
        (drawBits (M.rows * M.cols) s).1.getD (i * M.cols + j) false).Fits s.params :=
      (h.slots _ M hM).of_hasShape ⟨BitMatrix.rows_ofFn .., rfl⟩
    obtain ⟨g, l, hdraws⟩ := drawBits_snd (M.rows * M.cols) s
    dsimp only
    rw [hdraws]
    have hstorage : State.StorageSafe { s with prng := g, drawInputs := l } := ⟨h.params, h.slots, h.cnt, h.xidx⟩
    exact hstorage.completeWith md hfits

theorem safe_execInv (md ms1 : SlotId) : AllNext State.Safe (execInv md ms1 s) :=
  allNext_withSlot h.finish fun M hM => allNext_check h.finish fun hsq => by
    cases hinv : M.invert with
    | error i => exact (h.storage.setResFlag 0 false).raise _ _
    | ok X =>
      have hX : X.HasShape M.rows M.rows := BitMatrix.shape_of_invert hinv
      exact (h.storage.setResFlag 1 true).completeWith md ((h.slots _ M hM).of_hasShape ⟨hX.1, hX.2.trans hsq⟩)

include hb

theorem safe_exec (i : Instr) : AllNext State.Safe (exec i s) := by
  have hstorage := h.storage
  have hfits := h.slots
  cases i with
  | rand md => exact safe_execRand h md
  | tgtwt md w => exact safe_execTgtwt h hb md w
  | sample md ms1 k => exact safe_execSample h hb md ms1 k
  | inv md ms1 => exact safe_execInv h md ms1
  | isd md ms1 ms2 t => exact safe_execIsd h hb md ms1 ms2 t
  | bitflip md ms1 ms2 ms3 T t => exact safe_execBitflip h hb md ms1 ms2 ms3 T t
  | nop => exact hstorage.complete
  | init md r c =>
    exact allNext_check h.finish fun hfit =>
      hstorage.completeWith md (.of_fitsSlot hfit (BitMatrix.hasShape_zero r c))
  | ident md n =>
    exact allNext_check h.finish fun hfit =>
      hstorage.completeWith md (.of_fitsSlot hfit (BitMatrix.hasShape_identity n))
  | copy md ms1 => exact allNext_withSlot h.finish fun A hA => hstorage.completeWith md (hfits _ A hA)
  | setbit md r c v =>
    exact allNext_withSlot h.finish fun M hM => allNext_check h.finish fun _ => allNext_check h.finish fun _ =>
      hstorage.completeWith md ((hfits _ M hM).of_hasShape ⟨M.rows_setBit .., rfl⟩)
  | getbit ms1 r c =>
    exact allNext_withSlot h.finish fun M _ => allNext_check h.finish fun _ => allNext_check h.finish fun _ =>
      (hstorage.setResFlag ..).complete
  | rowxor md a b =>
    exact allNext_withSlot h.finish fun M hM => allNext_check h.finish fun _ => allNext_check h.finish fun _ =>
      hstorage.completeWith md ((hfits _ M hM).of_hasShape ⟨M.rows_rowXor .., rfl⟩)
  | rowswap md a b =>
    exact allNext_withSlot h.finish fun M hM => allNext_check h.finish fun _ => allNext_check h.finish fun _ =>
      hstorage.completeWith md ((hfits _ M hM).of_hasShape ⟨M.rows_rowSwap .., rfl⟩)
  | trans md ms1 =>
    exact allNext_withSlot h.finish fun M hM => allNext_check h.finish fun hwords => by
      obtain ⟨hrows, hcols, -⟩ := hfits _ M hM
      exact hstorage.completeWith md (.of_fitsSlot (fitsSlot_of_fitsWords hcols hrows hwords) M.hasShape_transpose)
  | concat md ms1 ms2 =>
    exact allNext_withSlot h.finish fun A hA => allNext_withSlot h.finish fun B _ =>
      allNext_check h.finish fun _ => allNext_check h.finish fun ⟨hcols, hwords⟩ => by
      obtain ⟨hrows, -, -⟩ := hfits _ A hA
      exact hstorage.completeWith md (.of_fitsSlot (fitsSlot_of_fitsWords hrows hcols hwords) ⟨A.rows_concat B, rfl⟩)
  | add md ms1 ms2 =>
    exact allNext_withSlot h.finish fun A hA => allNext_withSlot h.finish fun B _ => allNext_check h.finish fun _ =>
      hstorage.completeWith md ((hfits _ A hA).of_hasShape ⟨A.rows_add B, rfl⟩)
  | mul md ms1 ms2 =>
    exact allNext_withSlot h.finish fun A hA => allNext_withSlot h.finish fun B hB =>
      allNext_check h.finish fun _ => allNext_check h.finish fun hwords => by
      obtain ⟨hrows, -, -⟩ := hfits _ A hA
      obtain ⟨-, hcols, -⟩ := hfits _ B hB
      exact hstorage.completeWith md (.of_fitsSlot (fitsSlot_of_fitsWords hrows hcols hwords) ⟨A.rows_mul B, rfl⟩)
  | mulcnt ms1 ms2 =>
    exact allNext_withSlot h.finish fun A hA => allNext_withSlot h.finish fun B hB =>
      allNext_check h.finish fun _ => allNext_check h.finish fun hcap =>
      (hstorage.setCnt ⟨(hfits _ A hA).1, (hfits _ B hB).2.1, hcap, by
        rw [List.length_map, BitMatrix.length_counts]⟩).complete
  | rot md ms1 k =>
    exact allNext_withSlot h.finish fun M hM =>
      hstorage.completeWith md ((hfits _ M hM).of_hasShape ⟨M.rows_rot k, M.cols_rot k⟩)
  | hwt ms1 =>
    exact allNext_withSlot h.finish fun M _ =>
      State.StorageSafe.complete (s := s.setRes M.hw) ⟨h.params, h.slots, h.cnt, h.xidx⟩
  | iszero ms1 | isut ms1 =>
    exact allNext_withSlot h.finish fun M _ => (hstorage.setResFlag ..).complete

end

section
variable {s : State} (h : s.Safe)
include h

theorem safe_engineStep : AllNext State.Safe (engineStep s) := by
  cases hb : s.engine with
  | idle => rw [engineStep, hb]; exact allNext_next h
  | busy =>
    cases hd : decode s.cmd with
    | command i => rw [engineStep_command hb hd]; exact safe_exec h hb i
    | illegal e =>
      simp only [engineStep, hb, hd]
      exact h.storage.raise _ _

/-- An access that disturbs nothing a command reads leaves a safe state. -/
theorem State.Safe.of_undisturbed {t : State} (ht : s.Undisturbed t) : t.Safe := by
  obtain ⟨heq, hdone⟩ := ht
  rw [heq]
  refine ⟨h.params, h.slots, h.cnt, h.xidx, h.scratch, h.idle, fun hb => ?_⟩
  obtain ⟨hnotDone, herr⟩ := h.busy hb
  exact ⟨Bool.eq_false_iff.mpr fun hd => by simp [hdone hd] at hnotDone, herr⟩

theorem safe_resetEngine : s.resetEngine.Safe where
  params := h.params
  slots := fun d M hM => by
    have hempty : s.resetEngine.slot d = none := slot_afterReset s.params d
    rw [hempty] at hM
    cases hM
  cnt := nofun
  xidx := nofun
  scratch := trivial
  idle := fun _ => rfl
  busy := nofun

theorem safe_writeMdata (v : Word) : (writeMdata v s).Safe := by
  have hset (d : SlotId) {M : BitMatrix} (hM : s.slot d = some M) (i q : Nat) :
      (s.setSlot d (storeWord s.params M i q v)).Safe := by
    have hfits : (storeWord s.params M i q v).Fits s.params :=
      (h.slots d M hM).of_hasShape ⟨List.length_set, rfl⟩
    obtain ⟨hparams, hslots, hcnt, hxidx⟩ := h.storage.setSlot d hfits
    exact ⟨hparams, hslots, hcnt, hxidx, h.scratch, h.idle, h.busy⟩
  unfold writeMdata
  split
  · exact h.of_undisturbed ⟨rfl, id⟩
  split
  · exact h.of_undisturbed ⟨rfl, id⟩
  next M hM =>
    split
    · exact hset _ hM _ _
    · exact h.of_undisturbed ⟨rfl, id⟩

theorem safe_writeCmd (v : Word) : (writeCmd v s).Safe := by
  unfold writeCmd
  split
  · exact ⟨h.params, h.slots, h.cnt, h.xidx, trivial, fun _ => rfl, fun _ => ⟨rfl, rfl⟩⟩
  · exact h.of_undisturbed ⟨rfl, id⟩

theorem safe_writeConfig {put : State → State} (hput : (put s).Safe) : (writeConfig put s).Safe := by
  unfold writeConfig
  split
  · exact hput
  · exact h.of_undisturbed ⟨rfl, id⟩

theorem safe_writeCtrl (v : Word) : (s.writeCtrl v).Safe := by
  unfold State.writeCtrl
  split
  · exact safe_resetEngine h
  · exact ⟨h.params, h.slots, h.cnt, h.xidx, h.scratch, h.idle, h.busy⟩

theorem safe_writeReg (r : Reg) (v : Word) : (writeReg r v s).Safe := by
  cases r with
  | ctrl => exact safe_writeCtrl h v
  | status => exact h.of_undisturbed (undisturbed_clearStatus s v)
  | cmd => exact safe_writeCmd h v
  | mdata => exact safe_writeMdata h v
  | seed | isdMax | isdDthr | bfMax =>
    rw [writeReg]
    refine safe_writeConfig h ?_
    exact ⟨h.params, h.slots, h.cnt, h.xidx, h.scratch, h.idle, h.busy⟩
  | _ => exact h.of_undisturbed ⟨rfl, id⟩

theorem safe_respondFree (ack : Bool) : (s.respondFree ack).Safe :=
  h.of_undisturbed ((State.Undisturbed.refl s).respondFree ack)

theorem safe_busAccess (a : HostAccess) : (busAccess a s).Safe := by
  unfold busAccess
  split
  · split
    · exact h.of_undisturbed ((undisturbed_readReg s _).respond _ _)
    · exact h.of_undisturbed ((State.Undisturbed.refl s).respond _ _)
    · exact safe_respondFree (safe_writeReg h _ _) true
    · exact safe_respondFree h true
  · exact h.of_undisturbed ((State.Undisturbed.refl s).respond _ _)

theorem safe_presentAccess (access : Option HostAccess) : (presentAccess access s).Safe := by
  cases access with
  | none => exact h
  | some a => exact safe_busAccess h a

theorem safe_resetEdge (access : Option HostAccess) : (resetEdge access s).Safe := by
  cases access with
  | none => exact safe_resetEngine h
  | some a => exact safe_respondFree (safe_resetEngine h) false

theorem safe_clockEdge (e : Edge) : AllNext State.Safe (clockEdge e s) := fun t ht => by
  cases hr : e.rstN with
  | false =>
    rw [clockEdge_reset s hr] at ht
    cases ht
    exact safe_resetEdge h e.access
  | true =>
    rcases clockEdge_run hr ht with rfl | ⟨-, -, hstep⟩
    · exact safe_presentAccess h e.access
    · exact safe_engineStep (safe_presentAccess h e.access) t hstep

end

/-- Settles O58: an edge is a reset, or an access and a step of the engine, and each keeps the safe states. -/
theorem everyStepKeepsTheSafeStates : Obligations.EveryStepKeepsTheSafeStates := by
  intro s t h ht
  cases hin : s.inputs with
  | nil =>
    rw [step_of_inputs_nil hin] at ht
    exact safe_clockEdge h quietEdge t ht
  | cons e rest =>
    rw [step_of_inputs_cons hin] at ht
    have hrest : State.Safe { s with inputs := rest } :=
      ⟨h.params, h.slots, h.cnt, h.xidx, h.scratch, h.idle, h.busy⟩
    exact safe_clockEdge hrest e t ht

/-- Settles O59: the reset state holds nothing, and the default parameters are legal. -/
theorem resetIsSafe : Obligations.ResetIsSafe where
  params := by decide
  slots := fun d M hM => by
    rw [State.reset, slot_afterReset] at hM
    cases hM
  cnt := nofun
  xidx := nofun
  scratch := trivial
  idle := fun _ => rfl
  busy := nofun

end Sys2Proof.Machine
end
